-- ==== Sys2Proof/Word.lean ====
section
/-! DEFINITION. The words of the block (spec/00_scope.md R9): a byte is 8 bits, bits are numbered from 0 at the
least significant bit, and every quantity is unsigned. -/

namespace Sys2Proof

/-- A byte (R9). -/
abbrev Byte := BitVec 8

/-- A 16-bit opcode (R101). -/
abbrev Opcode := BitVec 16

/-- A 48-bit host command word (R110). -/
abbrev CmdWord := BitVec 48

end Sys2Proof
end

