-- ==== Sys2Proof/Config.lean ====
section
/-! DEFINITION. The parameters of the block (spec/00_scope.md R7, R8; spec/41_command_table.md R160;
spec/40_codec.md R140), and the free values the spec leaves open: opaque constants, so that nothing proved of the
model rests on a choice of theirs. -/

namespace Sys2Proof

/-- The fifteen message names of the default command table, in the order of their name ids (R160). -/
inductive Message where
  | moveAbsolute | moveHome | moveCompleted | getStatus | setVelParams
  | reqStatus | ackStatus | moveHomed | reqEncCounter | getEncCounter
  | reqVelParams | getVelParams | setChanEnable | reqChanEnable | getChanEnable
  deriving DecidableEq, Repr

/-- The default opcode of a message. PRESUMED by the spec from general knowledge (R160, G1), log 10. -/
def Message.opcode : Message → Opcode
  | .moveAbsolute => 0x0453
  | .moveHome => 0x0443
  | .moveCompleted => 0x0464
  | .getStatus => 0x0491
  | .setVelParams => 0x0413
  | .reqStatus => 0x0490
  | .ackStatus => 0x0492
  | .moveHomed => 0x0444
  | .reqEncCounter => 0x040A
  | .getEncCounter => 0x040B
  | .reqVelParams => 0x0414
  | .getVelParams => 0x0415
  | .setChanEnable => 0x0210
  | .reqChanEnable => 0x0211
  | .getChanEnable => 0x0212

/-- A symbolic name of a command table. The block never reads a name, only its index (R161, D33), so a name outside
the default table is any number. -/
inductive CommandName where
  | message (m : Message)
  | other (n : Nat)
  deriving DecidableEq, Repr

/-- One entry of `CMD_TABLE`: a name and its opcode (R160). -/
structure TableEntry where
  name : CommandName
  opcode : Opcode
  deriving DecidableEq, Repr

/-- `STATUS_BITS`: the bit of the 32-bit status word that carries each of the 13 flags (R140). -/
structure StatusBits where
  forwardLimit : Nat
  reverseLimit : Nat
  moveForward : Nat
  moveReverse : Nat
  jogForward : Nat
  jogReverse : Nat
  homing : Nat
  homed : Nat
  tracking : Nat
  settled : Nat
  motionError : Nat
  currentLimit : Nat
  enabled : Nat
  deriving DecidableEq, Repr

/-- The 13 positions in the order of the flag indices (R140). -/
def StatusBits.positions (b : StatusBits) : List Nat :=
  [b.forwardLimit, b.reverseLimit, b.moveForward, b.moveReverse, b.jogForward, b.jogReverse, b.homing,
   b.homed, b.tracking, b.settled, b.motionError, b.currentLimit, b.enabled]

/-- `HDR_LEN`: a header is always six bytes (R7, R100). -/
def hdrLen : Nat := 6

/-- `STATUS_LEN`: a status field is always four bytes (R7, R141). -/
def statusLen : Nat := 4

/-- `MAX_PAYLOAD`: `param1` is one byte (R7). -/
def maxPayload : Nat := 255

/-- `PAYLOAD_FLAG` of R7: the bit of byte 4 that announces a payload. A constant of the model and no field of `Config`,
because R100, R103, R180 and R212 write bit 7 out whatever the parameters are. DESIGN CHOICE, log 7. -/
def payloadBit : Nat := 7

/-- The payload flag is bit 7 (R7, R100). -/
@[simp] theorem payloadBit_eq : payloadBit = 7 := rfl

/-- `PAYLOAD_FLAG` as a mask, the source's 0x80 (R7, R106). -/
def payloadFlag : Byte := 1#8 <<< payloadBit

/-- The parameters of R7 that a model takes as arguments. `BAUD` is `Config.baud` below; `HDR_LEN`, `STATUS_LEN`,
`MAX_PAYLOAD` and `PAYLOAD_FLAG` are the constants above. The three named opcodes and `UNSOL_SET` are parameters of their
own, which do not follow a replaced `cmdTable`: DESIGN CHOICE, log 20. -/
structure Config where
  kaThresh : Nat
  kaDeadline : Nat
  nKa : Nat
  rxDepth : Nat
  txqDepth : Nat
  cmdTable : List TableEntry
  /-- `OP_KEEPALIVE`: any opcode of `cmdTable`; the entry `ACK_STATUS` in `Config.default` (R7, R8, R160; log 20) -/
  opKeepalive : Opcode
  /-- `OP_MOVE_COMPLETED`: any opcode of `cmdTable`; the entry `MOVE_COMPLETED` in `Config.default` (log 20) -/
  opMoveCompleted : Opcode
  /-- `OP_MOVE_HOMED`: any opcode of `cmdTable`; the entry `MOVE_HOMED` in `Config.default` (log 20) -/
  opMoveHomed : Opcode
  /-- `UNSOL_SET`: the opcodes read as unsolicited notifications (R193, D16); any list (logs 7, 20) -/
  unsolSet : List Opcode
  kaP1 : Byte
  kaP2 : Byte
  statusBits : StatusBits
  deriving DecidableEq, Repr

/-- The entry of the default table for a message. -/
def Message.entry (m : Message) : TableEntry := ⟨.message m, m.opcode⟩

/-- The default `CMD_TABLE`, in the order of the name ids (R160). -/
def Config.defaultTable : List TableEntry :=
  [Message.moveAbsolute.entry, Message.moveHome.entry, Message.moveCompleted.entry, Message.getStatus.entry,
   Message.setVelParams.entry, Message.reqStatus.entry, Message.ackStatus.entry, Message.moveHomed.entry,
   Message.reqEncCounter.entry, Message.getEncCounter.entry, Message.reqVelParams.entry,
   Message.getVelParams.entry, Message.setChanEnable.entry, Message.reqChanEnable.entry,
   Message.getChanEnable.entry]

/-- The default status bit positions. PRESUMED by the spec from general knowledge (R140, G2), log 10. -/
def Config.defaultStatusBits : StatusBits where
  forwardLimit := 0
  reverseLimit := 1
  moveForward := 4
  moveReverse := 5
  jogForward := 6
  jogReverse := 7
  homing := 9
  homed := 10
  tracking := 12
  settled := 13
  motionError := 14
  currentLimit := 24
  enabled := 31

/-- Every parameter at its default (R7). -/
def Config.default : Config where
  kaThresh := 20
  kaDeadline := 50
  nKa := 4
  rxDepth := 512
  txqDepth := 512
  cmdTable := Config.defaultTable
  opKeepalive := Message.ackStatus.opcode
  opMoveCompleted := Message.moveCompleted.opcode
  opMoveHomed := Message.moveHomed.opcode
  unsolSet := [Message.moveCompleted.opcode, Message.moveHomed.opcode]
  kaP1 := 0x00
  kaP2 := 0x00
  statusBits := Config.defaultStatusBits

/-- The opcodes of the command table (R160). -/
def Config.opcodes (c : Config) : List Opcode := c.cmdTable.map TableEntry.opcode

/-- `opcode_valid` of R162. -/
def Config.opcodeValid (c : Config) (op : Opcode) : Bool := c.opcodes.contains op

/-- The constraints of R8. A model refuses a configuration that breaks one of them: `step` does, by name. Of
`OP_KEEPALIVE`, `OP_MOVE_COMPLETED` and `OP_MOVE_HOMED` it asks what R8 asks, that they are opcodes of the table. That
they are the opcodes of the entries `ACK_STATUS`, `MOVE_COMPLETED` and `MOVE_HOMED` (R7, R160) is the value
`Config.default` gives them, and no constraint on another table: DESIGN CHOICE, log 20. -/
abbrev Config.Valid (c : Config) : Prop :=
  c.kaThresh + 1 < c.kaDeadline ∧
  c.kaThresh ≤ 254 ∧
  1 ≤ c.nKa ∧ c.nKa ≤ 8 ∧
  hdrLen + maxPayload ≤ c.rxDepth ∧
  hdrLen * c.nKa + hdrLen + maxPayload ≤ c.txqDepth ∧
  1 ≤ c.cmdTable.length ∧ c.cmdTable.length ≤ 65536 ∧
  c.opcodes.Nodup ∧
  (c.cmdTable.map TableEntry.name).Nodup ∧
  c.opKeepalive ∈ c.opcodes ∧ c.opMoveCompleted ∈ c.opcodes ∧ c.opMoveHomed ∈ c.opcodes ∧
  c.statusBits.positions.Nodup ∧
  (∀ p ∈ c.statusBits.positions, p ≤ 31)

/-- `BAUD`: OPEN, no value given and no rule reads it (R7, R203, D49). An opaque constant; log 8. -/
opaque Config.baud : Nat

/-- The two payload buffers of R80. -/
inductive Space where
  | txPay
  | respay
  deriving DecidableEq, Repr

/-- What a byte of a payload buffer that nothing has written since the `epoch`-th reset reads as: the spec's
"any value" (U1, U2). A free value: no body; log 9. -/
opaque Config.unspecifiedByte (epoch : Nat) (space : Space) (index : Nat) : Byte

/-- One move of one agent (R11). The environment chooses them; an event whose step is not enabled changes nothing. -/
inductive Event where
  /-- The host issues a command word on the port (R110). -/
  | hostIssue (w : CmdWord)
  /-- The core executes the word on the command port (R12). -/
  | coreCommand
  /-- The core takes a READ frame step (R191). -/
  | coreFrame
  /-- The remote's next byte arrives (R200). -/
  | wireRx (b : Byte)
  /-- Wire-TX, with the remote's clear-to-send as drawn (R201). -/
  | wireTx (clearToSend : Bool)
  /-- The reset input is asserted (R271). -/
  | resetInput
  deriving DecidableEq, Repr, Inhabited

/-- The environment's free choice of the next event, once the listed schedule is used up (R11, U7, U8, U10).
A free value: no body; log 1. -/
opaque Config.environment (draw : Nat) : Event

end Sys2Proof
end

