-- ==== Sys2Proof/Syntax.lean ====
section
/-! DEFINITION. The instructions: one constructor for each row of spec/opcode_table.json. The command words are those
of spec/30_encoding.md R113 to R115; the wire frames and message IDs are those of R100 to R104 and R160. -/

namespace Sys2Proof

/-- One instruction. A host command word acts when the core executes it; a wire frame acts when a READ frame step
consumes it (R191; log 3). A frame's opcode, header bytes and payload are its operands. -/
inductive Instr where
  | nop
  | reset
  | openLink (b : Byte)
  | closeLink
  | kaSet (slot addr : Byte)
  | kaClr (slot : Byte)
  | lookup (idx : BitVec 16)
  | encodeHeader (opc : Opcode) (p1 p2 dst : Byte)
  | txbClear
  | txbPush (b : Byte)
  | write (opc : Opcode) (p1 p2 dst : Byte)
  | read (eopc : Opcode) (esrc : Byte) (any : Bool)
  | abort
  | decodeFrame
  | rxbGet (idx : BitVec 16)
  | decodeStatus (off len : Byte)
  | regRead (b : Byte)
  | evClear (sel : BitVec 2) (mask : Byte)
  | warnClear
  /-- A reserved command code, with the other 40 bits of its word (R115). -/
  | reservedCmd (code : Byte) (operands : BitVec 40)
  /-- A short frame whose opcode is no message ID of the default table (R103). -/
  | frameShort (opc : Opcode) (p1 p2 dst src : Byte)
  /-- A long frame whose opcode is no message ID of the default table (R103). -/
  | frameLong (opc : Opcode) (p1 p2 dst src : Byte) (pay : List Byte)
  | moveAbsolute (p1 p2 dst src : Byte) (pay : List Byte)
  | moveHome (p1 p2 dst src : Byte) (pay : List Byte)
  | moveCompleted (p1 p2 dst src : Byte) (pay : List Byte)
  | getStatus (p1 p2 dst src : Byte) (pay : List Byte)
  | setVelParams (p1 p2 dst src : Byte) (pay : List Byte)
  | reqStatus (p1 p2 dst src : Byte) (pay : List Byte)
  | ackStatus (p1 p2 dst src : Byte) (pay : List Byte)
  | moveHomed (p1 p2 dst src : Byte) (pay : List Byte)
  | reqEncCounter (p1 p2 dst src : Byte) (pay : List Byte)
  | getEncCounter (p1 p2 dst src : Byte) (pay : List Byte)
  | reqVelParams (p1 p2 dst src : Byte) (pay : List Byte)
  | getVelParams (p1 p2 dst src : Byte) (pay : List Byte)
  | setChanEnable (p1 p2 dst src : Byte) (pay : List Byte)
  | reqChanEnable (p1 p2 dst src : Byte) (pay : List Byte)
  | getChanEnable (p1 p2 dst src : Byte) (pay : List Byte)
  deriving DecidableEq, Repr

/-- The six header bytes of a wire frame, named as in R100. -/
structure Header where
  opcLo : Byte
  opcHi : Byte
  p1 : Byte
  p2 : Byte
  dst : Byte
  src : Byte
  deriving DecidableEq, Repr

/-- A complete wire frame: header and payload (R100). -/
structure Frame where
  hdr : Header
  pay : List Byte
  deriving DecidableEq, Repr

/-- An instruction as the hardware holds it: a word on the command port (R110), or the bytes of a frame in line
order (R100). -/
inductive Encoded where
  | command (w : CmdWord)
  | frame (bytes : List Byte)
  deriving DecidableEq, Repr

end Sys2Proof
end

