-- ==== Sys2Proof/WellFormed.lean ====
section
/-! DEFINITION. Which terms of `Instr` stand for an encoding. A command's operands take every value of their fields
(spec/30_encoding.md R113); a reserved code lies in 0x13..0xFF (R115); a frame has the payload its header announces
(R100, R103, R104). -/

namespace Sys2Proof

/-- The opcode is one of the fifteen message IDs of the default table (R160). -/
def isMessageOpcode (opc : Opcode) : Bool :=
  (Config.defaultTable.map TableEntry.opcode).contains opc

/-- The payload has the length the header announces: `P1` bytes when `DST[7]` is set, else none (R101). -/
def payloadFits (p1 dst : Byte) (pay : List Byte) : Bool :=
  pay.length == if dst.getLsbD payloadBit then p1.toNat else 0

/-- The term stands for an encoding. -/
def Instr.WellFormed : Instr → Bool
  | .nop | .reset | .openLink _ | .closeLink | .kaSet _ _ | .kaClr _ | .lookup _ | .encodeHeader _ _ _ _
  | .txbClear | .txbPush _ | .write _ _ _ _ | .read _ _ _ | .abort | .decodeFrame | .rxbGet _
  | .decodeStatus _ _ | .regRead _ | .evClear _ _ | .warnClear => true
  | .reservedCmd code _ => decide (0x13 ≤ code.toNat)
  | .frameShort opc _ _ dst _ => !dst.getLsbD payloadBit && !isMessageOpcode opc
  | .frameLong opc p1 _ dst _ pay => dst.getLsbD payloadBit && !isMessageOpcode opc && payloadFits p1 dst pay
  | .moveAbsolute p1 _ dst _ pay => payloadFits p1 dst pay
  | .moveHome p1 _ dst _ pay => payloadFits p1 dst pay
  | .moveCompleted p1 _ dst _ pay => payloadFits p1 dst pay
  | .getStatus p1 _ dst _ pay => payloadFits p1 dst pay
  | .setVelParams p1 _ dst _ pay => payloadFits p1 dst pay
  | .reqStatus p1 _ dst _ pay => payloadFits p1 dst pay
  | .ackStatus p1 _ dst _ pay => payloadFits p1 dst pay
  | .moveHomed p1 _ dst _ pay => payloadFits p1 dst pay
  | .reqEncCounter p1 _ dst _ pay => payloadFits p1 dst pay
  | .getEncCounter p1 _ dst _ pay => payloadFits p1 dst pay
  | .reqVelParams p1 _ dst _ pay => payloadFits p1 dst pay
  | .getVelParams p1 _ dst _ pay => payloadFits p1 dst pay
  | .setChanEnable p1 _ dst _ pay => payloadFits p1 dst pay
  | .reqChanEnable p1 _ dst _ pay => payloadFits p1 dst pay
  | .getChanEnable p1 _ dst _ pay => payloadFits p1 dst pay

end Sys2Proof
end

