-- ==== Sys2Proof/Decode.lean ====
section
/-! DEFINITION. The decoder and, after it, the encoder. Command words: spec/30_encoding.md R110 to R117. Wire frames:
R100 to R105 and spec/40_codec.md R132. Both are total; what they reject they reject by name. -/

namespace Sys2Proof

/-! ## Byte order (R81, R101, R102) -/

/-- `le16` of R10. -/
def le16 (b0 b1 : Byte) : BitVec 16 := BitVec.ofNat 16 (b0.toNat + 256 * b1.toNat)

/-- `le32` of R10. -/
def le32 (b0 b1 b2 b3 : Byte) : BitVec 32 :=
  BitVec.ofNat 32 (b0.toNat + 2 ^ 8 * b1.toNat + 2 ^ 16 * b2.toNat + 2 ^ 24 * b3.toNat)

/-- The low byte of an opcode, sent first (R102). -/
def opcLoByte (opc : Opcode) : Byte := opc.extractLsb' 0 8

/-- The high byte of an opcode (R102). -/
def opcHiByte (opc : Opcode) : Byte := opc.extractLsb' 8 8

/-- `opcode = le16(hdr[0], hdr[1])` (R101). -/
def Header.opcode (h : Header) : Opcode := le16 h.opcLo h.opcHi

/-- `has_payload = hdr[4][7]` (R101, R103). -/
def Header.hasPayload (h : Header) : Bool := h.dst.getLsbD payloadBit

/-- `pay_len` of R101, as a byte. -/
def Header.payLen (h : Header) : Byte := if h.hasPayload then h.p1 else 0

/-- The six bytes in line order (R100). -/
def Header.bytes (h : Header) : List Byte := [h.opcLo, h.opcHi, h.p1, h.p2, h.dst, h.src]

/-- The frame's bytes in line order: the payload verbatim after the header (R100). -/
def Frame.bytes (f : Frame) : List Byte := f.hdr.bytes ++ f.pay

/-- A header from its fields, the opcode low byte first (R102). -/
def mkHeader (opc : Opcode) (p1 p2 dst src : Byte) : Header :=
  ⟨opcLoByte opc, opcHiByte opc, p1, p2, dst, src⟩

/-- `reply(base) = base | 0x80` (R106): the base address with the payload flag set. -/
def replyAddr (base : Byte) : Byte := base ||| payloadFlag

/-! ## Command words -/

/-- The nine operand formats of R113. -/
inductive Format where
  | n | h | m | b | s | s0 | i | d | e
  deriving DecidableEq, Repr

/-- `CMD = w[47:40]` (R111). -/
def cmdOf (w : CmdWord) : Byte := w.extractLsb' 40 8

/-- The format of a command code (R114); none for the reserved codes. -/
def formatOf (cmd : Byte) : Option Format :=
  if cmd = 0x00 then some .n
  else if cmd = 0x01 then some .n
  else if cmd = 0x02 then some .b
  else if cmd = 0x03 then some .n
  else if cmd = 0x04 then some .s
  else if cmd = 0x05 then some .s0
  else if cmd = 0x06 then some .i
  else if cmd = 0x07 then some .h
  else if cmd = 0x08 then some .n
  else if cmd = 0x09 then some .b
  else if cmd = 0x0A then some .h
  else if cmd = 0x0B then some .m
  else if cmd = 0x0C then some .n
  else if cmd = 0x0D then some .n
  else if cmd = 0x0E then some .i
  else if cmd = 0x0F then some .d
  else if cmd = 0x10 then some .b
  else if cmd = 0x11 then some .e
  else if cmd = 0x12 then some .n
  else none

/-- Every bit the format marks reserved is 0 (R113, R115). -/
def reservedClear (f : Format) (w : CmdWord) : Bool :=
  match f with
  | .n => w.extractLsb' 0 40 == 0
  | .h => true
  | .m => w.extractLsb' 9 7 == 0 && w.extractLsb' 0 8 == 0
  | .b => w.extractLsb' 8 32 == 0
  | .s => w.extractLsb' 16 24 == 0
  | .s0 => w.extractLsb' 16 24 == 0 && w.extractLsb' 0 8 == 0
  | .i => w.extractLsb' 16 24 == 0
  | .d => w.extractLsb' 16 24 == 0
  | .e => w.extractLsb' 10 30 == 0

/-- Why the decoder rejects. -/
inductive DecodeError where
  /-- A command code of R114 with a nonzero reserved bit (R115). -/
  | reservedBits
  /-- Fewer than six bytes (R132). -/
  | incompleteHeader
  /-- A header whose payload has not all arrived (R132). -/
  | incompletePayload
  /-- More bytes than the one frame. -/
  | trailingBytes
  deriving DecidableEq, Repr

/-- Bits 7..0 of the word. -/
def fieldLow (w : CmdWord) : Byte := w.extractLsb' 0 8

/-- Bits 15..8 of the word. -/
def fieldMid (w : CmdWord) : Byte := w.extractLsb' 8 8

/-- Bits 23..16 of the word. -/
def fieldHigh (w : CmdWord) : Byte := w.extractLsb' 16 8

/-- Bits 39..24 of the word: `OPC` or `EOPC`. -/
def fieldOpcode (w : CmdWord) : Opcode := w.extractLsb' 24 16

/-- The instruction of a word whose reserved bits are clear (R113, R114, R117). -/
def commandInstr (w : CmdWord) : Instr :=
  let cmd := cmdOf w
  if cmd = 0x00 then .nop
  else if cmd = 0x01 then .reset
  else if cmd = 0x02 then .openLink (fieldLow w)
  else if cmd = 0x03 then .closeLink
  else if cmd = 0x04 then .kaSet (fieldMid w) (fieldLow w)
  else if cmd = 0x05 then .kaClr (fieldMid w)
  else if cmd = 0x06 then .lookup (w.extractLsb' 0 16)
  else if cmd = 0x07 then .encodeHeader (fieldOpcode w) (fieldHigh w) (fieldMid w) (fieldLow w)
  else if cmd = 0x08 then .txbClear
  else if cmd = 0x09 then .txbPush (fieldLow w)
  else if cmd = 0x0A then .write (fieldOpcode w) (fieldHigh w) (fieldMid w) (fieldLow w)
  else if cmd = 0x0B then .read (fieldOpcode w) (fieldHigh w) (w.getLsbD 8)
  else if cmd = 0x0C then .abort
  else if cmd = 0x0D then .decodeFrame
  else if cmd = 0x0E then .rxbGet (w.extractLsb' 0 16)
  else if cmd = 0x0F then .decodeStatus (fieldMid w) (fieldLow w)
  else if cmd = 0x10 then .regRead (fieldLow w)
  else if cmd = 0x11 then .evClear (w.extractLsb' 8 2) (fieldLow w)
  else if cmd = 0x12 then .warnClear
  else .reservedCmd cmd (w.extractLsb' 0 40)

/-- Decodes a command word by its `CMD` alone (R117). A reserved code is the instruction `reservedCmd`; a nonzero
reserved bit under a code of R114 is rejected by name, and the core step then raises `ILLEGAL_COMMAND` (R115; log 6). -/
def decodeCommand (w : CmdWord) : Except DecodeError Instr :=
  match formatOf (cmdOf w) with
  | none => .ok (commandInstr w)
  | some f => if reservedClear f w then .ok (commandInstr w) else .error .reservedBits

/-! ## Wire frames -/

/-- `hdr_ready` of R132. -/
def hdrReady (q : List Byte) : Bool := decide (6 ≤ q.length)

/-- `frame_len` of R132: six bytes, and `q[2]` more when `q[4][7]` is set. -/
def frameLen (q : List Byte) : Nat := 6 + if (q.getD 4 0).getLsbD payloadBit then (q.getD 2 0).toNat else 0

/-- `complete` of R132. -/
def complete (q : List Byte) : Bool := hdrReady q && decide (frameLen q ≤ q.length)

/-- The header at the head of a byte sequence (R100). -/
def headerOf (q : List Byte) : Header :=
  ⟨q.getD 0 0, q.getD 1 0, q.getD 2 0, q.getD 3 0, q.getD 4 0, q.getD 5 0⟩

/-- The frame at the head of a byte sequence (R132, R134). -/
def frameOf (q : List Byte) : Frame := ⟨headerOf q, (q.take (frameLen q)).drop 6⟩

/-- The message whose default opcode this is (R160). -/
def messageOf (opc : Opcode) : Option Message :=
  if opc = Message.opcode .moveAbsolute then some .moveAbsolute
  else if opc = Message.opcode .moveHome then some .moveHome
  else if opc = Message.opcode .moveCompleted then some .moveCompleted
  else if opc = Message.opcode .getStatus then some .getStatus
  else if opc = Message.opcode .setVelParams then some .setVelParams
  else if opc = Message.opcode .reqStatus then some .reqStatus
  else if opc = Message.opcode .ackStatus then some .ackStatus
  else if opc = Message.opcode .moveHomed then some .moveHomed
  else if opc = Message.opcode .reqEncCounter then some .reqEncCounter
  else if opc = Message.opcode .getEncCounter then some .getEncCounter
  else if opc = Message.opcode .reqVelParams then some .reqVelParams
  else if opc = Message.opcode .getVelParams then some .getVelParams
  else if opc = Message.opcode .setChanEnable then some .setChanEnable
  else if opc = Message.opcode .reqChanEnable then some .reqChanEnable
  else if opc = Message.opcode .getChanEnable then some .getChanEnable
  else none

/-- The instruction a complete frame stands for: its message ID's when the opcode is one of the default table's,
else the short or long form (R103, R160). -/
def frameInstr (f : Frame) : Instr :=
  let h := f.hdr
  match messageOf h.opcode with
  | some .moveAbsolute => .moveAbsolute h.p1 h.p2 h.dst h.src f.pay
  | some .moveHome => .moveHome h.p1 h.p2 h.dst h.src f.pay
  | some .moveCompleted => .moveCompleted h.p1 h.p2 h.dst h.src f.pay
  | some .getStatus => .getStatus h.p1 h.p2 h.dst h.src f.pay
  | some .setVelParams => .setVelParams h.p1 h.p2 h.dst h.src f.pay
  | some .reqStatus => .reqStatus h.p1 h.p2 h.dst h.src f.pay
  | some .ackStatus => .ackStatus h.p1 h.p2 h.dst h.src f.pay
  | some .moveHomed => .moveHomed h.p1 h.p2 h.dst h.src f.pay
  | some .reqEncCounter => .reqEncCounter h.p1 h.p2 h.dst h.src f.pay
  | some .getEncCounter => .getEncCounter h.p1 h.p2 h.dst h.src f.pay
  | some .reqVelParams => .reqVelParams h.p1 h.p2 h.dst h.src f.pay
  | some .getVelParams => .getVelParams h.p1 h.p2 h.dst h.src f.pay
  | some .setChanEnable => .setChanEnable h.p1 h.p2 h.dst h.src f.pay
  | some .reqChanEnable => .reqChanEnable h.p1 h.p2 h.dst h.src f.pay
  | some .getChanEnable => .getChanEnable h.p1 h.p2 h.dst h.src f.pay
  | none =>
    if h.hasPayload then .frameLong h.opcode h.p1 h.p2 h.dst h.src f.pay
    else .frameShort h.opcode h.p1 h.p2 h.dst h.src

/-- Decodes the frame at the head of a byte sequence and gives the bytes after it (R105, R132). -/
def decodeFrame (q : List Byte) : Except DecodeError (Instr × List Byte) :=
  if hdrReady q then
    if complete q then .ok (frameInstr (frameOf q), q.drop (frameLen q)) else .error .incompletePayload
  else .error .incompleteHeader

/-- Decodes what the hardware holds. A byte sequence must be exactly one frame. -/
def decode : Encoded → Except DecodeError Instr
  | .command w => decodeCommand w
  | .frame q =>
    match decodeFrame q with
    | .ok (i, []) => .ok i
    | .ok (_, _ :: _) => .error .trailingBytes
    | .error e => .error e

/-! ## The encoder -/

/-- A command word: `CMD` in bits 47..40, the operands below (R111). -/
def mkWord (cmd : Byte) (operands : BitVec 40) : CmdWord := cmd ++ operands

/-- The operands of format `B` (R113). -/
def formatB (b : Byte) : BitVec 40 := 0#32 ++ b

/-- The operands of formats `S`, `S0` and `D`: two byte fields (R113). -/
def formatS (mid low : Byte) : BitVec 40 := 0#24 ++ mid ++ low

/-- The operands of format `I` (R113). -/
def formatI (idx : BitVec 16) : BitVec 40 := 0#24 ++ idx

/-- The operands of format `H` (R113). -/
def formatH (opc : Opcode) (p1 p2 dst : Byte) : BitVec 40 := opc ++ p1 ++ p2 ++ dst

/-- The operands of format `M` (R113). -/
def formatM (eopc : Opcode) (esrc : Byte) (any : Bool) : BitVec 40 :=
  eopc ++ esrc ++ 0#7 ++ BitVec.ofBool any ++ 0#8

/-- The operands of format `E` (R113). -/
def formatE (sel : BitVec 2) (mask : Byte) : BitVec 40 := 0#30 ++ sel ++ mask

/-- The frame of a message with the default opcode. -/
def messageFrame (m : Message) (p1 p2 dst src : Byte) (pay : List Byte) : Frame :=
  ⟨mkHeader m.opcode p1 p2 dst src, pay⟩

/-- The words of an instruction, from R100, R113 and R114. Reserved bits are zeros. -/
def encode : Instr → Encoded
  | .nop => .command (mkWord 0x00 0#40)
  | .reset => .command (mkWord 0x01 0#40)
  | .openLink b => .command (mkWord 0x02 (formatB b))
  | .closeLink => .command (mkWord 0x03 0#40)
  | .kaSet slot addr => .command (mkWord 0x04 (formatS slot addr))
  | .kaClr slot => .command (mkWord 0x05 (formatS slot 0x00))
  | .lookup idx => .command (mkWord 0x06 (formatI idx))
  | .encodeHeader opc p1 p2 dst => .command (mkWord 0x07 (formatH opc p1 p2 dst))
  | .txbClear => .command (mkWord 0x08 0#40)
  | .txbPush b => .command (mkWord 0x09 (formatB b))
  | .write opc p1 p2 dst => .command (mkWord 0x0A (formatH opc p1 p2 dst))
  | .read eopc esrc any => .command (mkWord 0x0B (formatM eopc esrc any))
  | .abort => .command (mkWord 0x0C 0#40)
  | .decodeFrame => .command (mkWord 0x0D 0#40)
  | .rxbGet idx => .command (mkWord 0x0E (formatI idx))
  | .decodeStatus off len => .command (mkWord 0x0F (formatS off len))
  | .regRead b => .command (mkWord 0x10 (formatB b))
  | .evClear sel mask => .command (mkWord 0x11 (formatE sel mask))
  | .warnClear => .command (mkWord 0x12 0#40)
  | .reservedCmd code operands => .command (mkWord code operands)
  | .frameShort opc p1 p2 dst src => .frame (Frame.bytes ⟨mkHeader opc p1 p2 dst src, []⟩)
  | .frameLong opc p1 p2 dst src pay => .frame (Frame.bytes ⟨mkHeader opc p1 p2 dst src, pay⟩)
  | .moveAbsolute p1 p2 dst src pay => .frame (messageFrame .moveAbsolute p1 p2 dst src pay).bytes
  | .moveHome p1 p2 dst src pay => .frame (messageFrame .moveHome p1 p2 dst src pay).bytes
  | .moveCompleted p1 p2 dst src pay => .frame (messageFrame .moveCompleted p1 p2 dst src pay).bytes
  | .getStatus p1 p2 dst src pay => .frame (messageFrame .getStatus p1 p2 dst src pay).bytes
  | .setVelParams p1 p2 dst src pay => .frame (messageFrame .setVelParams p1 p2 dst src pay).bytes
  | .reqStatus p1 p2 dst src pay => .frame (messageFrame .reqStatus p1 p2 dst src pay).bytes
  | .ackStatus p1 p2 dst src pay => .frame (messageFrame .ackStatus p1 p2 dst src pay).bytes
  | .moveHomed p1 p2 dst src pay => .frame (messageFrame .moveHomed p1 p2 dst src pay).bytes
  | .reqEncCounter p1 p2 dst src pay => .frame (messageFrame .reqEncCounter p1 p2 dst src pay).bytes
  | .getEncCounter p1 p2 dst src pay => .frame (messageFrame .getEncCounter p1 p2 dst src pay).bytes
  | .reqVelParams p1 p2 dst src pay => .frame (messageFrame .reqVelParams p1 p2 dst src pay).bytes
  | .getVelParams p1 p2 dst src pay => .frame (messageFrame .getVelParams p1 p2 dst src pay).bytes
  | .setChanEnable p1 p2 dst src pay => .frame (messageFrame .setChanEnable p1 p2 dst src pay).bytes
  | .reqChanEnable p1 p2 dst src pay => .frame (messageFrame .reqChanEnable p1 p2 dst src pay).bytes
  | .getChanEnable p1 p2 dst src pay => .frame (messageFrame .getChanEnable p1 p2 dst src pay).bytes

/-! ## The host's view of the opcode table -/

/-- Byte `k` of a number. -/
def byteAt (w k : Nat) : Byte := BitVec.ofNat 8 (w / 256 ^ k)

/-- The bytes, in line order, of the wire frame whose header stands in bits 47..0 of `w`, byte `i` in bits
`[8i+7:8i]`, and whose payload bytes, if it announces any, stand in the bits above. -/
def tableFrame (w : Nat) : List Byte :=
  (List.range (frameLen ((List.range 6).map (byteAt w)))).map (byteAt w)

/-- Where a row of spec/opcode_table.json stands. The table numbers two spaces alike: 48-bit command words, and wire
headers. A number of fewer than 48 bits is a wire header (a message ID row); a 48-bit number is a command word when
`decodeCommand` accepts it, else a wire header. DESIGN CHOICE, log 4. -/
def tableEncoded (nbits w : Nat) : Encoded :=
  if nbits < 48 then .frame (tableFrame w)
  else
    match decodeCommand (BitVec.ofNat 48 w) with
    | .ok _ => .command (BitVec.ofNat 48 w)
    | .error _ => .frame (tableFrame w)

/-- The instruction the decoder reads from a row's word, numbered as the table numbers it (log 4). -/
def decodeTableWord (nbits w : Nat) : Option Instr :=
  match decode (tableEncoded nbits w) with
  | .ok i => some i
  | .error _ => none

end Sys2Proof
end

