-- ==== Sys2Proof/Machine/State.lean ====
section
/-! DEFINITION. The state of the block as plain data (spec/10_state.md R30 to R49, spec/20_memory.md R80), its error
codes (spec/60_exceptions.md R240), and the state right after power-on (spec/70_reset_and_hazards.md R270, R272). -/

namespace Sys2Proof.Machine

/-- The error codes of R240. Code 15 is reserved and never produced (U4), so no constructor stands for it. -/
inductive ErrorCode where
  | ok
  | unknownCommand
  | invalidOpcode
  | malformedPacket
  | incompleteFrame
  | aborted
  | notOpen
  | poisoned
  | busy
  | illegalCommand
  | txLengthMismatch
  | badSlot
  | badIndex
  | txOverflow
  | faulted
  deriving DecidableEq, Repr

/-- The response to one command (R112). `err` is one of the codes of R240. -/
structure Response where
  cmd : Byte
  err : ErrorCode
  data : BitVec 64
  deriving DecidableEq, Repr

/-- One keep-alive slot (R37). -/
structure KaSlot where
  valid : Bool
  addr : Byte
  deriving DecidableEq, Repr

/-- A payload buffer (R80): the bytes written since the last reset, addresses strictly rising. A byte that is not
listed has no value of its own (U1, U2; log 9). -/
abbrev Memory := List Host.Cell

/-- The block has no fault that stops it: an error is a response, and every command of the table has an effect (R251).
So no constructor exists, and no step faults. Safe: nothing is claimed to stop where the hardware goes on. -/
inductive Fault where
  deriving DecidableEq, Repr

/-- Why a step has no meaning. -/
inductive Refusal where
  /-- An instruction of the table without a meaning. No arm of `exec` answers it. Safe. -/
  | notModelled (mnemonic : String)
  /-- `step` answers it when the configuration breaks a constraint of R8, as R8 asks of a model. Safe. -/
  | badConfig
  deriving DecidableEq, Repr

/-- The machine. The fields down to `evHomed` are the record of R30; `port` is the command port (R110, R184; log 5);
`responses` and `line` are the histories of R49 (log 14); `cfg` holds the parameters of R7 (log 7); the last four
fields are the model's own (logs 1, 9, 15). -/
structure State where
  /-- R32 -/
  linkOpen : Bool
  /-- R33 -/
  poisoned : Bool
  /-- R34 -/
  fault : Bool
  /-- R31: a READ is pending -/
  busy : Bool
  /-- R35 -/
  kaCount : BitVec 8
  /-- R36 -/
  hostAddr : Byte
  /-- R37: `N_KA` slots, slot 0 first -/
  slots : List KaSlot
  /-- R38 -/
  expOpcode : Opcode
  /-- R38 -/
  expSrc : Byte
  /-- R38 -/
  expAny : Bool
  /-- R39 -/
  resValid : Bool
  /-- R39 -/
  resHdr : Header
  /-- R39 -/
  resHasPayload : Bool
  /-- R39 -/
  resLen : BitVec 8
  /-- R39: the RESPAY space -/
  resPay : Memory
  /-- R40 -/
  txLen : BitVec 8
  /-- R40: the TXPAY space -/
  txPay : Memory
  /-- R41: head first -/
  rxFifo : List Byte
  /-- R42: head first -/
  txQ : List Byte
  /-- R43 -/
  warnCount : BitVec 16
  /-- R43 -/
  lastWarnOpcode : Opcode
  /-- R43 -/
  lastWarnSrc : Byte
  /-- R44 -/
  lastErr : BitVec 4
  /-- R44 -/
  lastErrCmd : Byte
  /-- R45 -/
  evDone : BitVec 8
  /-- R45 -/
  evHomed : BitVec 8
  /-- The word the host has issued and the core has not ended (R110, R184) -/
  port : Option CmdWord
  /-- The responses so far, oldest first (R49) -/
  responses : List Response
  /-- The bytes wire-TX has put on the line, oldest first (R49, R201) -/
  line : List Byte
  /-- The parameters (R7); no step changes them (R163) -/
  cfg : Config
  /-- The length of `line` at each OPEN, oldest first; read by `remoteMayDrop` and the invariant only (R262; log 15) -/
  opens : List Nat
  /-- Events the environment has already chosen, next first (R11; log 1) -/
  schedule : List Event
  /-- How many events were drawn from `Config.environment` (log 1) -/
  draws : Nat
  /-- How many resets the machine has taken (log 9) -/
  epoch : Nat
  deriving DecidableEq, Repr

/-- `N_KA` slots, none valid (R270). -/
def emptySlots (n : Nat) : List KaSlot := List.replicate n ⟨false, 0x00⟩

/-- The power-on state with the parameters `c` (R270, R272): every field of R30's table at its reset value, nothing on
the port, empty histories. -/
def State.powerOn (c : Config) : State where
  linkOpen := false
  poisoned := false
  fault := false
  busy := false
  kaCount := 0
  hostAddr := 0x00
  slots := emptySlots c.nKa
  expOpcode := 0x0000
  expSrc := 0x00
  expAny := false
  resValid := false
  resHdr := ⟨0x00, 0x00, 0x00, 0x00, 0x00, 0x00⟩
  resHasPayload := false
  resLen := 0
  resPay := []
  txLen := 0
  txPay := []
  rxFifo := []
  txQ := []
  warnCount := 0
  lastWarnOpcode := 0x0000
  lastWarnSrc := 0x00
  lastErr := 0
  lastErrCmd := 0x00
  evDone := 0x00
  evHomed := 0x00
  port := none
  responses := []
  line := []
  cfg := c
  opens := []
  schedule := []
  draws := 0
  epoch := 0

/-- The machine right after reset, with the default parameters (R7, R272). -/
def State.reset : State := State.powerOn Config.default

end Sys2Proof.Machine
end

