-- ==== Sys2Proof/Machine/Operands.lean ====
section
/-! DEFINITION. What commands read: the payload buffers (spec/20_memory.md R80), slots (spec/10_state.md R37), the
headers and frames they build (spec/30_encoding.md R100, R116; spec/42_transport.md R181, R182), the command table
(spec/41_command_table.md R161), and flow control (R202). -/

namespace Sys2Proof.Machine

/-! ## Payload buffers -/

/-- The byte written at an address, if one was. -/
def Memory.read : Memory → Nat → Option Byte
  | [], _ => none
  | (a, b) :: rest, i => if i = a then some b else Memory.read rest i

/-- What a byte of a buffer reads as: what was written, else a free value (U1, U2; log 9). The ONE definition of what
an unlisted address reads as. -/
def readByte (epoch : Nat) (space : Space) (mem : Memory) (i : Nat) : Byte :=
  (Memory.read mem i).getD (Config.unspecifiedByte epoch space i)

/-- `res_pay[i]` (R39). -/
def State.resByte (s : State) (i : Nat) : Byte := readByte s.epoch .respay s.resPay i

/-- `tx_pay[i]` (R40). -/
def State.txByte (s : State) (i : Nat) : Byte := readByte s.epoch .txPay s.txPay i

/-- `tx_pay[0..tx_len)` (R40). -/
def State.txPayload (s : State) : List Byte := (List.range s.txLen.toNat).map s.txByte

/-- `res_pay[0..res_len)` (R39). -/
def State.resPayload (s : State) : List Byte := (List.range s.resLen.toNat).map s.resByte

/-! ## Slots -/

/-- Slot `i`; beyond the slot file, an invalid one. -/
def State.slot (s : State) (i : Nat) : KaSlot := s.slots.getD i ⟨false, 0x00⟩

/-- Slot `i` is valid and holds `src` (R191). -/
def State.slotHolds (s : State) (src : Byte) (i : Nat) : Bool :=
  decide (i < s.cfg.nKa) && (s.slot i).valid && (s.slot i).addr == src

/-- `slots` of R191: the indices of the slots that hold `src`, ascending. -/
def State.slotsHolding (s : State) (src : Byte) : List Nat :=
  (List.range s.cfg.nKa).filter (s.slotHolds src)

/-- One bit for each index of a list (R45). -/
def bitsOf (l : List Nat) : BitVec 8 := l.foldr (fun i acc => (1#8 <<< i) ||| acc) 0#8

/-! ## Headers, frames and responses -/

/-- Six header bytes as a 48-bit number, the first least significant (R81, R116). -/
def headerNat (h : Header) : Nat :=
  h.opcLo.toNat + 2 ^ 8 * h.opcHi.toNat + 2 ^ 16 * h.p1.toNat + 2 ^ 24 * h.p2.toNat + 2 ^ 32 * h.dst.toNat
    + 2 ^ 40 * h.src.toNat

/-- Six header bytes as `DATA[47:0]`, the first in `[7:0]` (R116). -/
def headerLe48 (h : Header) : BitVec 64 := BitVec.ofNat 64 (headerNat h)

/-- `DATA` of READ and DECODE_FRAME: header, `res_len` in `[55:48]`, `res_has_payload` in `[56]` (R116). -/
def frameData (h : Header) : BitVec 64 :=
  BitVec.ofNat 64 (headerNat h + 2 ^ 48 * h.payLen.toNat + 2 ^ 56 * h.hasPayload.toNat)

/-- `DATA` of WRITE: keep-alive packets in `[7:0]`, bytes appended in `[31:16]` (R116). -/
def writeData (packets bytes : Nat) : BitVec 64 :=
  BitVec.ofNat 64 (packets % 2 ^ 8 + 2 ^ 16 * (bytes % 2 ^ 16))

/-- The frame of a WRITE: the source byte is `host_addr`, the payload is what is staged (R180). -/
def State.userFrame (s : State) (opc : Opcode) (p1 p2 dst : Byte) : Frame :=
  ⟨mkHeader opc p1 p2 dst s.hostAddr, s.txPayload⟩

/-- The keep-alive packet for address `a` (R182). -/
def keepAlivePacket (c : Config) (hostAddr a : Byte) : Frame :=
  ⟨mkHeader c.opKeepalive c.kaP1 c.kaP2 a hostAddr, []⟩

/-- The packets of a burst: one for each valid slot, in ascending slot index (R181). -/
def State.burstPackets (s : State) : List Frame :=
  ((s.slots.take s.cfg.nKa).filter KaSlot.valid).map fun k => keepAlivePacket s.cfg s.hostAddr k.addr

/-- `ka_burst()` (R181). -/
def State.kaBurst (s : State) : List Byte := s.burstPackets.flatMap Frame.bytes

/-- A WRITE bursts first when the counter exceeds the threshold (R180). -/
def State.burstDue (s : State) : Bool := decide (s.cfg.kaThresh < s.kaCount.toNat)

/-- The keep-alive bytes a WRITE issued now would send first: `kab` of R180. -/
def State.dueBurst (s : State) : List Byte := if s.burstDue then s.kaBurst else []

/-- Free space of `tx_q` (R42, R180). -/
def State.txFree (s : State) : Nat := s.cfg.txqDepth - s.txQ.length

/-- The opcode of name id `idx`, if the table has one (R161). -/
def lookupOpcode (c : Config) (idx : Nat) : Option Opcode := (c.cmdTable[idx]?).map TableEntry.opcode

/-- The block signals ready-to-receive (R202). -/
def State.readyToReceive (s : State) : Bool := s.linkOpen && decide (s.rxFifo.length < s.cfg.rxDepth)

/-- The match filter's first condition (R191, R192). -/
def State.isMatch (s : State) (f : Frame) : Bool :=
  f.hdr.opcode == s.expOpcode && (s.expAny || f.hdr.src == s.expSrc)

/-- The match filter's second condition: an unsolicited opcode, from a registered source, other than the expected one
unless any source is expected (R191, R193). -/
def State.isUnsolicited (s : State) (f : Frame) : Bool :=
  s.cfg.unsolSet.contains f.hdr.opcode && !(s.slotsHolding f.hdr.src).isEmpty && (s.expAny || f.hdr.src != s.expSrc)

end Sys2Proof.Machine
end

