-- ==== Sys2Proof/Machine/Flags.lean ====
section
/-! DEFINITION. The flags and the register views: the 13 axis-status flags (spec/40_codec.md R140 to R143), and the
read-only register map (spec/10_state.md R50 to R64). -/

namespace Sys2Proof.Machine

/-! ## Axis status -/

/-- The axis status: the record of 13 named flags, in the order of the flag indices (R140, R143). -/
structure AxisStatus where
  forwardLimit : Bool
  reverseLimit : Bool
  moveForward : Bool
  moveReverse : Bool
  jogForward : Bool
  jogReverse : Bool
  homing : Bool
  homed : Bool
  tracking : Bool
  settled : Bool
  motionError : Bool
  currentLimit : Bool
  enabled : Bool
  deriving DecidableEq, Repr

/-- The flags of a status word: each is one bit of it (R140, R141). -/
def axisStatus (b : StatusBits) (w : BitVec 32) : AxisStatus where
  forwardLimit := w.getLsbD b.forwardLimit
  reverseLimit := w.getLsbD b.reverseLimit
  moveForward := w.getLsbD b.moveForward
  moveReverse := w.getLsbD b.moveReverse
  jogForward := w.getLsbD b.jogForward
  jogReverse := w.getLsbD b.jogReverse
  homing := w.getLsbD b.homing
  homed := w.getLsbD b.homed
  tracking := w.getLsbD b.tracking
  settled := w.getLsbD b.settled
  motionError := w.getLsbD b.motionError
  currentLimit := w.getLsbD b.currentLimit
  enabled := w.getLsbD b.enabled

/-- The flags in the order of their indices. -/
def AxisStatus.toList (a : AxisStatus) : List Bool :=
  [a.forwardLimit, a.reverseLimit, a.moveForward, a.moveReverse, a.jogForward, a.jogReverse, a.homing, a.homed,
   a.tracking, a.settled, a.motionError, a.currentLimit, a.enabled]

/-- A list of bits as a number, the first the least significant. -/
def bitsToNat : List Bool → Nat
  | [] => 0
  | b :: rest => b.toNat + 2 * bitsToNat rest

/-- The 13 flags packed by flag index (R143). -/
def AxisStatus.pack (a : AxisStatus) : BitVec 13 := BitVec.ofNat 13 (bitsToNat a.toList)

/-- The status word of the slice at `off` of the held payload, little-endian (R141, R142). -/
def State.statusWord (s : State) (off : Nat) : BitVec 32 :=
  le32 (s.resByte off) (s.resByte (off + 1)) (s.resByte (off + 2)) (s.resByte (off + 3))

/-- `DATA` of DECODE_STATUS: the flags in `[12:0]`, the raw word in `[63:32]` (R116, R141). -/
def statusData (b : StatusBits) (w : BitVec 32) : BitVec 64 :=
  BitVec.ofNat 64 ((axisStatus b w).pack.toNat + 2 ^ 32 * w.toNat)

/-! ## The register map

A register is the sum of its fields, each at the weight of its least significant bit; what is not listed reads 0 (U6). -/

/-- A register of one field in its low bits. -/
def lowField {w : Nat} (v : BitVec w) : BitVec 32 := v.setWidth 32

/-- `STATUS` (R51). -/
def State.statusReg (s : State) : BitVec 32 :=
  BitVec.ofNat 32 (s.linkOpen.toNat + 2 * s.poisoned.toNat + 2 ^ 2 * s.fault.toNat + 2 ^ 3 * s.busy.toNat
    + 2 ^ 4 * s.resValid.toNat + 2 ^ 5 * (!s.txQ.isEmpty).toNat + 2 ^ 6 * (!s.rxFifo.isEmpty).toNat
    + 2 ^ 8 * s.lastErr.toNat)

/-- `RES_HDR_LO` (R57). -/
def State.resHdrLo (s : State) : BitVec 32 := le32 s.resHdr.opcLo s.resHdr.opcHi s.resHdr.p1 s.resHdr.p2

/-- `RES_HDR_HI` (R57). -/
def State.resHdrHi (s : State) : BitVec 32 :=
  BitVec.ofNat 32 (s.resHdr.dst.toNat + 2 ^ 8 * s.resHdr.src.toNat + 2 ^ 16 * s.resHasPayload.toNat)

/-- `EXP` (R59). -/
def State.expReg (s : State) : BitVec 32 :=
  BitVec.ofNat 32 (s.expOpcode.toNat + 2 ^ 16 * s.expSrc.toNat + 2 ^ 24 * s.expAny.toNat)

/-- `LAST_WARN` (R60). -/
def State.lastWarnReg (s : State) : BitVec 32 :=
  BitVec.ofNat 32 (s.lastWarnOpcode.toNat + 2 ^ 16 * s.lastWarnSrc.toNat)

/-- `LAST_ERR` (R62). -/
def State.lastErrReg (s : State) : BitVec 32 := BitVec.ofNat 32 (s.lastErr.toNat + 2 ^ 8 * s.lastErrCmd.toNat)

/-- `PARAMS` (R63). -/
def paramsReg (c : Config) : BitVec 32 :=
  BitVec.ofNat 32 (c.kaThresh % 2 ^ 8 + 2 ^ 8 * (c.nKa % 2 ^ 4) + 2 ^ 16 * (c.cmdTable.length % 2 ^ 16))

/-- `KA_SLOT[i]` (R64). -/
def State.kaSlotReg (s : State) (i : Nat) : BitVec 32 :=
  BitVec.ofNat 32 ((s.slot i).addr.toNat + 2 ^ 8 * (s.slot i).valid.toNat)

/-- Register `n` of the map, or none for an unimplemented number (R50). The two queue lengths are 16-bit fields
(R54, R55; log 13). -/
def State.regValue (s : State) (n : Byte) : Option (BitVec 32) :=
  if n = 0x00 then some s.statusReg
  else if n = 0x01 then some (lowField s.kaCount)
  else if n = 0x02 then some (lowField s.hostAddr)
  else if n = 0x03 then some (lowField (BitVec.ofNat 16 s.rxFifo.length))
  else if n = 0x04 then some (lowField (BitVec.ofNat 16 s.txQ.length))
  else if n = 0x05 then some (lowField s.txLen)
  else if n = 0x06 then some s.resHdrLo
  else if n = 0x07 then some s.resHdrHi
  else if n = 0x08 then some (lowField s.resLen)
  else if n = 0x09 then some s.expReg
  else if n = 0x0A then some (lowField s.warnCount)
  else if n = 0x0B then some s.lastWarnReg
  else if n = 0x0C then some (lowField s.evDone)
  else if n = 0x0D then some (lowField s.evHomed)
  else if n = 0x0E then some s.lastErrReg
  else if n = 0x0F then some (paramsReg s.cfg)
  else if n.toNat < 0x10 + s.cfg.nKa then some (s.kaSlotReg (n.toNat - 0x10))
  else none

end Sys2Proof.Machine
end

