-- ==== Sys2Proof/Machine/Ops.lean ====
section
/-! DEFINITION. The operations the meanings share: writing a payload buffer, responding, the common checks
(spec/60_exceptions.md R246), taking an error (R241 to R245: the block's only exception) and the way back from one
(R252: OPEN for a link error, the reset for a contract fault), the frame step (spec/42_transport.md R191 to R194), and
the wire agents (R200, R201). -/

namespace Sys2Proof.Machine

/-! ## Payload buffers -/

/-- Writes one byte, keeping the addresses rising (R80). -/
def Memory.write : Memory → Nat → Byte → Memory
  | [], i, v => [(i, v)]
  | (a, b) :: rest, i, v =>
    if i < a then (i, v) :: (a, b) :: rest
    else if i = a then (i, v) :: rest
    else (a, b) :: Memory.write rest i v

/-- Writes consecutive bytes from an address on (R134). -/
def Memory.writeAll : Memory → Nat → List Byte → Memory
  | mem, _, [] => mem
  | mem, i, v :: vs => Memory.writeAll (Memory.write mem i v) (i + 1) vs

/-- The canonical form: addresses strictly rising, inside the 255-byte space (R80). No entry can equal what an unlisted
address reads as, which is no fixed byte (log 9). -/
def Memory.wf (mem : Memory) : Bool :=
  decide ((mem.map Prod.fst).Pairwise (· < ·)) && mem.all fun c => decide (c.1 < maxPayload)

/-! ## Command codes (R114) -/

def cmdNop : Byte := 0x00
def cmdReset : Byte := 0x01
def cmdOpen : Byte := 0x02
def cmdClose : Byte := 0x03
def cmdKaSet : Byte := 0x04
def cmdKaClr : Byte := 0x05
def cmdLookup : Byte := 0x06
def cmdEncodeHeader : Byte := 0x07
def cmdTxbClear : Byte := 0x08
def cmdTxbPush : Byte := 0x09
def cmdWrite : Byte := 0x0A
def cmdRead : Byte := 0x0B
def cmdAbort : Byte := 0x0C
def cmdDecodeFrame : Byte := 0x0D
def cmdRxbGet : Byte := 0x0E
def cmdDecodeStatus : Byte := 0x0F
def cmdRegRead : Byte := 0x10
def cmdEvClear : Byte := 0x11
def cmdWarnClear : Byte := 0x12

/-! ## Errors and responses -/

/-- The 4-bit code of R240. -/
def ErrorCode.code : ErrorCode → BitVec 4
  | .ok => 0
  | .unknownCommand => 1
  | .invalidOpcode => 2
  | .malformedPacket => 3
  | .incompleteFrame => 4
  | .aborted => 5
  | .notOpen => 6
  | .poisoned => 7
  | .busy => 8
  | .illegalCommand => 9
  | .txLengthMismatch => 10
  | .badSlot => 11
  | .badIndex => 12
  | .txOverflow => 13
  | .faulted => 14

/-- The contract class (R240, R243). -/
def ErrorCode.isContract : ErrorCode → Bool
  | .unknownCommand | .invalidOpcode | .malformedPacket | .busy | .illegalCommand | .txLengthMismatch | .badSlot
  | .badIndex | .txOverflow => true
  | .ok | .incompleteFrame | .aborted | .notOpen | .poisoned | .faulted => false

/-- The link class (R240, R244). -/
def ErrorCode.isLink : ErrorCode → Bool
  | .incompleteFrame | .aborted => true
  | .ok | .unknownCommand | .invalidOpcode | .malformedPacket | .notOpen | .poisoned | .busy | .illegalCommand
  | .txLengthMismatch | .badSlot | .badIndex | .txOverflow | .faulted => false

/-- The errors that the error record keeps: every nonzero one but `FAULTED` (R44, R241). -/
def ErrorCode.recorded (e : ErrorCode) : Bool := e != .ok && e != .faulted

/-- Emits one response (R112). -/
def State.respond (s : State) (cmd : Byte) (err : ErrorCode) (data : BitVec 64) : State :=
  { s with responses := s.responses ++ [⟨cmd, err, data⟩] }

/-- Ends the command on the port: the next word of the stream becomes eligible (R31). -/
def State.endCommand (s : State) : State := { s with port := none }

/-- `respond(OK, data)` for the command on the port, which ends (R10, R31). -/
def State.finish (s : State) (cmd : Byte) (data : BitVec 64) : State :=
  (s.respond cmd .ok data).endCommand

/-- What an error records and its class effect (R241, R243 to R245): `last_err` and `last_err_cmd` unless the error is
`FAULTED`, `fault` for the contract class, `poisoned` for the link class. -/
def State.record (s : State) (cmd : Byte) (e : ErrorCode) : State :=
  { s with
    lastErr := if e.recorded then e.code else s.lastErr
    lastErrCmd := if e.recorded then cmd else s.lastErrCmd
    fault := s.fault || e.isContract
    poisoned := s.poisoned || e.isLink }

/-- `raise E`: taking an error. The command ends with it; nothing else is written (R241, R249, R251). -/
def State.raise (s : State) (cmd : Byte) (e : ErrorCode) : State :=
  ((s.record cmd e).respond cmd e 0).endCommand

/-- The common checks of R246, in order, on a word with code `cmd` that is legal or not. -/
def commonCheck (legal : Bool) (cmd : Byte) (s : State) : Option ErrorCode :=
  if s.fault && !(legal && (cmd == cmdReset || cmd == cmdRegRead)) then some .faulted
  else if s.busy && !(legal && (cmd == cmdReset || cmd == cmdRegRead || cmd == cmdAbort)) then some .busy
  else if !legal then some .illegalCommand
  else none

/-- A legal command: the common checks, then what the command does (R246). -/
def checked (cmd : Byte) (s : State) (body : Host.Outcome State Fault Refusal) : Host.Outcome State Fault Refusal :=
  match commonCheck true cmd s with
  | some e => .next (s.raise cmd e)
  | none => body

/-- A command that ends with an error. -/
def failWith (cmd : Byte) (s : State) (e : ErrorCode) : Host.Outcome State Fault Refusal := .next (s.raise cmd e)

/-- A command that ends with `OK`. -/
def succeed (cmd : Byte) (s : State) (data : BitVec 64) : Host.Outcome State Fault Refusal := .next (s.finish cmd data)

/-- `hold`: the step is not enabled; the command stays pending and nothing changes (R10, R184). -/
def hold (s : State) : Host.Outcome State Fault Refusal := .next s

/-- The error an illegal word raises: `FAULTED`, `BUSY` or `ILLEGAL_COMMAND` (R115, R246). -/
def illegalError (cmd : Byte) (s : State) : ErrorCode := (commonCheck false cmd s).getD .illegalCommand

/-- What an illegal word with code `cmd` does (R115). -/
def illegalWord (cmd : Byte) (s : State) : Host.Outcome State Fault Refusal := failWith cmd s (illegalError cmd s)

/-! ## Reset -/

/-- `apply_reset()` of R270. The payload buffers hold unspecified bytes afterwards: nothing is listed in them, and the
free values are those of a new epoch (log 9). The parameters, the histories, the port and the schedule are kept. -/
def State.applyReset (s : State) : State :=
  { State.powerOn s.cfg with
    port := s.port
    responses := s.responses
    line := s.line
    opens := s.opens
    schedule := s.schedule
    draws := s.draws
    epoch := s.epoch + 1 }

/-- The reset input (R271): pending commands are abandoned with no response. -/
def State.resetInput (s : State) : State := s.applyReset.endCommand

/-! ## Frames -/

/-- `load_result(f)` of R134. -/
def State.loadResult (s : State) (f : Frame) : State :=
  { s with
    resHdr := f.hdr
    resHasPayload := f.hdr.hasPayload
    resLen := f.hdr.payLen
    resPay := Memory.writeAll s.resPay 0 (f.pay.take f.hdr.payLen.toNat)
    resValid := true }

/-- Removes a frame's bytes from the head of the receive FIFO (R132). -/
def State.popFrame (s : State) (f : Frame) : State :=
  { s with rxFifo := s.rxFifo.drop f.bytes.length }

/-- Case (a): the READ ends with the frame (R192). -/
def State.frameMatch (s : State) (f : Frame) : State :=
  { (s.loadResult f).respond cmdRead .ok (frameData f.hdr) with busy := false }

/-- Case (b): an unsolicited notification sets the event bits of its slots (R193). -/
def State.frameEvent (s : State) (f : Frame) : State :=
  { s with
    evDone := if f.hdr.opcode = s.cfg.opMoveCompleted then s.evDone ||| bitsOf (s.slotsHolding f.hdr.src) else s.evDone
    evHomed := if f.hdr.opcode = s.cfg.opMoveHomed then s.evHomed ||| bitsOf (s.slotsHolding f.hdr.src) else s.evHomed }

/-- `min(warn_count + 1, 0xFFFF)` of R194. -/
def warnNext (n : BitVec 16) : BitVec 16 := if n = 0xFFFF then n else n + 1

/-- Case (c): an anomaly is recorded (R194). -/
def State.frameWarn (s : State) (f : Frame) : State :=
  { s with
    warnCount := warnNext s.warnCount
    lastWarnOpcode := f.hdr.opcode
    lastWarnSrc := f.hdr.src }

/-- The READ frame step on the frame at the head of the FIFO (R191): it is enabled while a READ is pending, removes the
frame, and classifies it. With no READ pending the frame stays where it is (R285). -/
def readFrame (f : Frame) (s : State) : Host.Outcome State Fault Refusal :=
  if s.busy then
    if s.isMatch f then .next ((s.popFrame f).frameMatch f)
    else if s.isUnsolicited f then .next ((s.popFrame f).frameEvent f)
    else .next ((s.popFrame f).frameWarn f)
  else hold s

/-! ## Transport -/

/-- Re-establishment (R171). -/
def State.openLink (s : State) (b : Byte) : State :=
  { s with
    linkOpen := true
    poisoned := false
    kaCount := 0
    hostAddr := b
    rxFifo := []
    txQ := []
    opens := s.opens ++ [s.line.length] }

/-- The end of the link (R172). -/
def State.closeLink (s : State) : State := { s with linkOpen := false, rxFifo := [], txQ := [] }

/-- The counter after a successful WRITE: a burst resets it first (R180). -/
def kaNext (burst : Bool) (n : BitVec 8) : BitVec 8 := if burst then 1 else n + 1

/-- The bytes a WRITE of frame `f` appends: the burst, if one is due, then the frame (R180). -/
def State.writeBytes (s : State) (f : Frame) : List Byte := s.dueBurst ++ f.bytes

/-- What a WRITE that fits does to the state (R180). -/
def State.enqueue (s : State) (f : Frame) : State :=
  { s with
    txQ := s.txQ ++ s.writeBytes f
    kaCount := kaNext s.burstDue s.kaCount
    txLen := 0 }

/-- Accepting a READ: the match registers and `busy`; no response yet (R190). -/
def State.acceptRead (s : State) (eopc : Opcode) (esrc : Byte) (any : Bool) : State :=
  { s with expOpcode := eopc, expSrc := esrc, expAny := any, busy := true }

/-- The error ABORT ends a pending READ with (R195). -/
def State.abortError (s : State) : ErrorCode := if s.rxFifo.isEmpty then .aborted else .incompleteFrame

/-- ABORT's effect on a pending READ: the READ ends with a link error, its response first (R195, R244). -/
def State.abortRead (s : State) : State :=
  { (s.record cmdRead s.abortError).respond cmdRead s.abortError 0 with busy := false }

/-- RESET's first act: a pending READ ends with `ABORTED` (R220). -/
def State.dropRead (s : State) : State := if s.busy then s.respond cmdRead .aborted 0 else s

/-- Wire-RX (R200): enabled while the block signals ready-to-receive. -/
def State.wireRx (s : State) (b : Byte) : State :=
  if s.readyToReceive then { s with rxFifo := s.rxFifo ++ [b] } else s

/-- Wire-TX (R201): enabled while the queue holds a byte and the remote signals clear-to-send. -/
def State.wireTx (s : State) (clearToSend : Bool) : State :=
  match s.txQ with
  | [] => s
  | b :: rest => if clearToSend then { s with line := s.line ++ [b], txQ := rest } else s

/-- The host issues a word when the port is free (R110, R184). -/
def State.hostIssue (s : State) (w : CmdWord) : State :=
  match s.port with
  | none => { s with port := some w }
  | some _ => s

end Sys2Proof.Machine
end

