-- ==== Sys2Proof/Machine/Codec.lean ====
section
/-! DEFINITION. The packet codec's commands (spec/40_codec.md). -/

namespace Sys2Proof.Machine

/-- `ENCODE_HEADER OPC, P1, P2, DST` (R131). -/
def execEncodeHeader (opc : Opcode) (p1 p2 dst : Byte) (s : State) : Host.Outcome State Fault Refusal :=
  checked cmdEncodeHeader s <|
    if s.cfg.opcodeValid opc then succeed cmdEncodeHeader s (headerLe48 (mkHeader opc p1 p2 dst s.hostAddr))
    else failWith cmdEncodeHeader s .invalidOpcode

/-- `DECODE_FRAME` (R133): all or nothing on the frame at the head of the FIFO. -/
def execDecodeFrame (s : State) : Host.Outcome State Fault Refusal :=
  checked cmdDecodeFrame s <|
    if !s.linkOpen then failWith cmdDecodeFrame s .notOpen
    else if s.poisoned then failWith cmdDecodeFrame s .poisoned
    else if !hdrReady s.rxFifo then failWith cmdDecodeFrame s .incompleteFrame
    else if !complete s.rxFifo then failWith cmdDecodeFrame s .incompleteFrame
    else
      let f := frameOf s.rxFifo
      succeed cmdDecodeFrame ((s.popFrame f).loadResult f) (frameData f.hdr)

/-- `DECODE_STATUS OFF, LEN` (R141); `OFF + 4` does not wrap. -/
def execDecodeStatus (off len : Byte) (s : State) : Host.Outcome State Fault Refusal :=
  checked cmdDecodeStatus s <|
    if len.toNat ≠ statusLen then failWith cmdDecodeStatus s .malformedPacket
    else if !s.resValid || decide (s.resLen.toNat < off.toNat + statusLen) then
      failWith cmdDecodeStatus s .malformedPacket
    else succeed cmdDecodeStatus s (statusData s.cfg.statusBits (s.statusWord off.toNat))

end Sys2Proof.Machine
end

