-- ==== Sys2Proof/Machine/CommandTable.lean ====
section
/-! DEFINITION. The command table's lookup (spec/41_command_table.md). -/

namespace Sys2Proof.Machine

/-- `LOOKUP IDX` (R161): fails closed. -/
def execLookup (idx : BitVec 16) (s : State) : Host.Outcome State Fault Refusal :=
  checked cmdLookup s <|
    match lookupOpcode s.cfg idx.toNat with
    | none => failWith cmdLookup s .unknownCommand
    | some opc => succeed cmdLookup s (opc.setWidth 64)

end Sys2Proof.Machine
end

