-- ==== Sys2Proof/Machine/HostInterface.lean ====
section
/-! DEFINITION. The host-interface commands (spec/43_host_interface.md), and the reserved command codes
(spec/30_encoding.md R115). -/

namespace Sys2Proof.Machine

/-- `NOP` (R211). -/
def execNop (s : State) : Host.Outcome State Fault Refusal :=
  checked cmdNop s <| succeed cmdNop s 0

/-- `RESET` (R220): a pending READ ends with `ABORTED`, then every field takes its reset value. -/
def execReset (s : State) : Host.Outcome State Fault Refusal :=
  checked cmdReset s <| succeed cmdReset s.dropRead.applyReset 0

/-- `KA_SET SLOT, ADDR` (R212). -/
def execKaSet (slot addr : Byte) (s : State) : Host.Outcome State Fault Refusal :=
  checked cmdKaSet s <|
    if s.cfg.nKa ≤ slot.toNat then failWith cmdKaSet s .badSlot
    else if addr.getLsbD payloadBit then failWith cmdKaSet s .illegalCommand
    else succeed cmdKaSet { s with slots := s.slots.set slot.toNat ⟨true, addr⟩ } 0

/-- `KA_CLR SLOT` (R213). -/
def execKaClr (slot : Byte) (s : State) : Host.Outcome State Fault Refusal :=
  checked cmdKaClr s <|
    if s.cfg.nKa ≤ slot.toNat then failWith cmdKaClr s .badSlot
    else succeed cmdKaClr { s with slots := s.slots.set slot.toNat ⟨false, 0x00⟩ } 0

/-- `TXB_PUSH B` (R214). -/
def execTxbPush (b : Byte) (s : State) : Host.Outcome State Fault Refusal :=
  checked cmdTxbPush s <|
    if s.txLen.toNat = maxPayload then failWith cmdTxbPush s .txOverflow
    else succeed cmdTxbPush { s with txPay := Memory.write s.txPay s.txLen.toNat b, txLen := s.txLen + 1 } 0

/-- `TXB_CLEAR` (R215). -/
def execTxbClear (s : State) : Host.Outcome State Fault Refusal :=
  checked cmdTxbClear s <| succeed cmdTxbClear { s with txLen := 0 } 0

/-- `RXB_GET IDX` (R216). -/
def execRxbGet (idx : BitVec 16) (s : State) : Host.Outcome State Fault Refusal :=
  checked cmdRxbGet s <|
    if !s.resValid || decide (s.resLen.toNat ≤ idx.toNat) then failWith cmdRxbGet s .badIndex
    else succeed cmdRxbGet s ((s.resByte idx.toNat).setWidth 64)

/-- `REG_READ B` (R217): works after a contract fault and while a READ is pending. -/
def execRegRead (b : Byte) (s : State) : Host.Outcome State Fault Refusal :=
  checked cmdRegRead s <|
    match s.regValue b with
    | none => failWith cmdRegRead s .illegalCommand
    | some v => succeed cmdRegRead s (v.setWidth 64)

/-- `EV_CLEAR SEL, MASK` (R218). -/
def execEvClear (sel : BitVec 2) (mask : Byte) (s : State) : Host.Outcome State Fault Refusal :=
  checked cmdEvClear s <|
    if sel = 0 then failWith cmdEvClear s .illegalCommand
    else
      succeed cmdEvClear
        { s with
          evDone := if sel.getLsbD 0 then s.evDone &&& ~~~mask else s.evDone
          evHomed := if sel.getLsbD 1 then s.evHomed &&& ~~~mask else s.evHomed } 0

/-- `WARN_CLEAR` (R219). -/
def execWarnClear (s : State) : Host.Outcome State Fault Refusal :=
  checked cmdWarnClear s <| succeed cmdWarnClear { s with warnCount := 0, lastWarnOpcode := 0, lastWarnSrc := 0 } 0

/-- A reserved command code (R115): `ILLEGAL_COMMAND`, after the `fault` and `busy` checks. The operand bits are not
read. -/
def execReservedCmd (code : Byte) (_operands : BitVec 40) (s : State) : Host.Outcome State Fault Refusal :=
  illegalWord code s

end Sys2Proof.Machine
end

