-- ==== Sys2Proof/Machine/Transport.lean ====
section
/-! DEFINITION. The link transport's commands (spec/42_transport.md). -/

namespace Sys2Proof.Machine

/-- `OPEN B` (R171). -/
def execOpen (b : Byte) (s : State) : Host.Outcome State Fault Refusal :=
  checked cmdOpen s <| succeed cmdOpen (s.openLink b) 0

/-- `CLOSE` (R172). -/
def execClose (s : State) : Host.Outcome State Fault Refusal :=
  checked cmdClose s <| succeed cmdClose s.closeLink 0

/-- `WRITE OPC, P1, P2, DST` (R180): every check first, then the burst if one is due, then the frame. It holds while
the bytes do not fit (R184). -/
def execWrite (opc : Opcode) (p1 p2 dst : Byte) (s : State) : Host.Outcome State Fault Refusal :=
  checked cmdWrite s <|
    if !s.linkOpen then failWith cmdWrite s .notOpen
    else if s.poisoned then failWith cmdWrite s .poisoned
    else if !s.cfg.opcodeValid opc then failWith cmdWrite s .invalidOpcode
    else if dst.getLsbD payloadBit && s.txLen != p1 then failWith cmdWrite s .txLengthMismatch
    else if !dst.getLsbD payloadBit && s.txLen != 0 then failWith cmdWrite s .txLengthMismatch
    else
      let f := s.userFrame opc p1 p2 dst
      let need := (s.writeBytes f).length
      if s.txFree < need then hold s
      else succeed cmdWrite (s.enqueue f) (writeData (s.dueBurst.length / hdrLen) need)

/-- `READ EOPC, ESRC, ANY` (R190): accepted, it leaves the port and stays pending, with no response yet. -/
def execRead (eopc : Opcode) (esrc : Byte) (any : Bool) (s : State) : Host.Outcome State Fault Refusal :=
  checked cmdRead s <|
    if !s.linkOpen then failWith cmdRead s .notOpen
    else if s.poisoned then failWith cmdRead s .poisoned
    else .next (s.acceptRead eopc esrc any).endCommand

/-- `ABORT` (R195): the external timeout of a pending READ; with none pending, no effect. -/
def execAbort (s : State) : Host.Outcome State Fault Refusal :=
  checked cmdAbort s <|
    if s.busy then succeed cmdAbort s.abortRead 0 else succeed cmdAbort s 0

end Sys2Proof.Machine
end

