-- ==== Sys2Proof/Machine/WireFrames.lean ====
section
/-! DEFINITION. Wire frames as instructions (log 3): what the core does with the frame when it stands at the head of the
receive FIFO and a READ is pending, the READ frame step of spec/42_transport.md R191. The match filter reads the
frame's opcode and source alone, so that a message ID (spec/41_command_table.md R160) acts through its opcode. -/

namespace Sys2Proof.Machine

/-- A short frame (R103). -/
def execFrameShort (opc : Opcode) (p1 p2 dst src : Byte) (s : State) : Host.Outcome State Fault Refusal :=
  readFrame ⟨mkHeader opc p1 p2 dst src, []⟩ s

/-- A long frame (R103, R104). -/
def execFrameLong (opc : Opcode) (p1 p2 dst src : Byte) (pay : List Byte) (s : State) :
    Host.Outcome State Fault Refusal :=
  readFrame ⟨mkHeader opc p1 p2 dst src, pay⟩ s

/-- A `MOVE_ABSOLUTE` frame (R160). -/
def execMoveAbsolute (p1 p2 dst src : Byte) (pay : List Byte) (s : State) : Host.Outcome State Fault Refusal :=
  readFrame (messageFrame .moveAbsolute p1 p2 dst src pay) s

/-- A `MOVE_HOME` frame (R160). -/
def execMoveHome (p1 p2 dst src : Byte) (pay : List Byte) (s : State) : Host.Outcome State Fault Refusal :=
  readFrame (messageFrame .moveHome p1 p2 dst src pay) s

/-- A `MOVE_COMPLETED` frame (R160). -/
def execMoveCompleted (p1 p2 dst src : Byte) (pay : List Byte) (s : State) : Host.Outcome State Fault Refusal :=
  readFrame (messageFrame .moveCompleted p1 p2 dst src pay) s

/-- A `GET_STATUS` frame (R160). -/
def execGetStatus (p1 p2 dst src : Byte) (pay : List Byte) (s : State) : Host.Outcome State Fault Refusal :=
  readFrame (messageFrame .getStatus p1 p2 dst src pay) s

/-- A `SET_VEL_PARAMS` frame (R160). -/
def execSetVelParams (p1 p2 dst src : Byte) (pay : List Byte) (s : State) : Host.Outcome State Fault Refusal :=
  readFrame (messageFrame .setVelParams p1 p2 dst src pay) s

/-- A `REQ_STATUS` frame (R160). -/
def execReqStatus (p1 p2 dst src : Byte) (pay : List Byte) (s : State) : Host.Outcome State Fault Refusal :=
  readFrame (messageFrame .reqStatus p1 p2 dst src pay) s

/-- A `ACK_STATUS` frame (R160). -/
def execAckStatus (p1 p2 dst src : Byte) (pay : List Byte) (s : State) : Host.Outcome State Fault Refusal :=
  readFrame (messageFrame .ackStatus p1 p2 dst src pay) s

/-- A `MOVE_HOMED` frame (R160). -/
def execMoveHomed (p1 p2 dst src : Byte) (pay : List Byte) (s : State) : Host.Outcome State Fault Refusal :=
  readFrame (messageFrame .moveHomed p1 p2 dst src pay) s

/-- A `REQ_ENC_COUNTER` frame (R160). -/
def execReqEncCounter (p1 p2 dst src : Byte) (pay : List Byte) (s : State) : Host.Outcome State Fault Refusal :=
  readFrame (messageFrame .reqEncCounter p1 p2 dst src pay) s

/-- A `GET_ENC_COUNTER` frame (R160). -/
def execGetEncCounter (p1 p2 dst src : Byte) (pay : List Byte) (s : State) : Host.Outcome State Fault Refusal :=
  readFrame (messageFrame .getEncCounter p1 p2 dst src pay) s

/-- A `REQ_VEL_PARAMS` frame (R160). -/
def execReqVelParams (p1 p2 dst src : Byte) (pay : List Byte) (s : State) : Host.Outcome State Fault Refusal :=
  readFrame (messageFrame .reqVelParams p1 p2 dst src pay) s

/-- A `GET_VEL_PARAMS` frame (R160). -/
def execGetVelParams (p1 p2 dst src : Byte) (pay : List Byte) (s : State) : Host.Outcome State Fault Refusal :=
  readFrame (messageFrame .getVelParams p1 p2 dst src pay) s

/-- A `SET_CHAN_ENABLE` frame (R160). -/
def execSetChanEnable (p1 p2 dst src : Byte) (pay : List Byte) (s : State) : Host.Outcome State Fault Refusal :=
  readFrame (messageFrame .setChanEnable p1 p2 dst src pay) s

/-- A `REQ_CHAN_ENABLE` frame (R160). -/
def execReqChanEnable (p1 p2 dst src : Byte) (pay : List Byte) (s : State) : Host.Outcome State Fault Refusal :=
  readFrame (messageFrame .reqChanEnable p1 p2 dst src pay) s

/-- A `GET_CHAN_ENABLE` frame (R160). -/
def execGetChanEnable (p1 p2 dst src : Byte) (pay : List Byte) (s : State) : Host.Outcome State Fault Refusal :=
  readFrame (messageFrame .getChanEnable p1 p2 dst src pay) s

end Sys2Proof.Machine
end

