-- ==== Sys2Proof/Machine/Dispatch.lean ====
section
/-! DEFINITION. One arm for each instruction: one direct call of its meaning. -/

namespace Sys2Proof.Machine

def exec (i : Instr) (s : State) : Host.Outcome State Fault Refusal :=
  match i with
  | .nop => Sys2Proof.Machine.execNop s
  | .reset => Sys2Proof.Machine.execReset s
  | .openLink b => Sys2Proof.Machine.execOpen b s
  | .closeLink => Sys2Proof.Machine.execClose s
  | .kaSet slot addr => Sys2Proof.Machine.execKaSet slot addr s
  | .kaClr slot => Sys2Proof.Machine.execKaClr slot s
  | .lookup idx => Sys2Proof.Machine.execLookup idx s
  | .encodeHeader opc p1 p2 dst => Sys2Proof.Machine.execEncodeHeader opc p1 p2 dst s
  | .txbClear => Sys2Proof.Machine.execTxbClear s
  | .txbPush b => Sys2Proof.Machine.execTxbPush b s
  | .write opc p1 p2 dst => Sys2Proof.Machine.execWrite opc p1 p2 dst s
  | .read eopc esrc any => Sys2Proof.Machine.execRead eopc esrc any s
  | .abort => Sys2Proof.Machine.execAbort s
  | .decodeFrame => Sys2Proof.Machine.execDecodeFrame s
  | .rxbGet idx => Sys2Proof.Machine.execRxbGet idx s
  | .decodeStatus off len => Sys2Proof.Machine.execDecodeStatus off len s
  | .regRead b => Sys2Proof.Machine.execRegRead b s
  | .evClear sel mask => Sys2Proof.Machine.execEvClear sel mask s
  | .warnClear => Sys2Proof.Machine.execWarnClear s
  | .reservedCmd code operands => Sys2Proof.Machine.execReservedCmd code operands s
  | .frameShort opc p1 p2 dst src => Sys2Proof.Machine.execFrameShort opc p1 p2 dst src s
  | .frameLong opc p1 p2 dst src pay => Sys2Proof.Machine.execFrameLong opc p1 p2 dst src pay s
  | .moveAbsolute p1 p2 dst src pay => Sys2Proof.Machine.execMoveAbsolute p1 p2 dst src pay s
  | .moveHome p1 p2 dst src pay => Sys2Proof.Machine.execMoveHome p1 p2 dst src pay s
  | .moveCompleted p1 p2 dst src pay => Sys2Proof.Machine.execMoveCompleted p1 p2 dst src pay s
  | .getStatus p1 p2 dst src pay => Sys2Proof.Machine.execGetStatus p1 p2 dst src pay s
  | .setVelParams p1 p2 dst src pay => Sys2Proof.Machine.execSetVelParams p1 p2 dst src pay s
  | .reqStatus p1 p2 dst src pay => Sys2Proof.Machine.execReqStatus p1 p2 dst src pay s
  | .ackStatus p1 p2 dst src pay => Sys2Proof.Machine.execAckStatus p1 p2 dst src pay s
  | .moveHomed p1 p2 dst src pay => Sys2Proof.Machine.execMoveHomed p1 p2 dst src pay s
  | .reqEncCounter p1 p2 dst src pay => Sys2Proof.Machine.execReqEncCounter p1 p2 dst src pay s
  | .getEncCounter p1 p2 dst src pay => Sys2Proof.Machine.execGetEncCounter p1 p2 dst src pay s
  | .reqVelParams p1 p2 dst src pay => Sys2Proof.Machine.execReqVelParams p1 p2 dst src pay s
  | .getVelParams p1 p2 dst src pay => Sys2Proof.Machine.execGetVelParams p1 p2 dst src pay s
  | .setChanEnable p1 p2 dst src pay => Sys2Proof.Machine.execSetChanEnable p1 p2 dst src pay s
  | .reqChanEnable p1 p2 dst src pay => Sys2Proof.Machine.execReqChanEnable p1 p2 dst src pay s
  | .getChanEnable p1 p2 dst src pay => Sys2Proof.Machine.execGetChanEnable p1 p2 dst src pay s

end Sys2Proof.Machine
end

