-- ==== Sys2Proof/Machine/Agents.lean ====
section
/-! DEFINITION. One step of each agent (spec/00_scope.md R11), and what the host's view of the opcode table stores
where the core takes its next instruction from. -/

namespace Sys2Proof.Machine

/-- The core executes the word on the port (R12): the decoded instruction, or the error an illegal word raises
(R115; log 6). With no word there, nothing. -/
def coreCommand (s : State) : Host.Outcome State Fault Refusal :=
  match s.port with
  | none => hold s
  | some w =>
    match decodeCommand w with
    | .ok i => exec i s
    | .error _ => illegalWord (cmdOf w) s

/-- The core takes a READ frame step (R191): enabled while a READ is pending and a complete frame stands at the head of
the FIFO; it executes the instruction that frame decodes to. -/
def coreFrame (s : State) : Host.Outcome State Fault Refusal :=
  if s.busy then
    match decodeFrame s.rxFifo with
    | .ok (i, _) => exec i s
    | .error _ => hold s
  else hold s

/-- The agent an event names takes its step (R11). -/
def agentStep (e : Event) (s : State) : Host.Outcome State Fault Refusal :=
  match e with
  | .hostIssue w => .next (s.hostIssue w)
  | .coreCommand => coreCommand s
  | .coreFrame => coreFrame s
  | .wireRx b => .next (s.wireRx b)
  | .wireTx clearToSend => .next (s.wireTx clearToSend)
  | .resetInput => .next s.resetInput

/-- The next event: the head of the listed schedule, or a draw from the free environment (R11; log 1). -/
def State.nextEvent (s : State) : Event :=
  match s.schedule with
  | e :: _ => e
  | [] => Config.environment s.draws

/-- The state with that event taken off the schedule, or the draw counted. -/
def State.tick (s : State) : State :=
  match s.schedule with
  | _ :: rest => { s with schedule := rest }
  | [] => { s with draws := s.draws + 1 }

/-- The word on the port, and the core's turn to execute it. -/
def State.placeCommand (s : State) (w : CmdWord) : State :=
  { s with port := some w, schedule := .coreCommand :: s.schedule }

/-- The frame's bytes in the FIFO of a pending READ, and the core's turn to take a frame step. -/
def State.placeFrame (s : State) (bytes : List Byte) : State :=
  { s with rxFifo := bytes, busy := true, schedule := .coreFrame :: s.schedule }

end Sys2Proof.Machine
end

