-- ==== Sys2Proof/Machine/Step.lean ====
section
/-! DEFINITION. One step of the machine: the next event's agent takes its step (spec/00_scope.md R11, R12). A
configuration that breaks a constraint of R8 is refused. -/

namespace Sys2Proof.Machine

/-- One step. -/
def step (s : State) : Host.Outcome State Fault Refusal :=
  if s.cfg.Valid then agentStep s.nextEvent s.tick else .refused .badConfig

/-- `s` with a row's word where the core takes its next instruction from, and the core's turn next: a command word on
the command port, a wire frame in the receive FIFO of a pending READ (logs 2, 4). -/
def State.withFetchWord (s : State) (nbits w : Nat) : State :=
  match tableEncoded nbits w with
  | .command word => s.placeCommand word
  | .frame bytes => s.placeFrame bytes

end Sys2Proof.Machine
end

