-- ==== Sys2Proof/Machine/Pseudo.lean ====
section
/-! DEFINITION. The pseudo-instructions of the assembler (spec/30_encoding.md R118): each expands to command words. -/

namespace Sys2Proof.Machine

/-- The pseudo-instructions of R118. -/
inductive Pseudo where
  | txbLoad (bytes : List Byte)
  | put32 (v : BitVec 32)
  | put16 (v : BitVec 16)
  | send (opc : Opcode) (p1 p2 dst : Byte)
  | sendLong (opc : Opcode) (base : Byte) (bytes : List Byte)
  | transact (opc : Opcode) (p1 p2 dst : Byte) (eopc : Opcode) (esrc : Byte)
  deriving DecidableEq, Repr

/-- `TXB_LOAD` (R118). -/
def expandLoad (bytes : List Byte) : List Instr := .txbClear :: bytes.map .txbPush

/-- The expansion of a pseudo-instruction (R118). -/
def Pseudo.expand : Pseudo → List Instr
  | .txbLoad bytes => expandLoad bytes
  | .put32 v =>
    [.txbPush (v.extractLsb' 0 8), .txbPush (v.extractLsb' 8 8), .txbPush (v.extractLsb' 16 8),
     .txbPush (v.extractLsb' 24 8)]
  | .put16 v => [.txbPush (v.extractLsb' 0 8), .txbPush (v.extractLsb' 8 8)]
  | .send opc p1 p2 dst => [.txbClear, .write opc p1 p2 dst]
  | .sendLong opc base bytes =>
    expandLoad bytes ++ [.write opc (BitVec.ofNat 8 bytes.length) 0x00 (replyAddr base)]
  | .transact opc p1 p2 dst eopc esrc => [.write opc p1 p2 dst, .read eopc esrc false]

/-- Which lines the assembler takes. R118 asks one thing, that the destination of `SEND` is short (`dst[7]` = 0). A
`TXB_LOAD` of any length is taken, its expansion as R118 gives it: of more than 255 bytes, the push of the 256th raises
`TX_OVERFLOW` when it runs (R214). The two conditions on `SEND_LONG` are the model's, for R118 states none: at most 255
bytes, because the count has to fit the byte `P1` (R113), and a base address below 0x80 (R106). DESIGN CHOICE, log 21. -/
def Pseudo.legal : Pseudo → Bool
  | .txbLoad _ => true
  | .put32 _ => true
  | .put16 _ => true
  | .send _ _ _ dst => !dst.getLsbD payloadBit
  | .sendLong _ base bytes => decide (bytes.length ≤ maxPayload) && !base.getLsbD payloadBit
  | .transact _ _ _ _ _ _ => true

end Sys2Proof.Machine
end

