-- ==== Sys2Proof/Safety.lean ====
section
/-! DEFINITION. What claims about runs speak of: the invariant of the reachable states, runs with their counts of
writes and bursts (spec/42_transport.md R183), and the remote's permission to fall silent (spec/60_exceptions.md
R262). -/

namespace Sys2Proof.Machine

/-! ## The invariant -/

/-- The 4-bit codes of the contract class (R240, R243). -/
def isContractCode (n : BitVec 4) : Bool :=
  n == 1 || n == 2 || n == 3 || n == 8 || n == 9 || n == 10 || n == 11 || n == 12 || n == 13

/-- What holds of every state the machine can reach under a valid configuration. -/
structure State.Invariant (s : State) : Prop where
  /-- R8 -/
  cfgValid : s.cfg.Valid
  /-- R35, R183 item 1 -/
  kaBound : s.kaCount.toNat ≤ s.cfg.kaThresh + 1
  /-- R37 -/
  slotCount : s.slots.length = s.cfg.nKa
  /-- R37: a slot address is a base address -/
  slotBase : ∀ k ∈ s.slots, k.addr.getLsbD 7 = false
  /-- R213, R270: an invalid slot reads 0 -/
  slotEmpty : ∀ k ∈ s.slots, k.valid = false → k.addr = 0x00
  /-- R41 -/
  rxBound : s.rxFifo.length ≤ s.cfg.rxDepth
  /-- R42 -/
  txBound : s.txQ.length ≤ s.cfg.txqDepth
  /-- R172: a closed link has empty queues -/
  closedEmpty : s.linkOpen = false → s.rxFifo = [] ∧ s.txQ = []
  /-- R31, R190: a READ is pending on an open, unpoisoned link only -/
  busyOpen : s.busy = true → s.linkOpen = true ∧ s.poisoned = false
  /-- R39 -/
  resFlag : s.resHasPayload = s.resHdr.hasPayload
  /-- R39 -/
  resLength : s.resLen = s.resHdr.payLen
  /-- R39: no frame held, all zero -/
  resEmpty : s.resValid = false → s.resHdr = ⟨0, 0, 0, 0, 0, 0⟩
  /-- R80 -/
  resPayWf : Memory.wf s.resPay = true
  /-- R80 -/
  txPayWf : Memory.wf s.txPay = true
  /-- U1: every readable byte of the held payload was written -/
  resWritten : ∀ i < s.resLen.toNat, (Memory.read s.resPay i).isSome
  /-- U2: every byte of the staged payload was written -/
  txWritten : ∀ i < s.txLen.toNat, (Memory.read s.txPay i).isSome
  /-- R44, R240: neither `FAULTED` nor the reserved code is recorded -/
  errRange : s.lastErr.toNat ≤ 13
  /-- R44, R243: a contract fault is pending exactly while the record holds a contract error -/
  faultCause : s.fault = isContractCode s.lastErr
  /-- R44, R244: a poisoned link has an error on record -/
  poisonCause : s.poisoned = true → s.lastErr ≠ 0
  /-- R45 -/
  evDoneRange : ∀ i, s.cfg.nKa ≤ i → s.evDone.getLsbD i = false
  /-- R45 -/
  evHomedRange : ∀ i, s.cfg.nKa ≤ i → s.evHomed.getLsbD i = false
  /-- R43, R194, R219 -/
  warnEmpty : s.warnCount = 0 → s.lastWarnOpcode = 0 ∧ s.lastWarnSrc = 0
  /-- The openings stand in order on the line (log 15) -/
  opensRise : (s.opens ++ [s.line.length]).Pairwise (· ≤ ·)

/-! ## Responses -/

/-- The command code of a command word's instruction (R114); none for a wire frame. -/
def commandCode : Instr → Option Byte
  | .nop => some 0x00
  | .reset => some 0x01
  | .openLink _ => some 0x02
  | .closeLink => some 0x03
  | .kaSet _ _ => some 0x04
  | .kaClr _ => some 0x05
  | .lookup _ => some 0x06
  | .encodeHeader _ _ _ _ => some 0x07
  | .txbClear => some 0x08
  | .txbPush _ => some 0x09
  | .write _ _ _ _ => some 0x0A
  | .read _ _ _ => some 0x0B
  | .abort => some 0x0C
  | .decodeFrame => some 0x0D
  | .rxbGet _ => some 0x0E
  | .decodeStatus _ _ => some 0x0F
  | .regRead _ => some 0x10
  | .evClear _ _ => some 0x11
  | .warnClear => some 0x12
  | .reservedCmd code _ => some code
  | .frameShort _ _ _ _ _ | .frameLong _ _ _ _ _ _ | .moveAbsolute _ _ _ _ _ | .moveHome _ _ _ _ _
  | .moveCompleted _ _ _ _ _ | .getStatus _ _ _ _ _ | .setVelParams _ _ _ _ _ | .reqStatus _ _ _ _ _
  | .ackStatus _ _ _ _ _ | .moveHomed _ _ _ _ _ | .reqEncCounter _ _ _ _ _ | .getEncCounter _ _ _ _ _
  | .reqVelParams _ _ _ _ _ | .getVelParams _ _ _ _ _ | .setChanEnable _ _ _ _ _ | .reqChanEnable _ _ _ _ _
  | .getChanEnable _ _ _ _ _ => none

/-- No contract fault and no READ pending: the block takes every command (R246). -/
def State.Idle (s : State) : Prop := s.fault = false ∧ s.busy = false

/-- The command on the port is answered and the port is free; nothing else changes (R31, R112). -/
def State.answered (s : State) (cmd : Byte) (err : ErrorCode) (data : BitVec 64) : State :=
  { s with port := none, responses := s.responses ++ [⟨cmd, err, data⟩] }

/-- A state-class error on record (R241, R245). -/
def State.stateError (s : State) (cmd : Byte) (e : ErrorCode) : State :=
  { s.answered cmd e 0 with lastErr := e.code, lastErrCmd := cmd }

/-- A contract fault (R241, R243). -/
def State.contractError (s : State) (cmd : Byte) (e : ErrorCode) : State :=
  { s.stateError cmd e with fault := true }

/-- A link-integrity error (R241, R244). -/
def State.linkError (s : State) (cmd : Byte) (e : ErrorCode) : State :=
  { s.stateError cmd e with poisoned := true }

/-- The common checks as a command without an exemption meets them (R246): `FAULTED` under a contract fault, `BUSY`
while a READ is pending. -/
def CommonChecks (i : Instr) (cmd : Byte) : Prop :=
  ∀ s : State,
    (s.fault = true → exec i s = .next (s.answered cmd .faulted 0)) ∧
    (s.fault = false → s.busy = true → exec i s = .next (s.contractError cmd .busy))

/-- The commands accepted and not answered yet: a pending READ and the word on the port (R110). -/
def State.unanswered (s : State) : Nat := s.busy.toNat + s.port.isSome.toNat

/-- The successful WRITEs answered so far (R183). -/
def State.okWrites (s : State) : Nat :=
  s.responses.countP fun r => r.cmd == cmdWrite && r.err == .ok

/-! ## Flushes -/

/-- The next step is one of those that discard the queues: the reset input, or the core's execution of a RESET, OPEN or
CLOSE word (R171, R172, R270, R284). -/
def State.flushNext (s : State) : Prop :=
  s.nextEvent = .resetInput ∨
  (s.nextEvent = .coreCommand ∧
    (s.port = some 0x010000000000 ∨ s.port = some 0x030000000000 ∨
      ∃ b : Byte, s.port = some (0x020000000000 + b.setWidth 48)))

/-! ## Runs between two openings of the link -/

/-- `LinkRun s n b r t`: steps lead from `s` to `t` without an OPEN or a reset, `n` of them successful WRITEs, `b` of
those preceded by a burst (the counter was reset), `r` of them since the last burst (R183). -/
inductive LinkRun (s : State) : Nat → Nat → Nat → State → Prop where
  | start : LinkRun s 0 0 0 s
  | quiet {n b r : Nat} {t u : State} (run : LinkRun s n b r t) (h : step t = .next u)
      (noWrite : u.okWrites = t.okWrites) (noReset : u.epoch = t.epoch) (noOpen : u.opens = t.opens) :
      LinkRun s n b r u
  | write {n b r : Nat} {t u : State} (run : LinkRun s n b r t) (h : step t = .next u)
      (oneWrite : u.okWrites = t.okWrites + 1) (plain : t.kaCount.toNat < u.kaCount.toNat) :
      LinkRun s (n + 1) b (r + 1) u
  | burst {n b r : Nat} {t u : State} (run : LinkRun s n b r t) (h : step t = .next u)
      (oneWrite : u.okWrites = t.okWrites + 1) (wasReset : u.kaCount.toNat ≤ t.kaCount.toNat) :
      LinkRun s (n + 1) (b + 1) 1 u

/-- Steps lead from `s` to `t` without an OPEN or a reset, the slots unchanged. -/
inductive SlotRun (s : State) : State → Prop where
  | start : SlotRun s s
  | next {t u : State} (run : SlotRun s t) (h : step t = .next u) (noReset : u.epoch = t.epoch)
      (noOpen : u.opens = t.opens) (sameSlots : u.slots = t.slots) : SlotRun s u

/-! ## The remote's deadline -/

/-- The complete frames at the head of a byte sequence, at most `fuel` of them (R100, R132). -/
def framesIn : Nat → List Byte → List Frame
  | 0, _ => []
  | fuel + 1, q => if complete q then frameOf q :: framesIn fuel (q.drop (frameLen q)) else []

/-- The frame is a keep-alive packet addressed to `a`: a short frame, its destination's payload flag clear (R182). -/
def isKeepAliveTo (c : Config) (a : Byte) (f : Frame) : Bool :=
  f.hdr.opcode == c.opKeepalive && f.hdr.p1 == c.kaP1 && f.hdr.p2 == c.kaP2 && f.hdr.dst == a && !f.hdr.hasPayload

/-- The frame is a keep-alive packet. -/
def isKeepAlive (c : Config) (f : Frame) : Bool := isKeepAliveTo c f.hdr.dst f

/-- The base address of a destination: its low seven bits (R103). -/
def baseOf (dst : Byte) : Byte := dst &&& ~~~payloadFlag

/-- User frames since the last keep-alive packet to `a`, or since the start (R262). -/
def framesSince (c : Config) (a : Byte) (fs : List Frame) : Nat :=
  fs.foldl (fun n f => if isKeepAliveTo c a f then 0 else if isKeepAlive c f then n else n + 1) 0

/-- The line cut at each OPEN: the bytes sent between two openings, oldest first. -/
def lineSessions (line : List Byte) : Nat → List Nat → List (List Byte)
  | start, [] => [line.drop start]
  | start, o :: os => ((line.take o).drop start) :: lineSessions line o os

/-- The frames that have gone onto the line in each session. -/
def State.sentFrames (s : State) : List (List Frame) :=
  (lineSessions s.line 0 s.opens).map fun q => framesIn q.length q

/-- The user frames among them: those that are no keep-alive packets. -/
def State.userFrames (s : State) : List Frame := s.sentFrames.flatten.filter fun f => !isKeepAlive s.cfg f

/-- The deadline has passed at a point of a session: some address that a user frame has been sent to has seen
`KA_DEADLINE` user frames go onto the line since the later of the OPEN and its last keep-alive (R262). The frames of the
session up to there are `now`, those of earlier sessions `earlier`. -/
def deadlinePassed (c : Config) (earlier now : List Frame) : Bool :=
  (earlier ++ now).any fun f =>
    !isKeepAlive c f && decide (c.kaDeadline ≤ framesSince c (baseOf f.hdr.dst) now)

/-- The deadline passed at some point of the sessions, after the frames `earlier` (R262). -/
def deadlineEverPassed (c : Config) : List Frame → List (List Frame) → Bool
  | _, [] => false
  | earlier, now :: later =>
    ((List.range (now.length + 1)).any fun n => deadlinePassed c earlier (now.take n)) ||
      deadlineEverPassed c (earlier ++ now) later

/-- The remote may have dropped the link (R262): the deadline has passed at some point of the line so far. A permission
once given stays, "from then on": neither a later keep-alive nor an OPEN takes it back. A user frame with the bytes of a
keep-alive packet counts as one (log 15). -/
def State.remoteMayDrop (s : State) : Bool := deadlineEverPassed s.cfg [] s.sentFrames

end Sys2Proof.Machine
end

