-- ==== Sys2Proof/Certificates/Slice0/Obligations.lean ====
section
/-! DEFINITION. The statements for the provers. Each docstring says what is stated and names the rules of spec/ it
formalises; what rests on a choice of the model names the log entry. -/

open Sys2Proof Sys2Proof.Machine

/-- For every well-formed instruction, command word or wire frame, with every operand value its encoding admits, decode
(encode i) is i. Frames and message IDs as instructions are the model's reading (logs 3, 10), and so is a reserved
code as an instruction (log 6). (R100, R101, R103, R111, R113, R114, R160) -/
def Obligations.DecodeOfEncode : Prop :=
  ∀ i : Instr, i.WellFormed = true → decode (encode i) = .ok i

/-- If decodeCommand accepts a 48-bit word as i, then i is well-formed and the encoder gives that very word for i: no
bit of the word is dropped. That a reserved code decodes and a reserved bit does not is the model's split of R115
(log 6). (R111, R113, R114, R115, R117) -/
def Obligations.CommandWordHasOneMeaning : Prop :=
  ∀ (w : CmdWord) (i : Instr), decodeCommand w = .ok i → i.WellFormed = true ∧ encode i = .command w

/-- If decodeFrame reads instruction i from q and leaves rest, then i is well-formed, and q is the frame's encoded bytes
followed by rest. Frames and message IDs as instructions are the model's reading (logs 3, 10). (R100, R101, R105,
R108, R132) -/
def Obligations.FrameBytesHaveOneMeaning : Prop :=
  ∀ (q : List Byte) (i : Instr) (rest : List Byte), decodeFrame q = .ok (i, rest) →
    i.WellFormed = true ∧ ∃ bytes, encode i = .frame bytes ∧ q = bytes ++ rest

/-- For six header bytes h and any tail, the length is 6, plus byte 2 when bit 7 of byte 4 is set, whatever the tail;
and decodeFrame accepts a sequence exactly when it has six bytes and that many. (R101, R105, R132) -/
def Obligations.FrameLengthFromFirstSixBytes : Prop :=
  (∀ (h tail : List Byte), h.length = 6 →
      frameLen (h ++ tail) = 6 + if (h.getD 4 0).getLsbD 7 then (h.getD 2 0).toNat else 0) ∧
  (∀ q : List Byte, (∃ i rest, decodeFrame q = .ok (i, rest)) ↔ 6 ≤ q.length ∧ frameLen q ≤ q.length)

/-- With the reserved-bit mask of each code written out from R113, decodeCommand rejects w exactly when w's code is in
the table and w meets the mask in a set bit. Codes 0x13..0xFF decode to the reserved-code instruction. R115 calls
both kinds of word illegal: that the decoder rejects only the first and reads the second as an instruction, whose
meaning raises the error, is the model's split (log 6, DESIGN CHOICE); the masks are R113's. (R113, R114, R115) -/
def Obligations.ReservedBitsAreRejected : Prop :=
  ∀ w : CmdWord,
    ((∃ e, decodeCommand w = .error e) ↔
      ∃ r ∈ ([(0x00, 0x00FFFFFFFFFF), (0x01, 0x00FFFFFFFFFF), (0x02, 0x00FFFFFFFF00), (0x03, 0x00FFFFFFFFFF),
              (0x04, 0x00FFFFFF0000), (0x05, 0x00FFFFFF00FF), (0x06, 0x00FFFFFF0000), (0x07, 0x000000000000),
              (0x08, 0x00FFFFFFFFFF), (0x09, 0x00FFFFFFFF00), (0x0A, 0x000000000000), (0x0B, 0x00000000FEFF),
              (0x0C, 0x00FFFFFFFFFF), (0x0D, 0x00FFFFFFFFFF), (0x0E, 0x00FFFFFF0000), (0x0F, 0x00FFFFFF0000),
              (0x10, 0x00FFFFFFFF00), (0x11, 0x00FFFFFFFC00), (0x12, 0x00FFFFFFFFFF)] : List (Byte × CmdWord)),
        w.extractLsb' 40 8 = r.1 ∧ w &&& r.2 ≠ 0) ∧
    (0x13 ≤ (w.extractLsb' 40 8).toNat →
      decodeCommand w = .ok (.reservedCmd (w.extractLsb' 40 8) (w.extractLsb' 0 40)))

/-- A WRITE, a READ from any source, an EV_CLEAR, a reserved code, a short and a long wire frame. The reserved code as
the instruction reservedCmd is the model's split (log 6); the frame 64 04 .. as the instruction moveCompleted rests
on a default opcode the spec takes from general knowledge, and on the model's message constructors (R160; logs 3,
10). (R100, R113, R114, R160) -/
def Obligations.SampleWordsDecode : Prop :=
  decodeCommand 0x0A04530600A1 = .ok (.write 0x0453 0x06 0x00 0xA1) ∧
  decodeCommand 0x0B0464000100 = .ok (.read 0x0464 0x00 true) ∧
  decodeCommand 0x1100000003FF = .ok (.evClear 3 0xFF) ∧
  decodeCommand 0xFF0000000001 = .ok (.reservedCmd 0xFF 1) ∧
  decodeFrame [0x64, 0x04, 0x01, 0x00, 0x01, 0x21, 0x44] = .ok (.moveCompleted 1 0 0x01 0x21 [], [0x44]) ∧
  decodeFrame [0x6A, 0x04, 0x01, 0x00, 0x81, 0x21, 0x44] = .ok (.frameLong 0x046A 1 0 0x81 0x21 [0x44], [])

/-- When the core's turn is next: a word on the port that decodes to i makes the step exec i; a pending READ with a
frame at the head of the FIFO that decodes to i makes the frame step exec i. With no word on the port the command
step changes nothing. With no READ pending, or fewer than six bytes or than the frame's length in the FIFO, the
frame step changes nothing: a pending READ waits on an incomplete frame. The step itself only takes the event off
the schedule. The schedule, and a turn that is not enabled as a step without effect, are the model's (log 1). (R11,
R12, R132, R191) -/
def Obligations.StepRunsDecodedInstruction : Prop :=
  ∀ (s : State) (later : List Event), s.cfg.Valid →
    (∀ (w : CmdWord) (i : Instr), s.schedule = .coreCommand :: later → s.port = some w → decodeCommand w = .ok i →
      step s = exec i { s with schedule := later }) ∧
    (∀ (i : Instr) (rest : List Byte), s.schedule = .coreFrame :: later → s.busy = true →
      decodeFrame s.rxFifo = .ok (i, rest) → step s = exec i { s with schedule := later }) ∧
    (s.schedule = .coreCommand :: later → s.port = none → step s = .next { s with schedule := later }) ∧
    (s.schedule = .coreFrame :: later →
      s.busy = false ∨ s.rxFifo.length < 6 ∨ s.rxFifo.length < frameLen s.rxFifo →
      step s = .next { s with schedule := later })

/-- When the word on the port does not decode, the step answers (its code, error, 0): FAULTED with no other effect under
a contract fault, else BUSY while a READ is pending, else ILLEGAL_COMMAND, both contract faults. (R115, R246) -/
def Obligations.StepRaisesIllegalWord : Prop :=
  ∀ (s : State) (w : CmdWord) (later : List Event) (e : DecodeError), s.cfg.Valid →
    s.schedule = .coreCommand :: later → s.port = some w → decodeCommand w = .error e →
    step s = .next (
      if s.fault then State.answered { s with schedule := later } (w.extractLsb' 40 8) .faulted 0
      else if s.busy then State.contractError { s with schedule := later } (w.extractLsb' 40 8) .busy
      else State.contractError { s with schedule := later } (w.extractLsb' 40 8) .illegalCommand)

/-- For every state: step answers a refusal if and only if the parameters break one of the constraints of R8; under
valid parameters it always answers a next state. (R8) -/
def Obligations.StepRefusesExactlyBadConfigurations : Prop :=
  ∀ s : State, ((∃ r, step s = .refused r) ↔ ¬ s.cfg.Valid) ∧ (s.cfg.Valid → ∃ t, step s = .next t)

/-- For every instruction and every state, exec gives a next state: an error is a response, a hold leaves the state
unchanged, and nothing faults or is refused. (R12, R251) -/
def Obligations.EveryInstructionAnswers : Prop :=
  ∀ (i : Instr) (s : State), ∃ t, exec i s = .next t

/-- The byte the environment delivers goes to the tail of rx_fifo exactly when link_open = 1 and |rx_fifo| < RX_DEPTH.
With clear-to-send and a nonempty queue the head byte of tx_q goes to the end of the line. Otherwise the agent's
step changes nothing; neither changes anything else. (R200, R201, R202) -/
def Obligations.WireAgentsMoveBytesInOrder : Prop :=
  ∀ (s : State) (later : List Event), s.cfg.Valid →
    (∀ b : Byte, s.schedule = .wireRx b :: later →
      step s = .next (
        if s.linkOpen = true ∧ s.rxFifo.length < s.cfg.rxDepth then
          { s with rxFifo := s.rxFifo ++ [b], schedule := later }
        else { s with schedule := later })) ∧
    (∀ (c : Bool) (b : Byte) (rest : List Byte), s.schedule = .wireTx c :: later → c = true → s.txQ = b :: rest →
      step s = .next { s with line := s.line ++ [b], txQ := rest, schedule := later }) ∧
    (∀ c : Bool, s.schedule = .wireTx c :: later → c = false ∨ s.txQ = [] →
      step s = .next { s with schedule := later })

/-- A word issued while the port is free stands on it after the step; while a command still holds the port (a held
WRITE) the step changes nothing. The port as a field is the model's reading (log 5). (R110, R184) -/
def Obligations.HostFillsAFreePort : Prop :=
  ∀ (s : State) (w : CmdWord) (later : List Event), s.cfg.Valid → s.schedule = .hostIssue w :: later →
    (s.port = none → step s = .next { s with port := some w, schedule := later }) ∧
    (∀ v, s.port = some v → step s = .next { s with schedule := later })

/-- After the reset input every field is as at power-on with the same parameters, the port is free, and the response and
line histories are those before: no response is given. The schedule, draws, opens and epoch are the model's fields
(logs 1, 9, 15). (R270, R271) -/
def Obligations.ResetInputAbandonsAndResets : Prop :=
  ∀ (s : State) (later : List Event), s.cfg.Valid → s.schedule = .resetInput :: later →
    step s = .next { State.powerOn s.cfg with
      responses := s.responses, line := s.line, opens := s.opens, schedule := later, draws := s.draws,
      epoch := s.epoch + 1 }

/-- For every configuration, and so for State.reset: every field of the table of R30 that the table gives a value; the
slot file has N_KA invalid slots at address 0. What the model chose for its own fields is not stated here (logs 1,
5, 9, 14, 15). (R30, R270, R272) -/
def Obligations.ResetValues : Prop :=
  State.reset = State.powerOn Config.default ∧
  ∀ c : Config,
    (State.powerOn c).linkOpen = false ∧ (State.powerOn c).poisoned = false ∧ (State.powerOn c).fault = false ∧
    (State.powerOn c).busy = false ∧ (State.powerOn c).kaCount = 0 ∧ (State.powerOn c).hostAddr = 0 ∧
    (State.powerOn c).slots = List.replicate c.nKa ⟨false, 0⟩ ∧
    (State.powerOn c).expOpcode = 0 ∧ (State.powerOn c).expSrc = 0 ∧ (State.powerOn c).expAny = false ∧
    (State.powerOn c).resValid = false ∧ (State.powerOn c).resHdr = ⟨0, 0, 0, 0, 0, 0⟩ ∧
    (State.powerOn c).resHasPayload = false ∧ (State.powerOn c).resLen = 0 ∧ (State.powerOn c).txLen = 0 ∧
    (State.powerOn c).rxFifo = [] ∧ (State.powerOn c).txQ = [] ∧
    (State.powerOn c).warnCount = 0 ∧ (State.powerOn c).lastWarnOpcode = 0 ∧ (State.powerOn c).lastWarnSrc = 0 ∧
    (State.powerOn c).lastErr = 0 ∧ (State.powerOn c).lastErrCmd = 0 ∧
    (State.powerOn c).evDone = 0 ∧ (State.powerOn c).evHomed = 0 ∧ (State.powerOn c).cfg = c

/-- From any state with valid parameters, after the reset is applied: registers 0x00..0x0E and 0x10..0x10+N_KA-1 read 0
and PARAMS reads KA_THRESH, N_KA and the table's length mod 65536 in their fields. (R270) -/
def Obligations.RegistersReadZeroAfterReset : Prop :=
  ∀ s : State, s.cfg.Valid →
    (∀ n : Byte, n.toNat < 0x10 + s.cfg.nKa → n ≠ 0x0F → s.applyReset.regValue n = some 0) ∧
    ∃ v, s.applyReset.regValue 0x0F = some v ∧ (v.extractLsb' 0 8).toNat = s.cfg.kaThresh ∧
      (v.extractLsb' 8 4).toNat = s.cfg.nKa ∧ v.extractLsb' 12 4 = 0 ∧
      (v.extractLsb' 16 16).toNat = s.cfg.cmdTable.length % 65536

/-- Each error has its 4-bit code; codes 1, 2, 3, 8, 9, 10, 11, 12 and 13 are contract errors, 4 and 5 link errors, and
no error has code 15. (R240, R243, R244, R245) -/
def Obligations.ErrorCodesAndClasses : Prop :=
  [ErrorCode.ok, .unknownCommand, .invalidOpcode, .malformedPacket, .incompleteFrame, .aborted, .notOpen, .poisoned,
    .busy, .illegalCommand, .txLengthMismatch, .badSlot, .badIndex, .txOverflow, .faulted].map ErrorCode.code
      = [0, 1, 2, 3, 4, 5, 6, 7, 8, 9, 10, 11, 12, 13, 14] ∧
  ∀ e : ErrorCode,
    e.code ≠ 15 ∧ (e.isLink = true ↔ e.code = 4 ∨ e.code = 5) ∧
    (e.isContract = true ↔ e.code ∈ ([1, 2, 3, 8, 9, 10, 11, 12, 13] : List (BitVec 4)))

/-- For each of the 20 command constructors except RESET and REG_READ, in every state with fault = 1, exec answers the
state with the one response (CMD, FAULTED, 0) added and the port freed: the error record keeps its first cause.
(R243, R246) -/
def Obligations.ContractFaultRefusesEveryCommand : Prop :=
  ∀ (i : Instr) (cmd : Byte) (s : State), commandCode i = some cmd → s.fault = true → i ≠ .reset →
    (∀ b, i ≠ .regRead b) → exec i s = .next (s.answered cmd .faulted 0)

/-- For each command constructor except RESET, REG_READ and ABORT, in every state with fault = 0 and busy = 1, exec
answers the state with fault = 1, the record (BUSY, CMD) and the response (CMD, BUSY, 0): busy and all else
unchanged. (R246, R247) -/
def Obligations.PendingReadRefusesOtherCommands : Prop :=
  ∀ (i : Instr) (cmd : Byte) (s : State), commandCode i = some cmd → s.fault = false → s.busy = true → i ≠ .reset →
    i ≠ .abort → (∀ b, i ≠ .regRead b) → exec i s = .next (s.contractError cmd .busy)

/-- If a command's one response carries an error e, then its data is 0 and the next state is the old one but for: the
response, the freed port, last_err and last_err_cmd unless e is FAULTED, fault for a contract error, poisoned for a
link error. (R241, R243, R244, R245, R249) -/
def Obligations.ErrorsArePrecise : Prop :=
  ∀ (i : Instr) (cmd : Byte) (s t : State) (e : ErrorCode) (d : BitVec 64), commandCode i = some cmd →
    exec i s = .next t → e ≠ .ok → t.responses = s.responses ++ [⟨cmd, e, d⟩] →
    d = 0 ∧ t = { s.answered cmd e 0 with
      lastErr := if e = .faulted then s.lastErr else e.code
      lastErrCmd := if e = .faulted then s.lastErrCmd else cmd
      fault := s.fault || decide (e.code ∈ ([1, 2, 3, 8, 9, 10, 11, 12, 13] : List (BitVec 4)))
      poisoned := s.poisoned || decide (e.code = 4 ∨ e.code = 5) }

/-- If a step leads from a state with fault = 1 to one with fault = 0, then the event was the reset input, or the core
executed the word 0x010000000000. (R34, R243, R252) -/
def Obligations.ContractFaultClearedOnlyByReset : Prop :=
  ∀ s t : State, step s = .next t → s.fault = true → t.fault = false →
    s.nextEvent = .resetInput ∨ (s.nextEvent = .coreCommand ∧ s.port = some 0x010000000000)

/-- If a step leads from poisoned = 1 to poisoned = 0, then the event was the reset input, or the core executed a RESET
or an OPEN word. (R33, R244, R252) -/
def Obligations.PoisonClearedOnlyByReopening : Prop :=
  ∀ s t : State, step s = .next t → s.poisoned = true → t.poisoned = false →
    s.nextEvent = .resetInput ∨
    (s.nextEvent = .coreCommand ∧
      (s.port = some 0x010000000000 ∨ ∃ b : Byte, s.port = some (0x020000000000 + b.setWidth 48)))

/-- For every step from every state, other than the reset input: responses given plus commands not yet answered (the
pending READ, the word on the port) grow by exactly one when the host issues a word on a free port, and else stay
the same. (R110, R112, R271) -/
def Obligations.OneResponsePerCommand : Prop :=
  ∀ s t : State, step s = .next t → s.nextEvent ≠ .resetInput →
    t.responses.length + t.unanswered =
      s.responses.length + s.unanswered + (if (∃ w, s.nextEvent = .hostIssue w) ∧ s.port = none then 1 else 0)

/-- If all responses of s with an error carry data 0, then so do all responses of the state after any step. (R112) -/
def Obligations.ErrorResponsesHoldNoData : Prop :=
  ∀ s t : State, step s = .next t → (∀ r ∈ s.responses, r.err ≠ .ok → r.data = 0) →
    ∀ r ∈ t.responses, r.err ≠ .ok → r.data = 0

/-- After every step, the reset input and RESET included, the configuration is the same, and so LOOKUP's table and
opcode validity give the same answers. (R163) -/
def Obligations.ParametersNeverChange : Prop :=
  ∀ s t : State, step s = .next t →
    t.cfg = s.cfg ∧ (∀ idx, lookupOpcode t.cfg idx = lookupOpcode s.cfg idx) ∧
      ∀ opc, t.cfg.opcodeValid opc = s.cfg.opcodeValid opc

/-- For every state that meets State.Invariant and every step to t, t meets it: ka_count at most KA_THRESH + 1, N_KA
base-address slots, queues within their depths and empty on a closed link, a READ pending only on an open unpoisoned
link, the result registers consistent, every readable payload byte written, the buffers canonical, fault = 1 exactly
with a contract error on record, event bits below N_KA, the openings in order on the line (the model's history, log
15). (R31, R35, R37, R39, R40, R41, R42, R43, R44, R45, R172, R213) -/
def Obligations.StepKeepsInvariant : Prop :=
  ∀ s t : State, s.Invariant → step s = .next t → t.Invariant

/-- State.powerOn c meets State.Invariant for every c that meets R8, and so does State.reset. (R270, R272) -/
def Obligations.InvariantAfterReset : Prop :=
  State.reset.Invariant ∧ ∀ c : Config, c.Valid → (State.powerOn c).Invariant

/-- After any step the line is what it was, or wire-TX under clear-to-send has moved the head byte of tx_q to its end.
And the line followed by the queue is what it was, with bytes added at the end only when the core executed a WRITE
word; or the step was the reset input or the core's execution of an OPEN, CLOSE or RESET word, the queue is empty
and the line unchanged. (R42, R85, R88, R201) -/
def Obligations.LineOrder : Prop :=
  ∀ s t : State, step s = .next t →
    (t.line = s.line ∨
      ∃ b, s.nextEvent = .wireTx true ∧ s.txQ = b :: t.txQ ∧ t.line = s.line ++ [b]) ∧
    ((s.flushNext ∧ t.txQ = [] ∧ t.line = s.line) ∨
      ∃ added, t.line ++ t.txQ = s.line ++ s.txQ ++ added ∧
        (added = [] ∨ (s.nextEvent = .coreCommand ∧ ∃ w, s.port = some w ∧ w.extractLsb' 40 8 = 0x0A)))

/-- After any step rx_fifo is unchanged; or wire-RX added its byte at the tail (link open, room left); or the frame step
of a pending READ, or a DECODE_FRAME word, took exactly the complete frame at its head; or the step was the reset
input or the core's execution of an OPEN, CLOSE or RESET word, and it is empty. (R41, R84, R85, R88, R132) -/
def Obligations.ReceiveOrder : Prop :=
  ∀ s t : State, step s = .next t →
    t.rxFifo = s.rxFifo ∨
    (∃ b, s.nextEvent = .wireRx b ∧ s.linkOpen = true ∧ s.rxFifo.length < s.cfg.rxDepth ∧
      t.rxFifo = s.rxFifo ++ [b]) ∨
    (((s.nextEvent = .coreFrame ∧ s.busy = true) ∨ (s.nextEvent = .coreCommand ∧ s.port = some 0x0D0000000000)) ∧
      6 ≤ s.rxFifo.length ∧ frameLen s.rxFifo ≤ s.rxFifo.length ∧ t.rxFifo = s.rxFifo.drop (frameLen s.rxFifo)) ∨
    (s.flushNext ∧ t.rxFifo = [])

/-- For every run of steps without OPEN or reset from a state with ka_count = 0, with n successful WRITEs, b of them
resetting the counter by a burst and r since the last of these: b = (n - 1) / (KA_THRESH + 1) in natural numbers,
ka_count = r, r is at least 1 once n is, and r is at most KA_THRESH + 1, which is below KA_DEADLINE. (R35, R180,
R183) -/
def Obligations.KeepAliveSchedule : Prop :=
  ∀ (s t : State) (n b r : Nat), s.cfg.Valid → s.kaCount = 0 → LinkRun s n b r t →
    b = (n - 1) / (s.cfg.kaThresh + 1) ∧ t.kaCount.toNat = r ∧ (1 ≤ n → 1 ≤ r) ∧ r ≤ s.cfg.kaThresh + 1 ∧
      r < s.cfg.kaDeadline

/-- Any step from a state with remoteMayDrop leads to one with it. From a state that meets the invariant right after any
OPEN (the last opening stands at the end of the line, nothing is queued, ka_count = 0), with no permission given in
earlier sessions, along every run without OPEN, reset or change of a slot: if every user frame on the line went to
the base address of a valid slot, then remoteMayDrop is false. How remoteMayDrop reads the line, and that a user
frame with the very bytes of a keep-alive packet counts as one, are the model's (log 15). (R182, R183, R262, R282) -/
def Obligations.RegisteredAxesKeepTheLink : Prop :=
  (∀ s t : State, step s = .next t → s.remoteMayDrop = true → t.remoteMayDrop = true) ∧
  ∀ (s t : State) (earlier : List Nat), s.Invariant → s.opens = earlier ++ [s.line.length] → s.txQ = [] →
    s.kaCount = 0 → s.remoteMayDrop = false → SlotRun s t →
    (∀ f ∈ t.userFrames, ∃ k ∈ s.slots, k.valid = true ∧ k.addr = f.hdr.dst &&& 0x7F) → t.remoteMayDrop = false

/-- On an idle block NOP answers (0x00, OK, 0) and no state changes; its errors are the common checks. (R211) -/
def Obligations.NopDoesNothing : Prop :=
  (∀ s : State, s.Idle → exec .nop s = .next (s.answered 0x00 .ok 0)) ∧ CommonChecks .nop 0x00

/-- In every state RESET answers OK, after the READ's (0x0B, ABORTED, 0) if one is pending; every field is as at power-
on with the same parameters; the histories, and the model's schedule, draws and opens, are kept, and the epoch
advances (logs 1, 9, 14, 15). (R220, R246, R270) -/
def Obligations.ResetEndsReadAndResets : Prop :=
  ∀ s : State, exec .reset s = .next { State.powerOn s.cfg with
    responses := s.responses ++ (if s.busy then [⟨0x0B, .aborted, 0⟩] else []) ++ [⟨0x01, .ok, 0⟩]
    line := s.line, opens := s.opens, schedule := s.schedule, draws := s.draws, epoch := s.epoch + 1 }

/-- On an idle block, open or closed, poisoned or not: link_open = 1, poisoned = 0, ka_count = 0, host_addr = B, both
queues empty; slots, results, staged payload, events and warnings are kept. The list of openings is the model's (log
15). (R171, R246) -/
def Obligations.OpenReestablishesTheLink : Prop :=
  (∀ (b : Byte) (s : State), s.Idle → exec (.openLink b) s = .next (State.answered
      { s with linkOpen := true, poisoned := false, kaCount := 0, hostAddr := b, rxFifo := [], txQ := [],
               opens := s.opens ++ [s.line.length] } 0x02 .ok 0)) ∧
  ∀ b : Byte, CommonChecks (.openLink b) 0x02

/-- On an idle block: link_open = 0, both queues empty, all else unchanged; while a READ is pending CLOSE is BUSY. On a
closed link with empty queues it changes nothing. (R172) -/
def Obligations.CloseKeepsAllButTheQueues : Prop :=
  (∀ s : State, s.Idle → exec .closeLink s = .next (State.answered
      { s with linkOpen := false, rxFifo := [], txQ := [] } 0x03 .ok 0)) ∧
  CommonChecks .closeLink 0x03 ∧
  (∀ s : State, s.Idle → s.linkOpen = false → s.rxFifo = [] → s.txQ = [] →
    exec .closeLink s = .next (s.answered 0x03 .ok 0)) ∧
  (∀ (s : State) (b : Byte) (later : List Event), s.cfg.Valid → s.linkOpen = false →
    s.schedule = .wireRx b :: later → step s = .next { s with schedule := later })

/-- On an idle block: SLOT >= N_KA is BAD_SLOT; else an address with bit 7 set is ILLEGAL_COMMAND; else slot SLOT
becomes valid with that address, every other slot and all else unchanged. (R37, R212, R246) -/
def Obligations.KaSetWritesItsSlot : Prop :=
  (∀ (slot addr : Byte) (s : State), s.Idle → slot.toNat < s.cfg.nKa → addr.getLsbD 7 = false →
      ∃ l, exec (.kaSet slot addr) s = .next (State.answered { s with slots := l } 0x04 .ok 0) ∧
        l.length = s.slots.length ∧
        ∀ j, l[j]? = if j = slot.toNat ∧ j < s.slots.length then some ⟨true, addr⟩ else s.slots[j]?) ∧
  (∀ (slot addr : Byte) (s : State), s.Idle → s.cfg.nKa ≤ slot.toNat →
      exec (.kaSet slot addr) s = .next (s.contractError 0x04 .badSlot)) ∧
  (∀ (slot addr : Byte) (s : State), s.Idle → slot.toNat < s.cfg.nKa → addr.getLsbD 7 = true →
      exec (.kaSet slot addr) s = .next (s.contractError 0x04 .illegalCommand)) ∧
  ∀ slot addr : Byte, CommonChecks (.kaSet slot addr) 0x04

/-- On an idle block: SLOT >= N_KA is BAD_SLOT; else slot SLOT becomes invalid with address 0, the event bits and all
else unchanged. (R37, R213, R246) -/
def Obligations.KaClrEmptiesItsSlot : Prop :=
  (∀ (slot : Byte) (s : State), s.Idle → slot.toNat < s.cfg.nKa →
      ∃ l, exec (.kaClr slot) s = .next (State.answered { s with slots := l } 0x05 .ok 0) ∧
        l.length = s.slots.length ∧
        ∀ j, l[j]? = if j = slot.toNat ∧ j < s.slots.length then some ⟨false, 0⟩ else s.slots[j]?) ∧
  (∀ (slot : Byte) (s : State), s.Idle → s.cfg.nKa ≤ slot.toNat →
      exec (.kaClr slot) s = .next (s.contractError 0x05 .badSlot)) ∧
  ∀ slot : Byte, CommonChecks (.kaClr slot) 0x05

/-- On an idle block with tx_len < 255: byte tx_len of the staged payload reads B, every other byte reads as before,
tx_len grows by one, all else unchanged; at tx_len = 255 it is TX_OVERFLOW. (R40, R214, R246) -/
def Obligations.TxbPushAppendsOneByte : Prop :=
  (∀ (b : Byte) (s : State), s.Idle → s.txLen.toNat < 255 →
      ∃ m, exec (.txbPush b) s = .next (State.answered { s with txPay := m, txLen := s.txLen + 1 } 0x09 .ok 0) ∧
        ∀ j, Memory.read m j = if j = s.txLen.toNat then some b else Memory.read s.txPay j) ∧
  (∀ (b : Byte) (s : State), s.Idle → s.txLen = 255 →
      exec (.txbPush b) s = .next (s.contractError 0x09 .txOverflow)) ∧
  ∀ b : Byte, CommonChecks (.txbPush b) 0x09

/-- On an idle block tx_len = 0 after it, all else unchanged; its errors are the common checks. (R215) -/
def Obligations.TxbClearEmptiesThePayload : Prop :=
  (∀ s : State, s.Idle → exec .txbClear s = .next (State.answered { s with txLen := 0 } 0x08 .ok 0)) ∧
  CommonChecks .txbClear 0x08

/-- On an idle block: with a held frame and IDX < res_len the answer is the byte at IDX, zero-extended, no state
changes; with no held frame or IDX >= res_len it is BAD_INDEX. A byte no frame wrote is a free value (log 9). (R116,
R216, R246) -/
def Obligations.RxbGetReadsOneByte : Prop :=
  (∀ (idx : BitVec 16) (s : State), s.Idle → s.resValid = true → idx.toNat < s.resLen.toNat →
      exec (.rxbGet idx) s = .next (s.answered 0x0E .ok ((s.resByte idx.toNat).setWidth 64)) ∧
      ∀ v, Memory.read s.resPay idx.toNat = some v → s.resByte idx.toNat = v) ∧
  (∀ (idx : BitVec 16) (s : State), s.Idle → s.resValid = false ∨ s.resLen.toNat ≤ idx.toNat →
      exec (.rxbGet idx) s = .next (s.contractError 0x0E .badIndex)) ∧
  ∀ idx : BitVec 16, CommonChecks (.rxbGet idx) 0x0E

/-- In every state, a contract fault or a pending READ included, REG_READ 0x00 answers OK with the value whose bits are
the fields of R51, and no state changes. (R51, R217) -/
def Obligations.RegReadStatus : Prop :=
  ∀ s : State, ∃ v : BitVec 32, exec (.regRead 0x00) s = .next (s.answered 0x10 .ok (v.setWidth 64)) ∧
    v.extractLsb' 0 1 = BitVec.ofBool s.linkOpen ∧ v.extractLsb' 1 1 = BitVec.ofBool s.poisoned ∧
    v.extractLsb' 2 1 = BitVec.ofBool s.fault ∧ v.extractLsb' 3 1 = BitVec.ofBool s.busy ∧
    v.extractLsb' 4 1 = BitVec.ofBool s.resValid ∧ v.extractLsb' 5 1 = BitVec.ofBool (decide (0 < s.txQ.length)) ∧
    v.extractLsb' 6 1 = BitVec.ofBool (decide (0 < s.rxFifo.length)) ∧ v.extractLsb' 7 1 = 0 ∧
    v.extractLsb' 8 4 = s.lastErr ∧ v.extractLsb' 12 20 = 0

/-- For every number from 0x10 + N_KA on: ILLEGAL_COMMAND, recorded also under a contract fault (the model's reading,
log 11), and fault = 1. KA_COUNT, HOST_ADDR, RX_AVAIL and TXQ_LEVEL (the queue lengths; of a length above 65535 the
low 16 bits, the model's reading, log 13), TX_LEN, RES_LEN, WARN_COUNT, EV_DONE and EV_HOMED: REG_READ answers OK
with the field in the low bits and 0 above, and changes nothing. (R50, R52, R53, R54, R55, R56, R58, R60, R61, R217) -/
def Obligations.RegReadOtherRegisters : Prop :=
  ∀ s : State,
    exec (.regRead 0x01) s = .next (s.answered 0x10 .ok (s.kaCount.setWidth 64)) ∧
    exec (.regRead 0x02) s = .next (s.answered 0x10 .ok (s.hostAddr.setWidth 64)) ∧
    exec (.regRead 0x03) s = .next (s.answered 0x10 .ok (BitVec.ofNat 64 (s.rxFifo.length % 65536))) ∧
    exec (.regRead 0x04) s = .next (s.answered 0x10 .ok (BitVec.ofNat 64 (s.txQ.length % 65536))) ∧
    exec (.regRead 0x05) s = .next (s.answered 0x10 .ok (s.txLen.setWidth 64)) ∧
    exec (.regRead 0x08) s = .next (s.answered 0x10 .ok (s.resLen.setWidth 64)) ∧
    exec (.regRead 0x0A) s = .next (s.answered 0x10 .ok (s.warnCount.setWidth 64)) ∧
    exec (.regRead 0x0C) s = .next (s.answered 0x10 .ok (s.evDone.setWidth 64)) ∧
    exec (.regRead 0x0D) s = .next (s.answered 0x10 .ok (s.evHomed.setWidth 64)) ∧
    ∀ n : Byte, 0x10 + s.cfg.nKa ≤ n.toNat → exec (.regRead n) s = .next (s.contractError 0x10 .illegalCommand)

/-- RES_HDR_LO, RES_HDR_HI, EXP, LAST_WARN, LAST_ERR, PARAMS (under valid parameters) and KA_SLOT[j] for every slot j <
N_KA: REG_READ answers OK with a value whose bit fields are the registers' of R57 to R64, and changes nothing. (R57,
R59, R60, R62, R63, R64, R217) -/
def Obligations.RegReadPackedRegisters : Prop :=
  ∀ s : State, s.cfg.Valid →
    (∃ v : BitVec 32, exec (.regRead 0x06) s = .next (s.answered 0x10 .ok (v.setWidth 64)) ∧
      v.extractLsb' 0 8 = s.resHdr.opcLo ∧ v.extractLsb' 8 8 = s.resHdr.opcHi ∧ v.extractLsb' 16 8 = s.resHdr.p1 ∧
      v.extractLsb' 24 8 = s.resHdr.p2) ∧
    (∃ v : BitVec 32, exec (.regRead 0x07) s = .next (s.answered 0x10 .ok (v.setWidth 64)) ∧
      v.extractLsb' 0 8 = s.resHdr.dst ∧ v.extractLsb' 8 8 = s.resHdr.src ∧
      v.extractLsb' 16 1 = BitVec.ofBool s.resHasPayload ∧ v.extractLsb' 17 15 = 0) ∧
    (∃ v : BitVec 32, exec (.regRead 0x09) s = .next (s.answered 0x10 .ok (v.setWidth 64)) ∧
      v.extractLsb' 0 16 = s.expOpcode ∧ v.extractLsb' 16 8 = s.expSrc ∧
      v.extractLsb' 24 1 = BitVec.ofBool s.expAny ∧ v.extractLsb' 25 7 = 0) ∧
    (∃ v : BitVec 32, exec (.regRead 0x0B) s = .next (s.answered 0x10 .ok (v.setWidth 64)) ∧
      v.extractLsb' 0 16 = s.lastWarnOpcode ∧ v.extractLsb' 16 8 = s.lastWarnSrc ∧ v.extractLsb' 24 8 = 0) ∧
    (∃ v : BitVec 32, exec (.regRead 0x0E) s = .next (s.answered 0x10 .ok (v.setWidth 64)) ∧
      v.extractLsb' 0 4 = s.lastErr ∧ v.extractLsb' 4 4 = 0 ∧ v.extractLsb' 8 8 = s.lastErrCmd ∧
      v.extractLsb' 16 16 = 0) ∧
    (∃ v : BitVec 32, exec (.regRead 0x0F) s = .next (s.answered 0x10 .ok (v.setWidth 64)) ∧
      (v.extractLsb' 0 8).toNat = s.cfg.kaThresh ∧ (v.extractLsb' 8 4).toNat = s.cfg.nKa ∧
      v.extractLsb' 12 4 = 0 ∧ (v.extractLsb' 16 16).toNat = s.cfg.cmdTable.length % 65536) ∧
    ∀ (j : Nat) (k : KaSlot), j < s.cfg.nKa → s.slots[j]? = some k →
      ∃ v : BitVec 32, exec (.regRead (BitVec.ofNat 8 (0x10 + j))) s = .next (s.answered 0x10 .ok (v.setWidth 64)) ∧
        v.extractLsb' 0 8 = k.addr ∧ v.extractLsb' 8 1 = BitVec.ofBool k.valid ∧ v.extractLsb' 9 23 = 0

/-- On an idle block with SEL not 0: bit j of ev_done is cleared when SEL[0] and MASK[j] are set and else unchanged,
likewise ev_homed with SEL[1]; all else unchanged. SEL = 0 is a contract fault. (R218, R246) -/
def Obligations.EvClearClearsSelectedBits : Prop :=
  (∀ (sel : BitVec 2) (mask : Byte) (s : State), s.Idle → sel ≠ 0 →
      ∃ d h, exec (.evClear sel mask) s = .next (State.answered { s with evDone := d, evHomed := h } 0x11 .ok 0) ∧
        (∀ j, d.getLsbD j = (s.evDone.getLsbD j && !(sel.getLsbD 0 && mask.getLsbD j))) ∧
        ∀ j, h.getLsbD j = (s.evHomed.getLsbD j && !(sel.getLsbD 1 && mask.getLsbD j))) ∧
  (∀ (mask : Byte) (s : State), s.Idle → exec (.evClear 0 mask) s = .next (s.contractError 0x11 .illegalCommand)) ∧
  ∀ (sel : BitVec 2) (mask : Byte), CommonChecks (.evClear sel mask) 0x11

/-- On an idle block warn_count, last_warn_opcode and last_warn_src are 0 after it, all else unchanged; its errors are
the common checks. (R219) -/
def Obligations.WarnClearEmptiesTheRecord : Prop :=
  (∀ s : State, s.Idle → exec .warnClear s = .next (State.answered
      { s with warnCount := 0, lastWarnOpcode := 0, lastWarnSrc := 0 } 0x12 .ok 0)) ∧
  CommonChecks .warnClear 0x12

/-- On an idle block: an IDX inside the table answers its opcode, zero-extended, no state changes; IDX >= the table's
length is a contract fault. (R116, R161, R246) -/
def Obligations.LookupFailsClosed : Prop :=
  (∀ (idx : BitVec 16) (s : State) (entry : TableEntry), s.Idle → s.cfg.cmdTable[idx.toNat]? = some entry →
      exec (.lookup idx) s = .next (s.answered 0x06 .ok (entry.opcode.setWidth 64))) ∧
  (∀ (idx : BitVec 16) (s : State), s.Idle → s.cfg.cmdTable.length ≤ idx.toNat →
      exec (.lookup idx) s = .next (s.contractError 0x06 .unknownCommand)) ∧
  ∀ idx : BitVec 16, CommonChecks (.lookup idx) 0x06

/-- On an idle block, open or not: for an opcode of the table DATA holds opcode low, opcode high, P1, P2, DST, host_addr
in bytes 0 to 5 and 0 above, no state changes; for any other opcode it is a contract fault. (R116, R131, R162, R246) -/
def Obligations.EncodeHeaderIsPure : Prop :=
  (∀ (opc : Opcode) (p1 p2 dst : Byte) (s : State), s.Idle → (∃ e ∈ s.cfg.cmdTable, e.opcode = opc) →
      ∃ d : BitVec 64, exec (.encodeHeader opc p1 p2 dst) s = .next (s.answered 0x07 .ok d) ∧
        d.extractLsb' 0 8 = opc.extractLsb' 0 8 ∧ d.extractLsb' 8 8 = opc.extractLsb' 8 8 ∧
        d.extractLsb' 16 8 = p1 ∧ d.extractLsb' 24 8 = p2 ∧ d.extractLsb' 32 8 = dst ∧
        d.extractLsb' 40 8 = s.hostAddr ∧ d.extractLsb' 48 16 = 0) ∧
  (∀ (opc : Opcode) (p1 p2 dst : Byte) (s : State), s.Idle → (∀ e ∈ s.cfg.cmdTable, e.opcode ≠ opc) →
      exec (.encodeHeader opc p1 p2 dst) s = .next (s.contractError 0x07 .invalidOpcode)) ∧
  ∀ (opc : Opcode) (p1 p2 dst : Byte), CommonChecks (.encodeHeader opc p1 p2 dst) 0x07

/-- On an idle, open, unpoisoned block whose rx_fifo is a complete frame q followed by rest: rx_fifo becomes rest, the
result registers hold q's header and payload, other payload bytes read as before, and DATA holds the six header
bytes, res_len and res_has_payload; all else unchanged. (R116, R133, R134, R246) -/
def Obligations.DecodeFrameTakesOneFrame : Prop :=
  ∀ (q rest : List Byte) (s : State), s.Idle → s.linkOpen = true → s.poisoned = false →
    6 ≤ q.length → q.length = frameLen q → s.rxFifo = q ++ rest →
    ∃ (m : Memory) (d : BitVec 64), exec .decodeFrame s = .next (State.answered
      { s with rxFifo := rest, resHdr := headerOf q, resHasPayload := (q.getD 4 0).getLsbD 7
               resLen := BitVec.ofNat 8 (q.length - 6), resPay := m, resValid := true } 0x0D .ok d) ∧
      (∀ j, Memory.read m j = if j < q.length - 6 then q[6 + j]? else Memory.read s.resPay j) ∧
      (∀ j, j < 6 → q[j]? = some (d.extractLsb' (8 * j) 8)) ∧ (d.extractLsb' 48 8).toNat = q.length - 6 ∧
      d.extractLsb' 56 1 = BitVec.ofBool ((q.getD 4 0).getLsbD 7) ∧ d.extractLsb' 57 7 = 0

/-- On an idle block, in this order: NOT_OPEN on a closed link, POISONED on a poisoned one, INCOMPLETE_FRAME (a link
error, rx_fifo unchanged) when fewer than six bytes, or fewer than the frame's length, are there; under fault or
busy the common checks. (R133, R244, R245, R246) -/
def Obligations.DecodeFrameErrors : Prop :=
  (∀ s : State, s.Idle → s.linkOpen = false → exec .decodeFrame s = .next (s.stateError 0x0D .notOpen)) ∧
  (∀ s : State, s.Idle → s.linkOpen = true → s.poisoned = true →
    exec .decodeFrame s = .next (s.stateError 0x0D .poisoned)) ∧
  (∀ s : State, s.Idle → s.linkOpen = true → s.poisoned = false →
    s.rxFifo.length < 6 ∨ s.rxFifo.length < frameLen s.rxFifo →
    exec .decodeFrame s = .next (s.linkError 0x0D .incompleteFrame)) ∧
  CommonChecks .decodeFrame 0x0D

/-- On an idle block: with LEN = 4 and a held frame with OFF + 4 <= res_len, DATA[63:32] is the little-endian word of
the four bytes, DATA[i] for i < 13 is its bit STATUS_BITS[i], DATA[31:13] is 0, and no state changes; in every other
case it is a contract fault. (R116, R140, R141, R142, R143, R246) -/
def Obligations.DecodeStatusProjectsTheFlags : Prop :=
  (∀ (off : Byte) (s : State), s.Idle → s.resValid = true → off.toNat + 4 ≤ s.resLen.toNat →
      ∃ d : BitVec 64, exec (.decodeStatus off 4) s = .next (s.answered 0x0F .ok d) ∧
        (∀ j, j < 4 → d.extractLsb' (32 + 8 * j) 8 = s.resByte (off.toNat + j)) ∧
        (∀ j, j < 13 → d.getLsbD j = (d.extractLsb' 32 32).getLsbD (s.cfg.statusBits.positions.getD j 0)) ∧
        d.extractLsb' 13 19 = 0) ∧
  (∀ (off len : Byte) (s : State), s.Idle → len ≠ 4 ∨ s.resValid = false ∨ s.resLen.toNat < off.toNat + 4 →
      exec (.decodeStatus off len) s = .next (s.contractError 0x0F .malformedPacket)) ∧
  ∀ off len : Byte, CommonChecks (.decodeStatus off len) 0x0F

/-- On an idle, open, unpoisoned block with valid parameters, an opcode of the table and a staged payload of the length
the header announces: the bytes are one keep-alive packet per valid slot in ascending order if ka_count > KA_THRESH,
then the six header bytes and the payload. If they fit in tx_q they are appended whole, ka_count becomes 1 after a
burst and else grows by one, tx_len = 0, DATA holds the packets and the bytes; if not, nothing changes and no
response is given. (R116, R180, R181, R182, R184) -/
def Obligations.WriteQueuesBurstThenFrame : Prop :=
  ∀ (opc : Opcode) (p1 p2 dst : Byte) (s : State), s.cfg.Valid → s.Idle → s.linkOpen = true → s.poisoned = false →
    (∃ e ∈ s.cfg.cmdTable, e.opcode = opc) → s.txLen = (if dst.getLsbD 7 then p1 else 0) →
    ∃ packets : List (List Byte), ∃ bytes : List Byte,
      packets = (if s.cfg.kaThresh < s.kaCount.toNat then
          ((s.slots.take s.cfg.nKa).filter (fun k => k.valid)).map fun k =>
            [s.cfg.opKeepalive.extractLsb' 0 8, s.cfg.opKeepalive.extractLsb' 8 8, s.cfg.kaP1, s.cfg.kaP2, k.addr,
             s.hostAddr]
        else []) ∧
      bytes = packets.flatten ++ [opc.extractLsb' 0 8, opc.extractLsb' 8 8, p1, p2, dst, s.hostAddr]
        ++ (List.range s.txLen.toNat).map s.txByte ∧
      (s.txQ.length + bytes.length ≤ s.cfg.txqDepth →
        exec (.write opc p1 p2 dst) s = .next (State.answered
          { s with
            txQ := s.txQ ++ bytes
            kaCount := if s.cfg.kaThresh < s.kaCount.toNat then 1 else s.kaCount + 1
            txLen := 0 } 0x0A .ok (BitVec.ofNat 64 (packets.length + 65536 * bytes.length)))) ∧
      (s.cfg.txqDepth < s.txQ.length + bytes.length → exec (.write opc p1 p2 dst) s = .next s)

/-- On an idle block: NOT_OPEN, then POISONED, then INVALID_OPCODE for an opcode outside the table, then
TX_LENGTH_MISMATCH when the staged length is not P1 (DST[7] = 1) or not 0 (DST[7] = 0); nothing is sent and no
counter changes. (R180, R243, R245, R246, R249) -/
def Obligations.WriteErrorsInOrder : Prop :=
  ∀ (opc : Opcode) (p1 p2 dst : Byte),
    (∀ s : State, s.Idle → s.linkOpen = false → exec (.write opc p1 p2 dst) s = .next (s.stateError 0x0A .notOpen)) ∧
    (∀ s : State, s.Idle → s.linkOpen = true → s.poisoned = true →
      exec (.write opc p1 p2 dst) s = .next (s.stateError 0x0A .poisoned)) ∧
    (∀ s : State, s.Idle → s.linkOpen = true → s.poisoned = false → (∀ e ∈ s.cfg.cmdTable, e.opcode ≠ opc) →
      exec (.write opc p1 p2 dst) s = .next (s.contractError 0x0A .invalidOpcode)) ∧
    (∀ s : State, s.Idle → s.linkOpen = true → s.poisoned = false → (∃ e ∈ s.cfg.cmdTable, e.opcode = opc) →
      s.txLen ≠ (if dst.getLsbD 7 then p1 else 0) →
      exec (.write opc p1 p2 dst) s = .next (s.contractError 0x0A .txLengthMismatch)) ∧
    CommonChecks (.write opc p1 p2 dst) 0x0A

/-- On an idle block: NOT_OPEN on a closed link, POISONED on a poisoned one; else exp_opcode, exp_src, exp_any hold the
operands, busy = 1, the port is free and no response is given, all else unchanged. (R190, R245, R246) -/
def Obligations.ReadIsAcceptedAndPends : Prop :=
  ∀ (eopc : Opcode) (esrc : Byte) (any : Bool),
    (∀ s : State, s.Idle → s.linkOpen = true → s.poisoned = false →
      exec (.read eopc esrc any) s = .next
        { s with expOpcode := eopc, expSrc := esrc, expAny := any, busy := true, port := none }) ∧
    (∀ s : State, s.Idle → s.linkOpen = false →
      exec (.read eopc esrc any) s = .next (s.stateError 0x0B .notOpen)) ∧
    (∀ s : State, s.Idle → s.linkOpen = true → s.poisoned = true →
      exec (.read eopc esrc any) s = .next (s.stateError 0x0B .poisoned)) ∧
    CommonChecks (.read eopc esrc any) 0x0B

/-- For FRAME_SHORT, FRAME_LONG and the 15 message IDs (every constructor whose encoding is a frame): with a READ
pending, a frame with bytes q whose opcode is exp_opcode and whose source is exp_src (or any source is expected)
loads the result registers, clears busy and gives the READ's response; other payload bytes read as before, all else
unchanged. Frames as instructions are the model's reading (log 3). (R116, R134, R191, R192) -/
def Obligations.FrameMatchEndsTheRead : Prop :=
  ∀ (i : Instr) (q : List Byte) (s : State), i.WellFormed = true → encode i = .frame q → s.busy = true →
    le16 (q.getD 0 0) (q.getD 1 0) = s.expOpcode → (s.expAny = true ∨ q.getD 5 0 = s.expSrc) →
    ∃ (m : Memory) (d : BitVec 64), exec i s = .next
      { s with rxFifo := s.rxFifo.drop q.length, resHdr := headerOf q, resHasPayload := (q.getD 4 0).getLsbD 7
               resLen := BitVec.ofNat 8 (q.length - 6), resPay := m, resValid := true
               busy := false, responses := s.responses ++ [⟨0x0B, .ok, d⟩] } ∧
      (∀ j, Memory.read m j = if j < q.length - 6 then q[6 + j]? else Memory.read s.resPay j) ∧
      (∀ j, j < 6 → q[j]? = some (d.extractLsb' (8 * j) 8)) ∧ (d.extractLsb' 48 8).toNat = q.length - 6 ∧
      d.extractLsb' 56 1 = BitVec.ofBool ((q.getD 4 0).getLsbD 7) ∧ d.extractLsb' 57 7 = 0

/-- For every wire-frame instruction: with a READ pending, a frame that does not match, whose opcode is in UNSOL_SET and
whose source holds a valid slot and is not the expected source (unless any source is expected), sets bit j of
ev_done if its opcode is OP_MOVE_COMPLETED, and of ev_homed if it is OP_MOVE_HOMED, for every slot j that holds its
source; busy stays, no response, all else unchanged but the consumed bytes. Frames as instructions are the model's
reading (log 3). (R45, R191, R193, R248) -/
def Obligations.UnsolicitedFrameSetsEventBits : Prop :=
  ∀ (i : Instr) (q : List Byte) (s : State), i.WellFormed = true → encode i = .frame q → s.busy = true →
    ¬ (le16 (q.getD 0 0) (q.getD 1 0) = s.expOpcode ∧ (s.expAny = true ∨ q.getD 5 0 = s.expSrc)) →
    le16 (q.getD 0 0) (q.getD 1 0) ∈ s.cfg.unsolSet →
    (∃ j, j < s.cfg.nKa ∧ s.slots[j]? = some ⟨true, q.getD 5 0⟩) → (s.expAny = true ∨ q.getD 5 0 ≠ s.expSrc) →
    ∃ d h, exec i s = .next { s with rxFifo := s.rxFifo.drop q.length, evDone := d, evHomed := h } ∧
      (∀ j, j < 8 → (d.getLsbD j = true ↔ s.evDone.getLsbD j = true ∨
        (le16 (q.getD 0 0) (q.getD 1 0) = s.cfg.opMoveCompleted ∧ j < s.cfg.nKa ∧
          s.slots[j]? = some ⟨true, q.getD 5 0⟩))) ∧
      ∀ j, j < 8 → (h.getLsbD j = true ↔ s.evHomed.getLsbD j = true ∨
        (le16 (q.getD 0 0) (q.getD 1 0) = s.cfg.opMoveHomed ∧ j < s.cfg.nKa ∧
          s.slots[j]? = some ⟨true, q.getD 5 0⟩))

/-- For every wire-frame instruction: with a READ pending, a frame that neither matches nor is an unsolicited
notification raises warn_count by one up to 0xFFFF and records its opcode and source; busy stays, no response, all
else unchanged but the consumed bytes. With busy = 0 nothing changes. Frames as instructions are the model's reading
(log 3). (R43, R191, R194, R248) -/
def Obligations.OtherFrameIsRecordedAsWarning : Prop :=
  ∀ (i : Instr) (q : List Byte) (s : State), i.WellFormed = true → encode i = .frame q →
    (s.busy = true →
      ¬ (le16 (q.getD 0 0) (q.getD 1 0) = s.expOpcode ∧ (s.expAny = true ∨ q.getD 5 0 = s.expSrc)) →
      ¬ (le16 (q.getD 0 0) (q.getD 1 0) ∈ s.cfg.unsolSet ∧
          (∃ j, j < s.cfg.nKa ∧ s.slots[j]? = some ⟨true, q.getD 5 0⟩) ∧
          (s.expAny = true ∨ q.getD 5 0 ≠ s.expSrc)) →
      exec i s = .next
        { s with
          rxFifo := s.rxFifo.drop q.length
          warnCount := BitVec.ofNat 16 (min (s.warnCount.toNat + 1) 0xFFFF)
          lastWarnOpcode := le16 (q.getD 0 0) (q.getD 1 0)
          lastWarnSrc := q.getD 5 0 }) ∧
    (s.busy = false → exec i s = .next s)

/-- With no contract fault: while a READ is pending, busy = 0, poisoned = 1, the record and the READ's response hold
INCOMPLETE_FRAME if rx_fifo has bytes and ABORTED if not, ABORT's OK comes second, rx_fifo is kept; with none
pending only the OK is given. Under a contract fault it is FAULTED. (R195, R244, R246) -/
def Obligations.AbortEndsThePendingRead : Prop :=
  (∀ s : State, s.fault = false → s.busy = true →
      exec .abort s = .next
        { s with
          busy := false
          poisoned := true
          lastErr := if s.rxFifo = [] then 5 else 4
          lastErrCmd := 0x0B
          port := none
          responses := s.responses ++
            [⟨0x0B, if s.rxFifo = [] then .aborted else .incompleteFrame, 0⟩, ⟨0x0C, .ok, 0⟩] }) ∧
  (∀ s : State, s.Idle → exec .abort s = .next (s.answered 0x0C .ok 0)) ∧
  ∀ s : State, s.fault = true → exec .abort s = .next (s.answered 0x0C .faulted 0)

/-- For every code and operand bits: on an idle block ILLEGAL_COMMAND with no other effect, FAULTED under a contract
fault, BUSY while a READ is pending. (R115, R246) -/
def Obligations.ReservedCodeIsIllegal : Prop :=
  ∀ (code : Byte) (operands : BitVec 40),
    (∀ s : State, s.Idle → exec (.reservedCmd code operands) s = .next (s.contractError code .illegalCommand)) ∧
    CommonChecks (.reservedCmd code operands) code

/-- On an idle, open, unpoisoned block: the six bytes ENCODE_HEADER returns for an opcode of the table, put at the head
of rx_fifo before a payload of the announced length and any rest, make DECODE_FRAME hold the same opcode, param1,
param2, destination, the host address as source, and the payload byte for byte, with rest left. With bit 7 set,
param1 > 0 and no bytes after the header it is INCOMPLETE_FRAME. (R131, R133, R134, R135) -/
def Obligations.EncodedHeaderReadsBack : Prop :=
  ∀ (opc : Opcode) (p1 p2 dst : Byte) (pay rest : List Byte) (s t : State) (d : BitVec 64), s.Idle →
    s.linkOpen = true → s.poisoned = false → exec (.encodeHeader opc p1 p2 dst) s = .next t →
    t.responses = s.responses ++ [⟨0x07, .ok, d⟩] →
    (pay.length = (if dst.getLsbD 7 then p1.toNat else 0) →
      ∃ u, exec .decodeFrame { s with rxFifo := (List.range 6).map (fun j => d.extractLsb' (8 * j) 8) ++ pay ++ rest }
          = .next u ∧ u.resValid = true ∧ le16 u.resHdr.opcLo u.resHdr.opcHi = opc ∧ u.resHdr.p1 = p1 ∧
        u.resHdr.p2 = p2 ∧ u.resHdr.dst = dst ∧ u.resHdr.src = s.hostAddr ∧ u.resPayload = pay ∧ u.rxFifo = rest) ∧
    (dst.getLsbD 7 = true → p1 ≠ 0 →
      exec .decodeFrame { s with rxFifo := (List.range 6).map (fun j => d.extractLsb' (8 * j) 8) }
        = .next (State.linkError
            { s with rxFifo := (List.range 6).map (fun j => d.extractLsb' (8 * j) 8) } 0x0D .incompleteFrame))

/-- For the other twelve command constructors, in every state: executing the command again right after it changes
nothing but the response history. (R85) -/
def Obligations.RepeatedCommandChangesNothingMore : Prop :=
  ∀ (i : Instr) (cmd : Byte) (s t u : State), commandCode i = some cmd →
    cmd ∉ ([0x0A, 0x0B, 0x0D, 0x09, 0x02, 0x03, 0x0C, 0x01] : List Byte) → exec i s = .next t → exec i t = .next u →
    { u with responses := t.responses } = t

/-- If a WRITE answers OK from a state that meets the invariant, then the bytes it added to tx_q split, by the frame
rule, into exactly one short frame per valid slot when a burst was due, each addressed to the slot's address from
host_addr, and then the user's frame with its header fields and the staged payload; nothing is left over. (R100,
R180, R181, R182) -/
def Obligations.QueuedBytesAreWholeFrames : Prop :=
  ∀ (opc : Opcode) (p1 p2 dst : Byte) (s t : State) (d : BitVec 64), s.Invariant →
    exec (.write opc p1 p2 dst) s = .next t → t.responses = s.responses ++ [⟨0x0A, .ok, d⟩] →
    ∃ added : List Byte, t.txQ = s.txQ ++ added ∧
      framesIn added.length added =
        (if s.cfg.kaThresh < s.kaCount.toNat then
            (s.slots.filter (fun k => k.valid)).map fun k =>
              ⟨⟨s.cfg.opKeepalive.extractLsb' 0 8, s.cfg.opKeepalive.extractLsb' 8 8, s.cfg.kaP1, s.cfg.kaP2, k.addr,
                s.hostAddr⟩, []⟩
          else []) ++
        [⟨⟨opc.extractLsb' 0 8, opc.extractLsb' 8 8, p1, p2, dst, s.hostAddr⟩,
          (List.range s.txLen.toNat).map s.txByte⟩] ∧
      ((framesIn added.length added).map Frame.bytes).flatten = added
end

