-- ==== Sys2Proof/Laws/Decode.lean ====
section
/-! SUPPORT. What the fields of a word, a header and a frame read as after they are put together, and the message
table, each said once (spec/30_encoding.md R100 to R114, spec/40_codec.md R132). -/

namespace Sys2Proof

/-! ## Opcodes and headers -/

/-- The two bytes of an opcode give it back (R101, R102). -/
@[simp] theorem le16_opcBytes (opc : Opcode) : le16 (opcLoByte opc) (opcHiByte opc) = opc := by
  apply BitVec.eq_of_toNat_eq
  simp only [le16, opcLoByte, opcHiByte, BitVec.extractLsb'_toNat, BitVec.toNat_ofNat, Nat.shiftRight_eq_div_pow]
  omega

@[simp] theorem opcLoByte_le16 (a b : Byte) : opcLoByte (le16 a b) = a := by
  apply BitVec.eq_of_toNat_eq
  simp only [le16, opcLoByte, BitVec.extractLsb'_toNat, BitVec.toNat_ofNat, Nat.shiftRight_eq_div_pow]
  omega

@[simp] theorem opcHiByte_le16 (a b : Byte) : opcHiByte (le16 a b) = b := by
  apply BitVec.eq_of_toNat_eq
  simp only [le16, opcHiByte, BitVec.extractLsb'_toNat, BitVec.toNat_ofNat, Nat.shiftRight_eq_div_pow]
  omega

@[simp] theorem mkHeader_opcode (opc : Opcode) (p1 p2 dst src : Byte) : (mkHeader opc p1 p2 dst src).opcode = opc :=
  le16_opcBytes opc

/-- A header is its fields. -/
@[simp] theorem mkHeader_self (h : Header) : mkHeader h.opcode h.p1 h.p2 h.dst h.src = h := by
  simp [mkHeader, Header.opcode]

@[simp] theorem mkHeader_hasPayload (opc : Opcode) (p1 p2 dst src : Byte) :
    (mkHeader opc p1 p2 dst src).hasPayload = dst.getLsbD 7 := rfl

@[simp] theorem mkHeader_payLen (opc : Opcode) (p1 p2 dst src : Byte) :
    (mkHeader opc p1 p2 dst src).payLen = if dst.getLsbD 7 then p1 else 0 := rfl

/-! ## Messages -/

/-- The fifteen default opcodes are distinct (R160). -/
@[simp] theorem messageOf_opcode (m : Message) : messageOf m.opcode = some m := by cases m <;> decide

theorem messageOf_none {opc : Opcode} (h : ∀ m : Message, opc ≠ m.opcode) : messageOf opc = none := by
  simp only [messageOf, if_neg (h _)]

/-- The message of an opcode has that opcode. -/
theorem opcode_of_messageOf {opc : Opcode} {m : Message} (h : messageOf opc = some m) : m.opcode = opc := by
  by_cases hx : ∃ n : Message, opc = n.opcode
  · obtain ⟨n, rfl⟩ := hx
    rw [messageOf_opcode] at h
    rw [Option.some.inj h]
  · rw [messageOf_none fun n hn => hx ⟨n, hn⟩] at h
    contradiction

theorem isMessageOpcode_eq (opc : Opcode) : isMessageOpcode opc = (messageOf opc).isSome := by
  by_cases h : ∃ m : Message, opc = m.opcode
  · obtain ⟨m, rfl⟩ := h
    cases m <;> decide
  · have h : ∀ m : Message, opc ≠ m.opcode := fun m hm => h ⟨m, hm⟩
    rw [messageOf_none h]
    simp only [isMessageOpcode, Config.defaultTable, Message.entry, List.map, List.contains_eq_mem, List.mem_cons, h,
      List.not_mem_nil, or_false, decide_false, Option.isSome_none]

/-! ## Frames -/

@[simp] theorem bytes_length (f : Frame) : f.bytes.length = 6 + f.pay.length := by
  simp [Frame.bytes, Header.bytes]; omega

/-- A frame with the payload its header announces, whatever follows it: it is complete, its length is its own, and it
reads back (R100, R132). -/
theorem frame_reads_back (f : Frame) (rest : List Byte) (h : payloadFits f.hdr.p1 f.hdr.dst f.pay = true) :
    complete (f.bytes ++ rest) = true ∧ frameLen (f.bytes ++ rest) = f.bytes.length ∧ frameOf (f.bytes ++ rest) = f := by
  obtain ⟨⟨opcLo, opcHi, p1, p2, dst, src⟩, pay⟩ := f
  simp only [payloadFits, beq_iff_eq] at h
  have hl : frameLen (Frame.bytes ⟨⟨opcLo, opcHi, p1, p2, dst, src⟩, pay⟩ ++ rest)
      = (Frame.bytes ⟨⟨opcLo, opcHi, p1, p2, dst, src⟩, pay⟩).length := by
    rw [bytes_length]; simp [frameLen, Frame.bytes, Header.bytes, h]
  refine ⟨?_, hl, ?_⟩
  · simp only [complete, hl]; simp [hdrReady]; omega
  · simp only [frameOf, hl]; simp [headerOf, Frame.bytes, Header.bytes]

/-- A complete sequence is the bytes of its first frame, and the rest (R132). -/
theorem complete_split {q : List Byte} (h : complete q = true) :
    (frameOf q).bytes ++ q.drop (frameLen q) = q ∧
      payloadFits (frameOf q).hdr.p1 (frameOf q).hdr.dst (frameOf q).pay = true := by
  simp only [complete, hdrReady, Bool.and_eq_true, decide_eq_true_eq] at h
  obtain ⟨h6, hl⟩ := h
  obtain ⟨a, b, c, d, e, f, tail, rfl⟩ : ∃ a b c d e f tail, q = a :: b :: c :: d :: e :: f :: tail := by
    match q, h6 with
    | a :: b :: c :: d :: e :: f :: tail, _ => exact ⟨a, b, c, d, e, f, tail, rfl⟩
  have hk : frameLen (a :: b :: c :: d :: e :: f :: tail) = (if e.getLsbD payloadBit then c.toNat else 0) + 6 := by
    simp [frameLen]; omega
  simp only [List.length_cons, hk] at hl
  have hp : frameOf (a :: b :: c :: d :: e :: f :: tail)
      = ⟨⟨a, b, c, d, e, f⟩, tail.take (if e.getLsbD payloadBit then c.toNat else 0)⟩ := by
    simp only [frameOf, hk]; simp [headerOf]
  rw [hp, hk]
  generalize hn : (if e.getLsbD payloadBit then c.toNat else 0) = n at hl
  simp only [Frame.bytes, Header.bytes, payloadFits, hn]
  simp
  omega

/-! ## Command words -/

theorem mkWord_getLsbD (cmd : Byte) (o : BitVec 40) (i : Nat) :
    (mkWord cmd o).getLsbD i = if i < 40 then o.getLsbD i else cmd.getLsbD (i - 40) := BitVec.getLsbD_append

/-- The code of an encoded word (R111). -/
@[simp] theorem cmdOf_mkWord (cmd : Byte) (o : BitVec 40) : cmdOf (mkWord cmd o) = cmd := by
  ext i hi
  simp [cmdOf, mkWord_getLsbD, hi]

/-- A field of an encoded word's low 40 bits (R111, R113). -/
theorem field_mkWord (cmd : Byte) (o : BitVec 40) {k n : Nat} (hk : k + n ≤ 40) :
    (mkWord cmd o).extractLsb' k n = o.extractLsb' k n := by
  ext i hi
  rw [BitVec.getElem_extractLsb', BitVec.getElem_extractLsb', mkWord_getLsbD, if_pos (by omega)]

/-- A word is its code and its low 40 bits. -/
theorem mkWord_self (w : CmdWord) : mkWord (cmdOf w) (w.extractLsb' 0 40) = w := by
  apply BitVec.eq_of_getLsbD_eq
  intro i hi
  rw [mkWord_getLsbD]
  split
  · rename_i h; simp [h]
  · rename_i h; simp [cmdOf, show 40 + (i - 40) = i by omega, show i - 40 < 8 by omega]

theorem formatB_getLsbD (b : Byte) (i : Nat) : (formatB b).getLsbD i = b.getLsbD i := by
  show ((0#32 : BitVec 32) ++ b).getLsbD i = _
  rw [BitVec.getLsbD_append]
  split
  · rfl
  · rename_i h; simp [BitVec.getLsbD_of_ge b i (by omega)]

theorem formatS_getLsbD (mid low : Byte) (i : Nat) :
    (formatS mid low).getLsbD i = if i < 8 then low.getLsbD i else mid.getLsbD (i - 8) := by
  show ((0#24 : BitVec 24) ++ mid ++ low).getLsbD i = _
  rw [BitVec.getLsbD_append, BitVec.getLsbD_append]
  split
  · rfl
  · split
    · rfl
    · rename_i h; simp [BitVec.getLsbD_of_ge mid (i - 8) (by omega)]

theorem formatI_getLsbD (idx : BitVec 16) (i : Nat) : (formatI idx).getLsbD i = idx.getLsbD i := by
  show ((0#24 : BitVec 24) ++ idx).getLsbD i = _
  rw [BitVec.getLsbD_append]
  split
  · rfl
  · rename_i h; simp [BitVec.getLsbD_of_ge idx i (by omega)]

theorem formatH_getLsbD (opc : Opcode) (p1 p2 dst : Byte) (i : Nat) :
    (formatH opc p1 p2 dst).getLsbD i =
      if i < 8 then dst.getLsbD i
      else if i < 16 then p2.getLsbD (i - 8)
      else if i < 24 then p1.getLsbD (i - 16)
      else opc.getLsbD (i - 24) := by
  show (opc ++ p1 ++ p2 ++ dst).getLsbD i = _
  rw [BitVec.getLsbD_append, BitVec.getLsbD_append, BitVec.getLsbD_append]
  split
  · rfl
  · by_cases h16 : i < 16
    · rw [if_pos (show i - 8 < 8 by omega), if_pos h16]
    · rw [if_neg (show ¬ i - 8 < 8 by omega), if_neg h16]
      by_cases h24 : i < 24
      · rw [if_pos (show i - 8 - 8 < 8 by omega), if_pos h24, show i - 8 - 8 = i - 16 by omega]
      · rw [if_neg (show ¬ i - 8 - 8 < 8 by omega), if_neg h24, show i - 8 - 8 - 8 = i - 24 by omega]

theorem formatM_getLsbD (eopc : Opcode) (esrc : Byte) (any : Bool) (i : Nat) :
    (formatM eopc esrc any).getLsbD i =
      if i < 16 then decide (i = 8) && any
      else if i < 24 then esrc.getLsbD (i - 16)
      else eopc.getLsbD (i - 24) := by
  show (eopc ++ esrc ++ (0#7 : BitVec 7) ++ BitVec.ofBool any ++ (0#8 : BitVec 8)).getLsbD i = _
  rw [BitVec.getLsbD_append, BitVec.getLsbD_append, BitVec.getLsbD_append, BitVec.getLsbD_append]
  by_cases h8 : i < 8
  · rw [if_pos h8, if_pos (show i < 16 by omega)]; simp; omega
  rw [if_neg h8]
  by_cases h9 : i - 8 < 1
  · rw [if_pos h9, if_pos (show i < 16 by omega)]
    simp [show i = 8 by omega]
  rw [if_neg h9]
  by_cases h16 : i < 16
  · rw [if_pos (show i - 8 - 1 < 7 by omega), if_pos h16]; simp; omega
  rw [if_neg (show ¬ i - 8 - 1 < 7 by omega), if_neg h16]
  by_cases h24 : i < 24
  · rw [if_pos (show i - 8 - 1 - 7 < 8 by omega), if_pos h24, show i - 8 - 1 - 7 = i - 16 by omega]
  · rw [if_neg (show ¬ i - 8 - 1 - 7 < 8 by omega), if_neg h24, show i - 8 - 1 - 7 - 8 = i - 24 by omega]

theorem formatE_getLsbD (sel : BitVec 2) (mask : Byte) (i : Nat) :
    (formatE sel mask).getLsbD i = if i < 8 then mask.getLsbD i else sel.getLsbD (i - 8) := by
  show ((0#30 : BitVec 30) ++ sel ++ mask).getLsbD i = _
  rw [BitVec.getLsbD_append, BitVec.getLsbD_append]
  split
  · rfl
  · split
    · rfl
    · rename_i h; simp [BitVec.getLsbD_of_ge sel (i - 8) (by omega)]

/-- An accepted word is its code's instruction (R115, R117). -/
theorem decodeCommand_ok {w : CmdWord} {f : Format} (hf : formatOf (cmdOf w) = some f)
    (hr : reservedClear f w = true) : decodeCommand w = .ok (commandInstr w) := by
  simp only [decodeCommand, hf, hr, if_true]

/-- The reserved codes (R114, R115). -/
theorem formatOf_reserved {cmd : Byte} (h : 0x13 ≤ cmd.toNat) : formatOf cmd = none := by
  have hk : ∀ k : Byte, k.toNat < 19 → cmd ≠ k := by rintro k hk rfl; omega
  unfold formatOf
  rw [if_neg (hk 0 (by decide)), if_neg (hk 1 (by decide)), if_neg (hk 2 (by decide)), if_neg (hk 3 (by decide)),
    if_neg (hk 4 (by decide)), if_neg (hk 5 (by decide)), if_neg (hk 6 (by decide)), if_neg (hk 7 (by decide)),
    if_neg (hk 8 (by decide)), if_neg (hk 9 (by decide)), if_neg (hk 10 (by decide)), if_neg (hk 11 (by decide)),
    if_neg (hk 12 (by decide)), if_neg (hk 13 (by decide)), if_neg (hk 14 (by decide)), if_neg (hk 15 (by decide)),
    if_neg (hk 16 (by decide)), if_neg (hk 17 (by decide)), if_neg (hk 18 (by decide))]

/-- A reserved code is the instruction `reservedCmd`, with the other 40 bits (R115). -/
theorem commandInstr_reserved {w : CmdWord} (h : 0x13 ≤ (cmdOf w).toNat) :
    commandInstr w = .reservedCmd (cmdOf w) (w.extractLsb' 0 40) := by
  have hk : ∀ k : Byte, k.toNat < 19 → cmdOf w ≠ k := by rintro k hk rfl; omega
  unfold commandInstr
  dsimp only
  rw [if_neg (hk 0 (by decide)), if_neg (hk 1 (by decide)), if_neg (hk 2 (by decide)), if_neg (hk 3 (by decide)),
    if_neg (hk 4 (by decide)), if_neg (hk 5 (by decide)), if_neg (hk 6 (by decide)), if_neg (hk 7 (by decide)),
    if_neg (hk 8 (by decide)), if_neg (hk 9 (by decide)), if_neg (hk 10 (by decide)), if_neg (hk 11 (by decide)),
    if_neg (hk 12 (by decide)), if_neg (hk 13 (by decide)), if_neg (hk 14 (by decide)), if_neg (hk 15 (by decide)),
    if_neg (hk 16 (by decide)), if_neg (hk 17 (by decide)), if_neg (hk 18 (by decide))]

end Sys2Proof
end

