-- ==== Sys2Proof/Laws/State.lean ====
section
/-! SUPPORT. One lemma for each field of `State` and each named update: what the field holds after it. True by
unfolding; later proofs cite these and never unfold an update. -/

namespace Sys2Proof.Machine

variable (s : State)

/-! ## `respond` -/

@[simp] theorem respond_linkOpen (cmd : Byte) (e : ErrorCode) (d : BitVec 64) : (s.respond cmd e d).linkOpen = s.linkOpen := rfl
@[simp] theorem respond_poisoned (cmd : Byte) (e : ErrorCode) (d : BitVec 64) : (s.respond cmd e d).poisoned = s.poisoned := rfl
@[simp] theorem respond_fault (cmd : Byte) (e : ErrorCode) (d : BitVec 64) : (s.respond cmd e d).fault = s.fault := rfl
@[simp] theorem respond_busy (cmd : Byte) (e : ErrorCode) (d : BitVec 64) : (s.respond cmd e d).busy = s.busy := rfl
@[simp] theorem respond_kaCount (cmd : Byte) (e : ErrorCode) (d : BitVec 64) : (s.respond cmd e d).kaCount = s.kaCount := rfl
@[simp] theorem respond_hostAddr (cmd : Byte) (e : ErrorCode) (d : BitVec 64) : (s.respond cmd e d).hostAddr = s.hostAddr := rfl
@[simp] theorem respond_slots (cmd : Byte) (e : ErrorCode) (d : BitVec 64) : (s.respond cmd e d).slots = s.slots := rfl
@[simp] theorem respond_expOpcode (cmd : Byte) (e : ErrorCode) (d : BitVec 64) : (s.respond cmd e d).expOpcode = s.expOpcode := rfl
@[simp] theorem respond_expSrc (cmd : Byte) (e : ErrorCode) (d : BitVec 64) : (s.respond cmd e d).expSrc = s.expSrc := rfl
@[simp] theorem respond_expAny (cmd : Byte) (e : ErrorCode) (d : BitVec 64) : (s.respond cmd e d).expAny = s.expAny := rfl
@[simp] theorem respond_resValid (cmd : Byte) (e : ErrorCode) (d : BitVec 64) : (s.respond cmd e d).resValid = s.resValid := rfl
@[simp] theorem respond_resHdr (cmd : Byte) (e : ErrorCode) (d : BitVec 64) : (s.respond cmd e d).resHdr = s.resHdr := rfl
@[simp] theorem respond_resHasPayload (cmd : Byte) (e : ErrorCode) (d : BitVec 64) : (s.respond cmd e d).resHasPayload = s.resHasPayload := rfl
@[simp] theorem respond_resLen (cmd : Byte) (e : ErrorCode) (d : BitVec 64) : (s.respond cmd e d).resLen = s.resLen := rfl
@[simp] theorem respond_resPay (cmd : Byte) (e : ErrorCode) (d : BitVec 64) : (s.respond cmd e d).resPay = s.resPay := rfl
@[simp] theorem respond_txLen (cmd : Byte) (e : ErrorCode) (d : BitVec 64) : (s.respond cmd e d).txLen = s.txLen := rfl
@[simp] theorem respond_txPay (cmd : Byte) (e : ErrorCode) (d : BitVec 64) : (s.respond cmd e d).txPay = s.txPay := rfl
@[simp] theorem respond_rxFifo (cmd : Byte) (e : ErrorCode) (d : BitVec 64) : (s.respond cmd e d).rxFifo = s.rxFifo := rfl
@[simp] theorem respond_txQ (cmd : Byte) (e : ErrorCode) (d : BitVec 64) : (s.respond cmd e d).txQ = s.txQ := rfl
@[simp] theorem respond_warnCount (cmd : Byte) (e : ErrorCode) (d : BitVec 64) : (s.respond cmd e d).warnCount = s.warnCount := rfl
@[simp] theorem respond_lastWarnOpcode (cmd : Byte) (e : ErrorCode) (d : BitVec 64) : (s.respond cmd e d).lastWarnOpcode = s.lastWarnOpcode := rfl
@[simp] theorem respond_lastWarnSrc (cmd : Byte) (e : ErrorCode) (d : BitVec 64) : (s.respond cmd e d).lastWarnSrc = s.lastWarnSrc := rfl
@[simp] theorem respond_lastErr (cmd : Byte) (e : ErrorCode) (d : BitVec 64) : (s.respond cmd e d).lastErr = s.lastErr := rfl
@[simp] theorem respond_lastErrCmd (cmd : Byte) (e : ErrorCode) (d : BitVec 64) : (s.respond cmd e d).lastErrCmd = s.lastErrCmd := rfl
@[simp] theorem respond_evDone (cmd : Byte) (e : ErrorCode) (d : BitVec 64) : (s.respond cmd e d).evDone = s.evDone := rfl
@[simp] theorem respond_evHomed (cmd : Byte) (e : ErrorCode) (d : BitVec 64) : (s.respond cmd e d).evHomed = s.evHomed := rfl
@[simp] theorem respond_port (cmd : Byte) (e : ErrorCode) (d : BitVec 64) : (s.respond cmd e d).port = s.port := rfl
@[simp] theorem respond_responses (cmd : Byte) (e : ErrorCode) (d : BitVec 64) : (s.respond cmd e d).responses = s.responses ++ [⟨cmd, e, d⟩] := rfl
@[simp] theorem respond_line (cmd : Byte) (e : ErrorCode) (d : BitVec 64) : (s.respond cmd e d).line = s.line := rfl
@[simp] theorem respond_cfg (cmd : Byte) (e : ErrorCode) (d : BitVec 64) : (s.respond cmd e d).cfg = s.cfg := rfl
@[simp] theorem respond_opens (cmd : Byte) (e : ErrorCode) (d : BitVec 64) : (s.respond cmd e d).opens = s.opens := rfl
@[simp] theorem respond_schedule (cmd : Byte) (e : ErrorCode) (d : BitVec 64) : (s.respond cmd e d).schedule = s.schedule := rfl
@[simp] theorem respond_draws (cmd : Byte) (e : ErrorCode) (d : BitVec 64) : (s.respond cmd e d).draws = s.draws := rfl
@[simp] theorem respond_epoch (cmd : Byte) (e : ErrorCode) (d : BitVec 64) : (s.respond cmd e d).epoch = s.epoch := rfl

/-! ## `endCommand` -/

@[simp] theorem endCommand_linkOpen : s.endCommand.linkOpen = s.linkOpen := rfl
@[simp] theorem endCommand_poisoned : s.endCommand.poisoned = s.poisoned := rfl
@[simp] theorem endCommand_fault : s.endCommand.fault = s.fault := rfl
@[simp] theorem endCommand_busy : s.endCommand.busy = s.busy := rfl
@[simp] theorem endCommand_kaCount : s.endCommand.kaCount = s.kaCount := rfl
@[simp] theorem endCommand_hostAddr : s.endCommand.hostAddr = s.hostAddr := rfl
@[simp] theorem endCommand_slots : s.endCommand.slots = s.slots := rfl
@[simp] theorem endCommand_expOpcode : s.endCommand.expOpcode = s.expOpcode := rfl
@[simp] theorem endCommand_expSrc : s.endCommand.expSrc = s.expSrc := rfl
@[simp] theorem endCommand_expAny : s.endCommand.expAny = s.expAny := rfl
@[simp] theorem endCommand_resValid : s.endCommand.resValid = s.resValid := rfl
@[simp] theorem endCommand_resHdr : s.endCommand.resHdr = s.resHdr := rfl
@[simp] theorem endCommand_resHasPayload : s.endCommand.resHasPayload = s.resHasPayload := rfl
@[simp] theorem endCommand_resLen : s.endCommand.resLen = s.resLen := rfl
@[simp] theorem endCommand_resPay : s.endCommand.resPay = s.resPay := rfl
@[simp] theorem endCommand_txLen : s.endCommand.txLen = s.txLen := rfl
@[simp] theorem endCommand_txPay : s.endCommand.txPay = s.txPay := rfl
@[simp] theorem endCommand_rxFifo : s.endCommand.rxFifo = s.rxFifo := rfl
@[simp] theorem endCommand_txQ : s.endCommand.txQ = s.txQ := rfl
@[simp] theorem endCommand_warnCount : s.endCommand.warnCount = s.warnCount := rfl
@[simp] theorem endCommand_lastWarnOpcode : s.endCommand.lastWarnOpcode = s.lastWarnOpcode := rfl
@[simp] theorem endCommand_lastWarnSrc : s.endCommand.lastWarnSrc = s.lastWarnSrc := rfl
@[simp] theorem endCommand_lastErr : s.endCommand.lastErr = s.lastErr := rfl
@[simp] theorem endCommand_lastErrCmd : s.endCommand.lastErrCmd = s.lastErrCmd := rfl
@[simp] theorem endCommand_evDone : s.endCommand.evDone = s.evDone := rfl
@[simp] theorem endCommand_evHomed : s.endCommand.evHomed = s.evHomed := rfl
@[simp] theorem endCommand_port : s.endCommand.port = none := rfl
@[simp] theorem endCommand_responses : s.endCommand.responses = s.responses := rfl
@[simp] theorem endCommand_line : s.endCommand.line = s.line := rfl
@[simp] theorem endCommand_cfg : s.endCommand.cfg = s.cfg := rfl
@[simp] theorem endCommand_opens : s.endCommand.opens = s.opens := rfl
@[simp] theorem endCommand_schedule : s.endCommand.schedule = s.schedule := rfl
@[simp] theorem endCommand_draws : s.endCommand.draws = s.draws := rfl
@[simp] theorem endCommand_epoch : s.endCommand.epoch = s.epoch := rfl

/-! ## `finish` -/

@[simp] theorem finish_linkOpen (cmd : Byte) (d : BitVec 64) : (s.finish cmd d).linkOpen = s.linkOpen := rfl
@[simp] theorem finish_poisoned (cmd : Byte) (d : BitVec 64) : (s.finish cmd d).poisoned = s.poisoned := rfl
@[simp] theorem finish_fault (cmd : Byte) (d : BitVec 64) : (s.finish cmd d).fault = s.fault := rfl
@[simp] theorem finish_busy (cmd : Byte) (d : BitVec 64) : (s.finish cmd d).busy = s.busy := rfl
@[simp] theorem finish_kaCount (cmd : Byte) (d : BitVec 64) : (s.finish cmd d).kaCount = s.kaCount := rfl
@[simp] theorem finish_hostAddr (cmd : Byte) (d : BitVec 64) : (s.finish cmd d).hostAddr = s.hostAddr := rfl
@[simp] theorem finish_slots (cmd : Byte) (d : BitVec 64) : (s.finish cmd d).slots = s.slots := rfl
@[simp] theorem finish_expOpcode (cmd : Byte) (d : BitVec 64) : (s.finish cmd d).expOpcode = s.expOpcode := rfl
@[simp] theorem finish_expSrc (cmd : Byte) (d : BitVec 64) : (s.finish cmd d).expSrc = s.expSrc := rfl
@[simp] theorem finish_expAny (cmd : Byte) (d : BitVec 64) : (s.finish cmd d).expAny = s.expAny := rfl
@[simp] theorem finish_resValid (cmd : Byte) (d : BitVec 64) : (s.finish cmd d).resValid = s.resValid := rfl
@[simp] theorem finish_resHdr (cmd : Byte) (d : BitVec 64) : (s.finish cmd d).resHdr = s.resHdr := rfl
@[simp] theorem finish_resHasPayload (cmd : Byte) (d : BitVec 64) : (s.finish cmd d).resHasPayload = s.resHasPayload := rfl
@[simp] theorem finish_resLen (cmd : Byte) (d : BitVec 64) : (s.finish cmd d).resLen = s.resLen := rfl
@[simp] theorem finish_resPay (cmd : Byte) (d : BitVec 64) : (s.finish cmd d).resPay = s.resPay := rfl
@[simp] theorem finish_txLen (cmd : Byte) (d : BitVec 64) : (s.finish cmd d).txLen = s.txLen := rfl
@[simp] theorem finish_txPay (cmd : Byte) (d : BitVec 64) : (s.finish cmd d).txPay = s.txPay := rfl
@[simp] theorem finish_rxFifo (cmd : Byte) (d : BitVec 64) : (s.finish cmd d).rxFifo = s.rxFifo := rfl
@[simp] theorem finish_txQ (cmd : Byte) (d : BitVec 64) : (s.finish cmd d).txQ = s.txQ := rfl
@[simp] theorem finish_warnCount (cmd : Byte) (d : BitVec 64) : (s.finish cmd d).warnCount = s.warnCount := rfl
@[simp] theorem finish_lastWarnOpcode (cmd : Byte) (d : BitVec 64) : (s.finish cmd d).lastWarnOpcode = s.lastWarnOpcode := rfl
@[simp] theorem finish_lastWarnSrc (cmd : Byte) (d : BitVec 64) : (s.finish cmd d).lastWarnSrc = s.lastWarnSrc := rfl
@[simp] theorem finish_lastErr (cmd : Byte) (d : BitVec 64) : (s.finish cmd d).lastErr = s.lastErr := rfl
@[simp] theorem finish_lastErrCmd (cmd : Byte) (d : BitVec 64) : (s.finish cmd d).lastErrCmd = s.lastErrCmd := rfl
@[simp] theorem finish_evDone (cmd : Byte) (d : BitVec 64) : (s.finish cmd d).evDone = s.evDone := rfl
@[simp] theorem finish_evHomed (cmd : Byte) (d : BitVec 64) : (s.finish cmd d).evHomed = s.evHomed := rfl
@[simp] theorem finish_port (cmd : Byte) (d : BitVec 64) : (s.finish cmd d).port = none := rfl
@[simp] theorem finish_responses (cmd : Byte) (d : BitVec 64) : (s.finish cmd d).responses = s.responses ++ [⟨cmd, .ok, d⟩] := rfl
@[simp] theorem finish_line (cmd : Byte) (d : BitVec 64) : (s.finish cmd d).line = s.line := rfl
@[simp] theorem finish_cfg (cmd : Byte) (d : BitVec 64) : (s.finish cmd d).cfg = s.cfg := rfl
@[simp] theorem finish_opens (cmd : Byte) (d : BitVec 64) : (s.finish cmd d).opens = s.opens := rfl
@[simp] theorem finish_schedule (cmd : Byte) (d : BitVec 64) : (s.finish cmd d).schedule = s.schedule := rfl
@[simp] theorem finish_draws (cmd : Byte) (d : BitVec 64) : (s.finish cmd d).draws = s.draws := rfl
@[simp] theorem finish_epoch (cmd : Byte) (d : BitVec 64) : (s.finish cmd d).epoch = s.epoch := rfl

/-! ## `record` -/

@[simp] theorem record_linkOpen (cmd : Byte) (e : ErrorCode) : (s.record cmd e).linkOpen = s.linkOpen := rfl
@[simp] theorem record_poisoned (cmd : Byte) (e : ErrorCode) : (s.record cmd e).poisoned = (s.poisoned || e.isLink) := rfl
@[simp] theorem record_fault (cmd : Byte) (e : ErrorCode) : (s.record cmd e).fault = (s.fault || e.isContract) := rfl
@[simp] theorem record_busy (cmd : Byte) (e : ErrorCode) : (s.record cmd e).busy = s.busy := rfl
@[simp] theorem record_kaCount (cmd : Byte) (e : ErrorCode) : (s.record cmd e).kaCount = s.kaCount := rfl
@[simp] theorem record_hostAddr (cmd : Byte) (e : ErrorCode) : (s.record cmd e).hostAddr = s.hostAddr := rfl
@[simp] theorem record_slots (cmd : Byte) (e : ErrorCode) : (s.record cmd e).slots = s.slots := rfl
@[simp] theorem record_expOpcode (cmd : Byte) (e : ErrorCode) : (s.record cmd e).expOpcode = s.expOpcode := rfl
@[simp] theorem record_expSrc (cmd : Byte) (e : ErrorCode) : (s.record cmd e).expSrc = s.expSrc := rfl
@[simp] theorem record_expAny (cmd : Byte) (e : ErrorCode) : (s.record cmd e).expAny = s.expAny := rfl
@[simp] theorem record_resValid (cmd : Byte) (e : ErrorCode) : (s.record cmd e).resValid = s.resValid := rfl
@[simp] theorem record_resHdr (cmd : Byte) (e : ErrorCode) : (s.record cmd e).resHdr = s.resHdr := rfl
@[simp] theorem record_resHasPayload (cmd : Byte) (e : ErrorCode) : (s.record cmd e).resHasPayload = s.resHasPayload := rfl
@[simp] theorem record_resLen (cmd : Byte) (e : ErrorCode) : (s.record cmd e).resLen = s.resLen := rfl
@[simp] theorem record_resPay (cmd : Byte) (e : ErrorCode) : (s.record cmd e).resPay = s.resPay := rfl
@[simp] theorem record_txLen (cmd : Byte) (e : ErrorCode) : (s.record cmd e).txLen = s.txLen := rfl
@[simp] theorem record_txPay (cmd : Byte) (e : ErrorCode) : (s.record cmd e).txPay = s.txPay := rfl
@[simp] theorem record_rxFifo (cmd : Byte) (e : ErrorCode) : (s.record cmd e).rxFifo = s.rxFifo := rfl
@[simp] theorem record_txQ (cmd : Byte) (e : ErrorCode) : (s.record cmd e).txQ = s.txQ := rfl
@[simp] theorem record_warnCount (cmd : Byte) (e : ErrorCode) : (s.record cmd e).warnCount = s.warnCount := rfl
@[simp] theorem record_lastWarnOpcode (cmd : Byte) (e : ErrorCode) : (s.record cmd e).lastWarnOpcode = s.lastWarnOpcode := rfl
@[simp] theorem record_lastWarnSrc (cmd : Byte) (e : ErrorCode) : (s.record cmd e).lastWarnSrc = s.lastWarnSrc := rfl
@[simp] theorem record_lastErr (cmd : Byte) (e : ErrorCode) : (s.record cmd e).lastErr = if e.recorded then e.code else s.lastErr := rfl
@[simp] theorem record_lastErrCmd (cmd : Byte) (e : ErrorCode) : (s.record cmd e).lastErrCmd = if e.recorded then cmd else s.lastErrCmd := rfl
@[simp] theorem record_evDone (cmd : Byte) (e : ErrorCode) : (s.record cmd e).evDone = s.evDone := rfl
@[simp] theorem record_evHomed (cmd : Byte) (e : ErrorCode) : (s.record cmd e).evHomed = s.evHomed := rfl
@[simp] theorem record_port (cmd : Byte) (e : ErrorCode) : (s.record cmd e).port = s.port := rfl
@[simp] theorem record_responses (cmd : Byte) (e : ErrorCode) : (s.record cmd e).responses = s.responses := rfl
@[simp] theorem record_line (cmd : Byte) (e : ErrorCode) : (s.record cmd e).line = s.line := rfl
@[simp] theorem record_cfg (cmd : Byte) (e : ErrorCode) : (s.record cmd e).cfg = s.cfg := rfl
@[simp] theorem record_opens (cmd : Byte) (e : ErrorCode) : (s.record cmd e).opens = s.opens := rfl
@[simp] theorem record_schedule (cmd : Byte) (e : ErrorCode) : (s.record cmd e).schedule = s.schedule := rfl
@[simp] theorem record_draws (cmd : Byte) (e : ErrorCode) : (s.record cmd e).draws = s.draws := rfl
@[simp] theorem record_epoch (cmd : Byte) (e : ErrorCode) : (s.record cmd e).epoch = s.epoch := rfl

/-! ## `raise` -/

@[simp] theorem raise_linkOpen (cmd : Byte) (e : ErrorCode) : (s.raise cmd e).linkOpen = s.linkOpen := rfl
@[simp] theorem raise_poisoned (cmd : Byte) (e : ErrorCode) : (s.raise cmd e).poisoned = (s.poisoned || e.isLink) := rfl
@[simp] theorem raise_fault (cmd : Byte) (e : ErrorCode) : (s.raise cmd e).fault = (s.fault || e.isContract) := rfl
@[simp] theorem raise_busy (cmd : Byte) (e : ErrorCode) : (s.raise cmd e).busy = s.busy := rfl
@[simp] theorem raise_kaCount (cmd : Byte) (e : ErrorCode) : (s.raise cmd e).kaCount = s.kaCount := rfl
@[simp] theorem raise_hostAddr (cmd : Byte) (e : ErrorCode) : (s.raise cmd e).hostAddr = s.hostAddr := rfl
@[simp] theorem raise_slots (cmd : Byte) (e : ErrorCode) : (s.raise cmd e).slots = s.slots := rfl
@[simp] theorem raise_expOpcode (cmd : Byte) (e : ErrorCode) : (s.raise cmd e).expOpcode = s.expOpcode := rfl
@[simp] theorem raise_expSrc (cmd : Byte) (e : ErrorCode) : (s.raise cmd e).expSrc = s.expSrc := rfl
@[simp] theorem raise_expAny (cmd : Byte) (e : ErrorCode) : (s.raise cmd e).expAny = s.expAny := rfl
@[simp] theorem raise_resValid (cmd : Byte) (e : ErrorCode) : (s.raise cmd e).resValid = s.resValid := rfl
@[simp] theorem raise_resHdr (cmd : Byte) (e : ErrorCode) : (s.raise cmd e).resHdr = s.resHdr := rfl
@[simp] theorem raise_resHasPayload (cmd : Byte) (e : ErrorCode) : (s.raise cmd e).resHasPayload = s.resHasPayload := rfl
@[simp] theorem raise_resLen (cmd : Byte) (e : ErrorCode) : (s.raise cmd e).resLen = s.resLen := rfl
@[simp] theorem raise_resPay (cmd : Byte) (e : ErrorCode) : (s.raise cmd e).resPay = s.resPay := rfl
@[simp] theorem raise_txLen (cmd : Byte) (e : ErrorCode) : (s.raise cmd e).txLen = s.txLen := rfl
@[simp] theorem raise_txPay (cmd : Byte) (e : ErrorCode) : (s.raise cmd e).txPay = s.txPay := rfl
@[simp] theorem raise_rxFifo (cmd : Byte) (e : ErrorCode) : (s.raise cmd e).rxFifo = s.rxFifo := rfl
@[simp] theorem raise_txQ (cmd : Byte) (e : ErrorCode) : (s.raise cmd e).txQ = s.txQ := rfl
@[simp] theorem raise_warnCount (cmd : Byte) (e : ErrorCode) : (s.raise cmd e).warnCount = s.warnCount := rfl
@[simp] theorem raise_lastWarnOpcode (cmd : Byte) (e : ErrorCode) : (s.raise cmd e).lastWarnOpcode = s.lastWarnOpcode := rfl
@[simp] theorem raise_lastWarnSrc (cmd : Byte) (e : ErrorCode) : (s.raise cmd e).lastWarnSrc = s.lastWarnSrc := rfl
@[simp] theorem raise_lastErr (cmd : Byte) (e : ErrorCode) : (s.raise cmd e).lastErr = if e.recorded then e.code else s.lastErr := rfl
@[simp] theorem raise_lastErrCmd (cmd : Byte) (e : ErrorCode) : (s.raise cmd e).lastErrCmd = if e.recorded then cmd else s.lastErrCmd := rfl
@[simp] theorem raise_evDone (cmd : Byte) (e : ErrorCode) : (s.raise cmd e).evDone = s.evDone := rfl
@[simp] theorem raise_evHomed (cmd : Byte) (e : ErrorCode) : (s.raise cmd e).evHomed = s.evHomed := rfl
@[simp] theorem raise_port (cmd : Byte) (e : ErrorCode) : (s.raise cmd e).port = none := rfl
@[simp] theorem raise_responses (cmd : Byte) (e : ErrorCode) : (s.raise cmd e).responses = s.responses ++ [⟨cmd, e, 0⟩] := rfl
@[simp] theorem raise_line (cmd : Byte) (e : ErrorCode) : (s.raise cmd e).line = s.line := rfl
@[simp] theorem raise_cfg (cmd : Byte) (e : ErrorCode) : (s.raise cmd e).cfg = s.cfg := rfl
@[simp] theorem raise_opens (cmd : Byte) (e : ErrorCode) : (s.raise cmd e).opens = s.opens := rfl
@[simp] theorem raise_schedule (cmd : Byte) (e : ErrorCode) : (s.raise cmd e).schedule = s.schedule := rfl
@[simp] theorem raise_draws (cmd : Byte) (e : ErrorCode) : (s.raise cmd e).draws = s.draws := rfl
@[simp] theorem raise_epoch (cmd : Byte) (e : ErrorCode) : (s.raise cmd e).epoch = s.epoch := rfl

/-! ## `applyReset` -/

@[simp] theorem applyReset_linkOpen : s.applyReset.linkOpen = false := rfl
@[simp] theorem applyReset_poisoned : s.applyReset.poisoned = false := rfl
@[simp] theorem applyReset_fault : s.applyReset.fault = false := rfl
@[simp] theorem applyReset_busy : s.applyReset.busy = false := rfl
@[simp] theorem applyReset_kaCount : s.applyReset.kaCount = 0 := rfl
@[simp] theorem applyReset_hostAddr : s.applyReset.hostAddr = 0 := rfl
@[simp] theorem applyReset_slots : s.applyReset.slots = emptySlots s.cfg.nKa := rfl
@[simp] theorem applyReset_expOpcode : s.applyReset.expOpcode = 0 := rfl
@[simp] theorem applyReset_expSrc : s.applyReset.expSrc = 0 := rfl
@[simp] theorem applyReset_expAny : s.applyReset.expAny = false := rfl
@[simp] theorem applyReset_resValid : s.applyReset.resValid = false := rfl
@[simp] theorem applyReset_resHdr : s.applyReset.resHdr = ⟨0, 0, 0, 0, 0, 0⟩ := rfl
@[simp] theorem applyReset_resHasPayload : s.applyReset.resHasPayload = false := rfl
@[simp] theorem applyReset_resLen : s.applyReset.resLen = 0 := rfl
@[simp] theorem applyReset_resPay : s.applyReset.resPay = [] := rfl
@[simp] theorem applyReset_txLen : s.applyReset.txLen = 0 := rfl
@[simp] theorem applyReset_txPay : s.applyReset.txPay = [] := rfl
@[simp] theorem applyReset_rxFifo : s.applyReset.rxFifo = [] := rfl
@[simp] theorem applyReset_txQ : s.applyReset.txQ = [] := rfl
@[simp] theorem applyReset_warnCount : s.applyReset.warnCount = 0 := rfl
@[simp] theorem applyReset_lastWarnOpcode : s.applyReset.lastWarnOpcode = 0 := rfl
@[simp] theorem applyReset_lastWarnSrc : s.applyReset.lastWarnSrc = 0 := rfl
@[simp] theorem applyReset_lastErr : s.applyReset.lastErr = 0 := rfl
@[simp] theorem applyReset_lastErrCmd : s.applyReset.lastErrCmd = 0 := rfl
@[simp] theorem applyReset_evDone : s.applyReset.evDone = 0 := rfl
@[simp] theorem applyReset_evHomed : s.applyReset.evHomed = 0 := rfl
@[simp] theorem applyReset_port : s.applyReset.port = s.port := rfl
@[simp] theorem applyReset_responses : s.applyReset.responses = s.responses := rfl
@[simp] theorem applyReset_line : s.applyReset.line = s.line := rfl
@[simp] theorem applyReset_cfg : s.applyReset.cfg = s.cfg := rfl
@[simp] theorem applyReset_opens : s.applyReset.opens = s.opens := rfl
@[simp] theorem applyReset_schedule : s.applyReset.schedule = s.schedule := rfl
@[simp] theorem applyReset_draws : s.applyReset.draws = s.draws := rfl
@[simp] theorem applyReset_epoch : s.applyReset.epoch = s.epoch + 1 := rfl

/-! ## `resetInput` -/

@[simp] theorem resetInput_linkOpen : s.resetInput.linkOpen = false := rfl
@[simp] theorem resetInput_poisoned : s.resetInput.poisoned = false := rfl
@[simp] theorem resetInput_fault : s.resetInput.fault = false := rfl
@[simp] theorem resetInput_busy : s.resetInput.busy = false := rfl
@[simp] theorem resetInput_kaCount : s.resetInput.kaCount = 0 := rfl
@[simp] theorem resetInput_hostAddr : s.resetInput.hostAddr = 0 := rfl
@[simp] theorem resetInput_slots : s.resetInput.slots = emptySlots s.cfg.nKa := rfl
@[simp] theorem resetInput_expOpcode : s.resetInput.expOpcode = 0 := rfl
@[simp] theorem resetInput_expSrc : s.resetInput.expSrc = 0 := rfl
@[simp] theorem resetInput_expAny : s.resetInput.expAny = false := rfl
@[simp] theorem resetInput_resValid : s.resetInput.resValid = false := rfl
@[simp] theorem resetInput_resHdr : s.resetInput.resHdr = ⟨0, 0, 0, 0, 0, 0⟩ := rfl
@[simp] theorem resetInput_resHasPayload : s.resetInput.resHasPayload = false := rfl
@[simp] theorem resetInput_resLen : s.resetInput.resLen = 0 := rfl
@[simp] theorem resetInput_resPay : s.resetInput.resPay = [] := rfl
@[simp] theorem resetInput_txLen : s.resetInput.txLen = 0 := rfl
@[simp] theorem resetInput_txPay : s.resetInput.txPay = [] := rfl
@[simp] theorem resetInput_rxFifo : s.resetInput.rxFifo = [] := rfl
@[simp] theorem resetInput_txQ : s.resetInput.txQ = [] := rfl
@[simp] theorem resetInput_warnCount : s.resetInput.warnCount = 0 := rfl
@[simp] theorem resetInput_lastWarnOpcode : s.resetInput.lastWarnOpcode = 0 := rfl
@[simp] theorem resetInput_lastWarnSrc : s.resetInput.lastWarnSrc = 0 := rfl
@[simp] theorem resetInput_lastErr : s.resetInput.lastErr = 0 := rfl
@[simp] theorem resetInput_lastErrCmd : s.resetInput.lastErrCmd = 0 := rfl
@[simp] theorem resetInput_evDone : s.resetInput.evDone = 0 := rfl
@[simp] theorem resetInput_evHomed : s.resetInput.evHomed = 0 := rfl
@[simp] theorem resetInput_port : s.resetInput.port = none := rfl
@[simp] theorem resetInput_responses : s.resetInput.responses = s.responses := rfl
@[simp] theorem resetInput_line : s.resetInput.line = s.line := rfl
@[simp] theorem resetInput_cfg : s.resetInput.cfg = s.cfg := rfl
@[simp] theorem resetInput_opens : s.resetInput.opens = s.opens := rfl
@[simp] theorem resetInput_schedule : s.resetInput.schedule = s.schedule := rfl
@[simp] theorem resetInput_draws : s.resetInput.draws = s.draws := rfl
@[simp] theorem resetInput_epoch : s.resetInput.epoch = s.epoch + 1 := rfl

/-! ## `loadResult` -/

@[simp] theorem loadResult_linkOpen (f : Frame) : (s.loadResult f).linkOpen = s.linkOpen := rfl
@[simp] theorem loadResult_poisoned (f : Frame) : (s.loadResult f).poisoned = s.poisoned := rfl
@[simp] theorem loadResult_fault (f : Frame) : (s.loadResult f).fault = s.fault := rfl
@[simp] theorem loadResult_busy (f : Frame) : (s.loadResult f).busy = s.busy := rfl
@[simp] theorem loadResult_kaCount (f : Frame) : (s.loadResult f).kaCount = s.kaCount := rfl
@[simp] theorem loadResult_hostAddr (f : Frame) : (s.loadResult f).hostAddr = s.hostAddr := rfl
@[simp] theorem loadResult_slots (f : Frame) : (s.loadResult f).slots = s.slots := rfl
@[simp] theorem loadResult_expOpcode (f : Frame) : (s.loadResult f).expOpcode = s.expOpcode := rfl
@[simp] theorem loadResult_expSrc (f : Frame) : (s.loadResult f).expSrc = s.expSrc := rfl
@[simp] theorem loadResult_expAny (f : Frame) : (s.loadResult f).expAny = s.expAny := rfl
@[simp] theorem loadResult_resValid (f : Frame) : (s.loadResult f).resValid = true := rfl
@[simp] theorem loadResult_resHdr (f : Frame) : (s.loadResult f).resHdr = f.hdr := rfl
@[simp] theorem loadResult_resHasPayload (f : Frame) : (s.loadResult f).resHasPayload = f.hdr.hasPayload := rfl
@[simp] theorem loadResult_resLen (f : Frame) : (s.loadResult f).resLen = f.hdr.payLen := rfl
@[simp] theorem loadResult_resPay (f : Frame) : (s.loadResult f).resPay = Memory.writeAll s.resPay 0 (f.pay.take f.hdr.payLen.toNat) := rfl
@[simp] theorem loadResult_txLen (f : Frame) : (s.loadResult f).txLen = s.txLen := rfl
@[simp] theorem loadResult_txPay (f : Frame) : (s.loadResult f).txPay = s.txPay := rfl
@[simp] theorem loadResult_rxFifo (f : Frame) : (s.loadResult f).rxFifo = s.rxFifo := rfl
@[simp] theorem loadResult_txQ (f : Frame) : (s.loadResult f).txQ = s.txQ := rfl
@[simp] theorem loadResult_warnCount (f : Frame) : (s.loadResult f).warnCount = s.warnCount := rfl
@[simp] theorem loadResult_lastWarnOpcode (f : Frame) : (s.loadResult f).lastWarnOpcode = s.lastWarnOpcode := rfl
@[simp] theorem loadResult_lastWarnSrc (f : Frame) : (s.loadResult f).lastWarnSrc = s.lastWarnSrc := rfl
@[simp] theorem loadResult_lastErr (f : Frame) : (s.loadResult f).lastErr = s.lastErr := rfl
@[simp] theorem loadResult_lastErrCmd (f : Frame) : (s.loadResult f).lastErrCmd = s.lastErrCmd := rfl
@[simp] theorem loadResult_evDone (f : Frame) : (s.loadResult f).evDone = s.evDone := rfl
@[simp] theorem loadResult_evHomed (f : Frame) : (s.loadResult f).evHomed = s.evHomed := rfl
@[simp] theorem loadResult_port (f : Frame) : (s.loadResult f).port = s.port := rfl
@[simp] theorem loadResult_responses (f : Frame) : (s.loadResult f).responses = s.responses := rfl
@[simp] theorem loadResult_line (f : Frame) : (s.loadResult f).line = s.line := rfl
@[simp] theorem loadResult_cfg (f : Frame) : (s.loadResult f).cfg = s.cfg := rfl
@[simp] theorem loadResult_opens (f : Frame) : (s.loadResult f).opens = s.opens := rfl
@[simp] theorem loadResult_schedule (f : Frame) : (s.loadResult f).schedule = s.schedule := rfl
@[simp] theorem loadResult_draws (f : Frame) : (s.loadResult f).draws = s.draws := rfl
@[simp] theorem loadResult_epoch (f : Frame) : (s.loadResult f).epoch = s.epoch := rfl

/-! ## `popFrame` -/

@[simp] theorem popFrame_linkOpen (f : Frame) : (s.popFrame f).linkOpen = s.linkOpen := rfl
@[simp] theorem popFrame_poisoned (f : Frame) : (s.popFrame f).poisoned = s.poisoned := rfl
@[simp] theorem popFrame_fault (f : Frame) : (s.popFrame f).fault = s.fault := rfl
@[simp] theorem popFrame_busy (f : Frame) : (s.popFrame f).busy = s.busy := rfl
@[simp] theorem popFrame_kaCount (f : Frame) : (s.popFrame f).kaCount = s.kaCount := rfl
@[simp] theorem popFrame_hostAddr (f : Frame) : (s.popFrame f).hostAddr = s.hostAddr := rfl
@[simp] theorem popFrame_slots (f : Frame) : (s.popFrame f).slots = s.slots := rfl
@[simp] theorem popFrame_expOpcode (f : Frame) : (s.popFrame f).expOpcode = s.expOpcode := rfl
@[simp] theorem popFrame_expSrc (f : Frame) : (s.popFrame f).expSrc = s.expSrc := rfl
@[simp] theorem popFrame_expAny (f : Frame) : (s.popFrame f).expAny = s.expAny := rfl
@[simp] theorem popFrame_resValid (f : Frame) : (s.popFrame f).resValid = s.resValid := rfl
@[simp] theorem popFrame_resHdr (f : Frame) : (s.popFrame f).resHdr = s.resHdr := rfl
@[simp] theorem popFrame_resHasPayload (f : Frame) : (s.popFrame f).resHasPayload = s.resHasPayload := rfl
@[simp] theorem popFrame_resLen (f : Frame) : (s.popFrame f).resLen = s.resLen := rfl
@[simp] theorem popFrame_resPay (f : Frame) : (s.popFrame f).resPay = s.resPay := rfl
@[simp] theorem popFrame_txLen (f : Frame) : (s.popFrame f).txLen = s.txLen := rfl
@[simp] theorem popFrame_txPay (f : Frame) : (s.popFrame f).txPay = s.txPay := rfl
@[simp] theorem popFrame_rxFifo (f : Frame) : (s.popFrame f).rxFifo = s.rxFifo.drop f.bytes.length := rfl
@[simp] theorem popFrame_txQ (f : Frame) : (s.popFrame f).txQ = s.txQ := rfl
@[simp] theorem popFrame_warnCount (f : Frame) : (s.popFrame f).warnCount = s.warnCount := rfl
@[simp] theorem popFrame_lastWarnOpcode (f : Frame) : (s.popFrame f).lastWarnOpcode = s.lastWarnOpcode := rfl
@[simp] theorem popFrame_lastWarnSrc (f : Frame) : (s.popFrame f).lastWarnSrc = s.lastWarnSrc := rfl
@[simp] theorem popFrame_lastErr (f : Frame) : (s.popFrame f).lastErr = s.lastErr := rfl
@[simp] theorem popFrame_lastErrCmd (f : Frame) : (s.popFrame f).lastErrCmd = s.lastErrCmd := rfl
@[simp] theorem popFrame_evDone (f : Frame) : (s.popFrame f).evDone = s.evDone := rfl
@[simp] theorem popFrame_evHomed (f : Frame) : (s.popFrame f).evHomed = s.evHomed := rfl
@[simp] theorem popFrame_port (f : Frame) : (s.popFrame f).port = s.port := rfl
@[simp] theorem popFrame_responses (f : Frame) : (s.popFrame f).responses = s.responses := rfl
@[simp] theorem popFrame_line (f : Frame) : (s.popFrame f).line = s.line := rfl
@[simp] theorem popFrame_cfg (f : Frame) : (s.popFrame f).cfg = s.cfg := rfl
@[simp] theorem popFrame_opens (f : Frame) : (s.popFrame f).opens = s.opens := rfl
@[simp] theorem popFrame_schedule (f : Frame) : (s.popFrame f).schedule = s.schedule := rfl
@[simp] theorem popFrame_draws (f : Frame) : (s.popFrame f).draws = s.draws := rfl
@[simp] theorem popFrame_epoch (f : Frame) : (s.popFrame f).epoch = s.epoch := rfl

/-! ## `frameMatch` -/

@[simp] theorem frameMatch_linkOpen (f : Frame) : (s.frameMatch f).linkOpen = s.linkOpen := rfl
@[simp] theorem frameMatch_poisoned (f : Frame) : (s.frameMatch f).poisoned = s.poisoned := rfl
@[simp] theorem frameMatch_fault (f : Frame) : (s.frameMatch f).fault = s.fault := rfl
@[simp] theorem frameMatch_busy (f : Frame) : (s.frameMatch f).busy = false := rfl
@[simp] theorem frameMatch_kaCount (f : Frame) : (s.frameMatch f).kaCount = s.kaCount := rfl
@[simp] theorem frameMatch_hostAddr (f : Frame) : (s.frameMatch f).hostAddr = s.hostAddr := rfl
@[simp] theorem frameMatch_slots (f : Frame) : (s.frameMatch f).slots = s.slots := rfl
@[simp] theorem frameMatch_expOpcode (f : Frame) : (s.frameMatch f).expOpcode = s.expOpcode := rfl
@[simp] theorem frameMatch_expSrc (f : Frame) : (s.frameMatch f).expSrc = s.expSrc := rfl
@[simp] theorem frameMatch_expAny (f : Frame) : (s.frameMatch f).expAny = s.expAny := rfl
@[simp] theorem frameMatch_resValid (f : Frame) : (s.frameMatch f).resValid = true := rfl
@[simp] theorem frameMatch_resHdr (f : Frame) : (s.frameMatch f).resHdr = f.hdr := rfl
@[simp] theorem frameMatch_resHasPayload (f : Frame) : (s.frameMatch f).resHasPayload = f.hdr.hasPayload := rfl
@[simp] theorem frameMatch_resLen (f : Frame) : (s.frameMatch f).resLen = f.hdr.payLen := rfl
@[simp] theorem frameMatch_resPay (f : Frame) : (s.frameMatch f).resPay = Memory.writeAll s.resPay 0 (f.pay.take f.hdr.payLen.toNat) := rfl
@[simp] theorem frameMatch_txLen (f : Frame) : (s.frameMatch f).txLen = s.txLen := rfl
@[simp] theorem frameMatch_txPay (f : Frame) : (s.frameMatch f).txPay = s.txPay := rfl
@[simp] theorem frameMatch_rxFifo (f : Frame) : (s.frameMatch f).rxFifo = s.rxFifo := rfl
@[simp] theorem frameMatch_txQ (f : Frame) : (s.frameMatch f).txQ = s.txQ := rfl
@[simp] theorem frameMatch_warnCount (f : Frame) : (s.frameMatch f).warnCount = s.warnCount := rfl
@[simp] theorem frameMatch_lastWarnOpcode (f : Frame) : (s.frameMatch f).lastWarnOpcode = s.lastWarnOpcode := rfl
@[simp] theorem frameMatch_lastWarnSrc (f : Frame) : (s.frameMatch f).lastWarnSrc = s.lastWarnSrc := rfl
@[simp] theorem frameMatch_lastErr (f : Frame) : (s.frameMatch f).lastErr = s.lastErr := rfl
@[simp] theorem frameMatch_lastErrCmd (f : Frame) : (s.frameMatch f).lastErrCmd = s.lastErrCmd := rfl
@[simp] theorem frameMatch_evDone (f : Frame) : (s.frameMatch f).evDone = s.evDone := rfl
@[simp] theorem frameMatch_evHomed (f : Frame) : (s.frameMatch f).evHomed = s.evHomed := rfl
@[simp] theorem frameMatch_port (f : Frame) : (s.frameMatch f).port = s.port := rfl
@[simp] theorem frameMatch_responses (f : Frame) : (s.frameMatch f).responses = s.responses ++ [⟨cmdRead, .ok, frameData f.hdr⟩] := rfl
@[simp] theorem frameMatch_line (f : Frame) : (s.frameMatch f).line = s.line := rfl
@[simp] theorem frameMatch_cfg (f : Frame) : (s.frameMatch f).cfg = s.cfg := rfl
@[simp] theorem frameMatch_opens (f : Frame) : (s.frameMatch f).opens = s.opens := rfl
@[simp] theorem frameMatch_schedule (f : Frame) : (s.frameMatch f).schedule = s.schedule := rfl
@[simp] theorem frameMatch_draws (f : Frame) : (s.frameMatch f).draws = s.draws := rfl
@[simp] theorem frameMatch_epoch (f : Frame) : (s.frameMatch f).epoch = s.epoch := rfl

/-! ## `frameEvent` -/

@[simp] theorem frameEvent_linkOpen (f : Frame) : (s.frameEvent f).linkOpen = s.linkOpen := rfl
@[simp] theorem frameEvent_poisoned (f : Frame) : (s.frameEvent f).poisoned = s.poisoned := rfl
@[simp] theorem frameEvent_fault (f : Frame) : (s.frameEvent f).fault = s.fault := rfl
@[simp] theorem frameEvent_busy (f : Frame) : (s.frameEvent f).busy = s.busy := rfl
@[simp] theorem frameEvent_kaCount (f : Frame) : (s.frameEvent f).kaCount = s.kaCount := rfl
@[simp] theorem frameEvent_hostAddr (f : Frame) : (s.frameEvent f).hostAddr = s.hostAddr := rfl
@[simp] theorem frameEvent_slots (f : Frame) : (s.frameEvent f).slots = s.slots := rfl
@[simp] theorem frameEvent_expOpcode (f : Frame) : (s.frameEvent f).expOpcode = s.expOpcode := rfl
@[simp] theorem frameEvent_expSrc (f : Frame) : (s.frameEvent f).expSrc = s.expSrc := rfl
@[simp] theorem frameEvent_expAny (f : Frame) : (s.frameEvent f).expAny = s.expAny := rfl
@[simp] theorem frameEvent_resValid (f : Frame) : (s.frameEvent f).resValid = s.resValid := rfl
@[simp] theorem frameEvent_resHdr (f : Frame) : (s.frameEvent f).resHdr = s.resHdr := rfl
@[simp] theorem frameEvent_resHasPayload (f : Frame) : (s.frameEvent f).resHasPayload = s.resHasPayload := rfl
@[simp] theorem frameEvent_resLen (f : Frame) : (s.frameEvent f).resLen = s.resLen := rfl
@[simp] theorem frameEvent_resPay (f : Frame) : (s.frameEvent f).resPay = s.resPay := rfl
@[simp] theorem frameEvent_txLen (f : Frame) : (s.frameEvent f).txLen = s.txLen := rfl
@[simp] theorem frameEvent_txPay (f : Frame) : (s.frameEvent f).txPay = s.txPay := rfl
@[simp] theorem frameEvent_rxFifo (f : Frame) : (s.frameEvent f).rxFifo = s.rxFifo := rfl
@[simp] theorem frameEvent_txQ (f : Frame) : (s.frameEvent f).txQ = s.txQ := rfl
@[simp] theorem frameEvent_warnCount (f : Frame) : (s.frameEvent f).warnCount = s.warnCount := rfl
@[simp] theorem frameEvent_lastWarnOpcode (f : Frame) : (s.frameEvent f).lastWarnOpcode = s.lastWarnOpcode := rfl
@[simp] theorem frameEvent_lastWarnSrc (f : Frame) : (s.frameEvent f).lastWarnSrc = s.lastWarnSrc := rfl
@[simp] theorem frameEvent_lastErr (f : Frame) : (s.frameEvent f).lastErr = s.lastErr := rfl
@[simp] theorem frameEvent_lastErrCmd (f : Frame) : (s.frameEvent f).lastErrCmd = s.lastErrCmd := rfl
@[simp] theorem frameEvent_evDone (f : Frame) : (s.frameEvent f).evDone = if f.hdr.opcode = s.cfg.opMoveCompleted then s.evDone ||| bitsOf (s.slotsHolding f.hdr.src) else s.evDone := rfl
@[simp] theorem frameEvent_evHomed (f : Frame) : (s.frameEvent f).evHomed = if f.hdr.opcode = s.cfg.opMoveHomed then s.evHomed ||| bitsOf (s.slotsHolding f.hdr.src) else s.evHomed := rfl
@[simp] theorem frameEvent_port (f : Frame) : (s.frameEvent f).port = s.port := rfl
@[simp] theorem frameEvent_responses (f : Frame) : (s.frameEvent f).responses = s.responses := rfl
@[simp] theorem frameEvent_line (f : Frame) : (s.frameEvent f).line = s.line := rfl
@[simp] theorem frameEvent_cfg (f : Frame) : (s.frameEvent f).cfg = s.cfg := rfl
@[simp] theorem frameEvent_opens (f : Frame) : (s.frameEvent f).opens = s.opens := rfl
@[simp] theorem frameEvent_schedule (f : Frame) : (s.frameEvent f).schedule = s.schedule := rfl
@[simp] theorem frameEvent_draws (f : Frame) : (s.frameEvent f).draws = s.draws := rfl
@[simp] theorem frameEvent_epoch (f : Frame) : (s.frameEvent f).epoch = s.epoch := rfl

/-! ## `frameWarn` -/

@[simp] theorem frameWarn_linkOpen (f : Frame) : (s.frameWarn f).linkOpen = s.linkOpen := rfl
@[simp] theorem frameWarn_poisoned (f : Frame) : (s.frameWarn f).poisoned = s.poisoned := rfl
@[simp] theorem frameWarn_fault (f : Frame) : (s.frameWarn f).fault = s.fault := rfl
@[simp] theorem frameWarn_busy (f : Frame) : (s.frameWarn f).busy = s.busy := rfl
@[simp] theorem frameWarn_kaCount (f : Frame) : (s.frameWarn f).kaCount = s.kaCount := rfl
@[simp] theorem frameWarn_hostAddr (f : Frame) : (s.frameWarn f).hostAddr = s.hostAddr := rfl
@[simp] theorem frameWarn_slots (f : Frame) : (s.frameWarn f).slots = s.slots := rfl
@[simp] theorem frameWarn_expOpcode (f : Frame) : (s.frameWarn f).expOpcode = s.expOpcode := rfl
@[simp] theorem frameWarn_expSrc (f : Frame) : (s.frameWarn f).expSrc = s.expSrc := rfl
@[simp] theorem frameWarn_expAny (f : Frame) : (s.frameWarn f).expAny = s.expAny := rfl
@[simp] theorem frameWarn_resValid (f : Frame) : (s.frameWarn f).resValid = s.resValid := rfl
@[simp] theorem frameWarn_resHdr (f : Frame) : (s.frameWarn f).resHdr = s.resHdr := rfl
@[simp] theorem frameWarn_resHasPayload (f : Frame) : (s.frameWarn f).resHasPayload = s.resHasPayload := rfl
@[simp] theorem frameWarn_resLen (f : Frame) : (s.frameWarn f).resLen = s.resLen := rfl
@[simp] theorem frameWarn_resPay (f : Frame) : (s.frameWarn f).resPay = s.resPay := rfl
@[simp] theorem frameWarn_txLen (f : Frame) : (s.frameWarn f).txLen = s.txLen := rfl
@[simp] theorem frameWarn_txPay (f : Frame) : (s.frameWarn f).txPay = s.txPay := rfl
@[simp] theorem frameWarn_rxFifo (f : Frame) : (s.frameWarn f).rxFifo = s.rxFifo := rfl
@[simp] theorem frameWarn_txQ (f : Frame) : (s.frameWarn f).txQ = s.txQ := rfl
@[simp] theorem frameWarn_warnCount (f : Frame) : (s.frameWarn f).warnCount = warnNext s.warnCount := rfl
@[simp] theorem frameWarn_lastWarnOpcode (f : Frame) : (s.frameWarn f).lastWarnOpcode = f.hdr.opcode := rfl
@[simp] theorem frameWarn_lastWarnSrc (f : Frame) : (s.frameWarn f).lastWarnSrc = f.hdr.src := rfl
@[simp] theorem frameWarn_lastErr (f : Frame) : (s.frameWarn f).lastErr = s.lastErr := rfl
@[simp] theorem frameWarn_lastErrCmd (f : Frame) : (s.frameWarn f).lastErrCmd = s.lastErrCmd := rfl
@[simp] theorem frameWarn_evDone (f : Frame) : (s.frameWarn f).evDone = s.evDone := rfl
@[simp] theorem frameWarn_evHomed (f : Frame) : (s.frameWarn f).evHomed = s.evHomed := rfl
@[simp] theorem frameWarn_port (f : Frame) : (s.frameWarn f).port = s.port := rfl
@[simp] theorem frameWarn_responses (f : Frame) : (s.frameWarn f).responses = s.responses := rfl
@[simp] theorem frameWarn_line (f : Frame) : (s.frameWarn f).line = s.line := rfl
@[simp] theorem frameWarn_cfg (f : Frame) : (s.frameWarn f).cfg = s.cfg := rfl
@[simp] theorem frameWarn_opens (f : Frame) : (s.frameWarn f).opens = s.opens := rfl
@[simp] theorem frameWarn_schedule (f : Frame) : (s.frameWarn f).schedule = s.schedule := rfl
@[simp] theorem frameWarn_draws (f : Frame) : (s.frameWarn f).draws = s.draws := rfl
@[simp] theorem frameWarn_epoch (f : Frame) : (s.frameWarn f).epoch = s.epoch := rfl

/-! ## `openLink` -/

@[simp] theorem openLink_linkOpen (b : Byte) : (s.openLink b).linkOpen = true := rfl
@[simp] theorem openLink_poisoned (b : Byte) : (s.openLink b).poisoned = false := rfl
@[simp] theorem openLink_fault (b : Byte) : (s.openLink b).fault = s.fault := rfl
@[simp] theorem openLink_busy (b : Byte) : (s.openLink b).busy = s.busy := rfl
@[simp] theorem openLink_kaCount (b : Byte) : (s.openLink b).kaCount = 0 := rfl
@[simp] theorem openLink_hostAddr (b : Byte) : (s.openLink b).hostAddr = b := rfl
@[simp] theorem openLink_slots (b : Byte) : (s.openLink b).slots = s.slots := rfl
@[simp] theorem openLink_expOpcode (b : Byte) : (s.openLink b).expOpcode = s.expOpcode := rfl
@[simp] theorem openLink_expSrc (b : Byte) : (s.openLink b).expSrc = s.expSrc := rfl
@[simp] theorem openLink_expAny (b : Byte) : (s.openLink b).expAny = s.expAny := rfl
@[simp] theorem openLink_resValid (b : Byte) : (s.openLink b).resValid = s.resValid := rfl
@[simp] theorem openLink_resHdr (b : Byte) : (s.openLink b).resHdr = s.resHdr := rfl
@[simp] theorem openLink_resHasPayload (b : Byte) : (s.openLink b).resHasPayload = s.resHasPayload := rfl
@[simp] theorem openLink_resLen (b : Byte) : (s.openLink b).resLen = s.resLen := rfl
@[simp] theorem openLink_resPay (b : Byte) : (s.openLink b).resPay = s.resPay := rfl
@[simp] theorem openLink_txLen (b : Byte) : (s.openLink b).txLen = s.txLen := rfl
@[simp] theorem openLink_txPay (b : Byte) : (s.openLink b).txPay = s.txPay := rfl
@[simp] theorem openLink_rxFifo (b : Byte) : (s.openLink b).rxFifo = [] := rfl
@[simp] theorem openLink_txQ (b : Byte) : (s.openLink b).txQ = [] := rfl
@[simp] theorem openLink_warnCount (b : Byte) : (s.openLink b).warnCount = s.warnCount := rfl
@[simp] theorem openLink_lastWarnOpcode (b : Byte) : (s.openLink b).lastWarnOpcode = s.lastWarnOpcode := rfl
@[simp] theorem openLink_lastWarnSrc (b : Byte) : (s.openLink b).lastWarnSrc = s.lastWarnSrc := rfl
@[simp] theorem openLink_lastErr (b : Byte) : (s.openLink b).lastErr = s.lastErr := rfl
@[simp] theorem openLink_lastErrCmd (b : Byte) : (s.openLink b).lastErrCmd = s.lastErrCmd := rfl
@[simp] theorem openLink_evDone (b : Byte) : (s.openLink b).evDone = s.evDone := rfl
@[simp] theorem openLink_evHomed (b : Byte) : (s.openLink b).evHomed = s.evHomed := rfl
@[simp] theorem openLink_port (b : Byte) : (s.openLink b).port = s.port := rfl
@[simp] theorem openLink_responses (b : Byte) : (s.openLink b).responses = s.responses := rfl
@[simp] theorem openLink_line (b : Byte) : (s.openLink b).line = s.line := rfl
@[simp] theorem openLink_cfg (b : Byte) : (s.openLink b).cfg = s.cfg := rfl
@[simp] theorem openLink_opens (b : Byte) : (s.openLink b).opens = s.opens ++ [s.line.length] := rfl
@[simp] theorem openLink_schedule (b : Byte) : (s.openLink b).schedule = s.schedule := rfl
@[simp] theorem openLink_draws (b : Byte) : (s.openLink b).draws = s.draws := rfl
@[simp] theorem openLink_epoch (b : Byte) : (s.openLink b).epoch = s.epoch := rfl

/-! ## `closeLink` -/

@[simp] theorem closeLink_linkOpen : s.closeLink.linkOpen = false := rfl
@[simp] theorem closeLink_poisoned : s.closeLink.poisoned = s.poisoned := rfl
@[simp] theorem closeLink_fault : s.closeLink.fault = s.fault := rfl
@[simp] theorem closeLink_busy : s.closeLink.busy = s.busy := rfl
@[simp] theorem closeLink_kaCount : s.closeLink.kaCount = s.kaCount := rfl
@[simp] theorem closeLink_hostAddr : s.closeLink.hostAddr = s.hostAddr := rfl
@[simp] theorem closeLink_slots : s.closeLink.slots = s.slots := rfl
@[simp] theorem closeLink_expOpcode : s.closeLink.expOpcode = s.expOpcode := rfl
@[simp] theorem closeLink_expSrc : s.closeLink.expSrc = s.expSrc := rfl
@[simp] theorem closeLink_expAny : s.closeLink.expAny = s.expAny := rfl
@[simp] theorem closeLink_resValid : s.closeLink.resValid = s.resValid := rfl
@[simp] theorem closeLink_resHdr : s.closeLink.resHdr = s.resHdr := rfl
@[simp] theorem closeLink_resHasPayload : s.closeLink.resHasPayload = s.resHasPayload := rfl
@[simp] theorem closeLink_resLen : s.closeLink.resLen = s.resLen := rfl
@[simp] theorem closeLink_resPay : s.closeLink.resPay = s.resPay := rfl
@[simp] theorem closeLink_txLen : s.closeLink.txLen = s.txLen := rfl
@[simp] theorem closeLink_txPay : s.closeLink.txPay = s.txPay := rfl
@[simp] theorem closeLink_rxFifo : s.closeLink.rxFifo = [] := rfl
@[simp] theorem closeLink_txQ : s.closeLink.txQ = [] := rfl
@[simp] theorem closeLink_warnCount : s.closeLink.warnCount = s.warnCount := rfl
@[simp] theorem closeLink_lastWarnOpcode : s.closeLink.lastWarnOpcode = s.lastWarnOpcode := rfl
@[simp] theorem closeLink_lastWarnSrc : s.closeLink.lastWarnSrc = s.lastWarnSrc := rfl
@[simp] theorem closeLink_lastErr : s.closeLink.lastErr = s.lastErr := rfl
@[simp] theorem closeLink_lastErrCmd : s.closeLink.lastErrCmd = s.lastErrCmd := rfl
@[simp] theorem closeLink_evDone : s.closeLink.evDone = s.evDone := rfl
@[simp] theorem closeLink_evHomed : s.closeLink.evHomed = s.evHomed := rfl
@[simp] theorem closeLink_port : s.closeLink.port = s.port := rfl
@[simp] theorem closeLink_responses : s.closeLink.responses = s.responses := rfl
@[simp] theorem closeLink_line : s.closeLink.line = s.line := rfl
@[simp] theorem closeLink_cfg : s.closeLink.cfg = s.cfg := rfl
@[simp] theorem closeLink_opens : s.closeLink.opens = s.opens := rfl
@[simp] theorem closeLink_schedule : s.closeLink.schedule = s.schedule := rfl
@[simp] theorem closeLink_draws : s.closeLink.draws = s.draws := rfl
@[simp] theorem closeLink_epoch : s.closeLink.epoch = s.epoch := rfl

/-! ## `enqueue` -/

@[simp] theorem enqueue_linkOpen (f : Frame) : (s.enqueue f).linkOpen = s.linkOpen := rfl
@[simp] theorem enqueue_poisoned (f : Frame) : (s.enqueue f).poisoned = s.poisoned := rfl
@[simp] theorem enqueue_fault (f : Frame) : (s.enqueue f).fault = s.fault := rfl
@[simp] theorem enqueue_busy (f : Frame) : (s.enqueue f).busy = s.busy := rfl
@[simp] theorem enqueue_kaCount (f : Frame) : (s.enqueue f).kaCount = kaNext s.burstDue s.kaCount := rfl
@[simp] theorem enqueue_hostAddr (f : Frame) : (s.enqueue f).hostAddr = s.hostAddr := rfl
@[simp] theorem enqueue_slots (f : Frame) : (s.enqueue f).slots = s.slots := rfl
@[simp] theorem enqueue_expOpcode (f : Frame) : (s.enqueue f).expOpcode = s.expOpcode := rfl
@[simp] theorem enqueue_expSrc (f : Frame) : (s.enqueue f).expSrc = s.expSrc := rfl
@[simp] theorem enqueue_expAny (f : Frame) : (s.enqueue f).expAny = s.expAny := rfl
@[simp] theorem enqueue_resValid (f : Frame) : (s.enqueue f).resValid = s.resValid := rfl
@[simp] theorem enqueue_resHdr (f : Frame) : (s.enqueue f).resHdr = s.resHdr := rfl
@[simp] theorem enqueue_resHasPayload (f : Frame) : (s.enqueue f).resHasPayload = s.resHasPayload := rfl
@[simp] theorem enqueue_resLen (f : Frame) : (s.enqueue f).resLen = s.resLen := rfl
@[simp] theorem enqueue_resPay (f : Frame) : (s.enqueue f).resPay = s.resPay := rfl
@[simp] theorem enqueue_txLen (f : Frame) : (s.enqueue f).txLen = 0 := rfl
@[simp] theorem enqueue_txPay (f : Frame) : (s.enqueue f).txPay = s.txPay := rfl
@[simp] theorem enqueue_rxFifo (f : Frame) : (s.enqueue f).rxFifo = s.rxFifo := rfl
@[simp] theorem enqueue_txQ (f : Frame) : (s.enqueue f).txQ = s.txQ ++ s.writeBytes f := rfl
@[simp] theorem enqueue_warnCount (f : Frame) : (s.enqueue f).warnCount = s.warnCount := rfl
@[simp] theorem enqueue_lastWarnOpcode (f : Frame) : (s.enqueue f).lastWarnOpcode = s.lastWarnOpcode := rfl
@[simp] theorem enqueue_lastWarnSrc (f : Frame) : (s.enqueue f).lastWarnSrc = s.lastWarnSrc := rfl
@[simp] theorem enqueue_lastErr (f : Frame) : (s.enqueue f).lastErr = s.lastErr := rfl
@[simp] theorem enqueue_lastErrCmd (f : Frame) : (s.enqueue f).lastErrCmd = s.lastErrCmd := rfl
@[simp] theorem enqueue_evDone (f : Frame) : (s.enqueue f).evDone = s.evDone := rfl
@[simp] theorem enqueue_evHomed (f : Frame) : (s.enqueue f).evHomed = s.evHomed := rfl
@[simp] theorem enqueue_port (f : Frame) : (s.enqueue f).port = s.port := rfl
@[simp] theorem enqueue_responses (f : Frame) : (s.enqueue f).responses = s.responses := rfl
@[simp] theorem enqueue_line (f : Frame) : (s.enqueue f).line = s.line := rfl
@[simp] theorem enqueue_cfg (f : Frame) : (s.enqueue f).cfg = s.cfg := rfl
@[simp] theorem enqueue_opens (f : Frame) : (s.enqueue f).opens = s.opens := rfl
@[simp] theorem enqueue_schedule (f : Frame) : (s.enqueue f).schedule = s.schedule := rfl
@[simp] theorem enqueue_draws (f : Frame) : (s.enqueue f).draws = s.draws := rfl
@[simp] theorem enqueue_epoch (f : Frame) : (s.enqueue f).epoch = s.epoch := rfl

/-! ## `acceptRead` -/

@[simp] theorem acceptRead_linkOpen (o : Opcode) (b : Byte) (a : Bool) : (s.acceptRead o b a).linkOpen = s.linkOpen := rfl
@[simp] theorem acceptRead_poisoned (o : Opcode) (b : Byte) (a : Bool) : (s.acceptRead o b a).poisoned = s.poisoned := rfl
@[simp] theorem acceptRead_fault (o : Opcode) (b : Byte) (a : Bool) : (s.acceptRead o b a).fault = s.fault := rfl
@[simp] theorem acceptRead_busy (o : Opcode) (b : Byte) (a : Bool) : (s.acceptRead o b a).busy = true := rfl
@[simp] theorem acceptRead_kaCount (o : Opcode) (b : Byte) (a : Bool) : (s.acceptRead o b a).kaCount = s.kaCount := rfl
@[simp] theorem acceptRead_hostAddr (o : Opcode) (b : Byte) (a : Bool) : (s.acceptRead o b a).hostAddr = s.hostAddr := rfl
@[simp] theorem acceptRead_slots (o : Opcode) (b : Byte) (a : Bool) : (s.acceptRead o b a).slots = s.slots := rfl
@[simp] theorem acceptRead_expOpcode (o : Opcode) (b : Byte) (a : Bool) : (s.acceptRead o b a).expOpcode = o := rfl
@[simp] theorem acceptRead_expSrc (o : Opcode) (b : Byte) (a : Bool) : (s.acceptRead o b a).expSrc = b := rfl
@[simp] theorem acceptRead_expAny (o : Opcode) (b : Byte) (a : Bool) : (s.acceptRead o b a).expAny = a := rfl
@[simp] theorem acceptRead_resValid (o : Opcode) (b : Byte) (a : Bool) : (s.acceptRead o b a).resValid = s.resValid := rfl
@[simp] theorem acceptRead_resHdr (o : Opcode) (b : Byte) (a : Bool) : (s.acceptRead o b a).resHdr = s.resHdr := rfl
@[simp] theorem acceptRead_resHasPayload (o : Opcode) (b : Byte) (a : Bool) : (s.acceptRead o b a).resHasPayload = s.resHasPayload := rfl
@[simp] theorem acceptRead_resLen (o : Opcode) (b : Byte) (a : Bool) : (s.acceptRead o b a).resLen = s.resLen := rfl
@[simp] theorem acceptRead_resPay (o : Opcode) (b : Byte) (a : Bool) : (s.acceptRead o b a).resPay = s.resPay := rfl
@[simp] theorem acceptRead_txLen (o : Opcode) (b : Byte) (a : Bool) : (s.acceptRead o b a).txLen = s.txLen := rfl
@[simp] theorem acceptRead_txPay (o : Opcode) (b : Byte) (a : Bool) : (s.acceptRead o b a).txPay = s.txPay := rfl
@[simp] theorem acceptRead_rxFifo (o : Opcode) (b : Byte) (a : Bool) : (s.acceptRead o b a).rxFifo = s.rxFifo := rfl
@[simp] theorem acceptRead_txQ (o : Opcode) (b : Byte) (a : Bool) : (s.acceptRead o b a).txQ = s.txQ := rfl
@[simp] theorem acceptRead_warnCount (o : Opcode) (b : Byte) (a : Bool) : (s.acceptRead o b a).warnCount = s.warnCount := rfl
@[simp] theorem acceptRead_lastWarnOpcode (o : Opcode) (b : Byte) (a : Bool) : (s.acceptRead o b a).lastWarnOpcode = s.lastWarnOpcode := rfl
@[simp] theorem acceptRead_lastWarnSrc (o : Opcode) (b : Byte) (a : Bool) : (s.acceptRead o b a).lastWarnSrc = s.lastWarnSrc := rfl
@[simp] theorem acceptRead_lastErr (o : Opcode) (b : Byte) (a : Bool) : (s.acceptRead o b a).lastErr = s.lastErr := rfl
@[simp] theorem acceptRead_lastErrCmd (o : Opcode) (b : Byte) (a : Bool) : (s.acceptRead o b a).lastErrCmd = s.lastErrCmd := rfl
@[simp] theorem acceptRead_evDone (o : Opcode) (b : Byte) (a : Bool) : (s.acceptRead o b a).evDone = s.evDone := rfl
@[simp] theorem acceptRead_evHomed (o : Opcode) (b : Byte) (a : Bool) : (s.acceptRead o b a).evHomed = s.evHomed := rfl
@[simp] theorem acceptRead_port (o : Opcode) (b : Byte) (a : Bool) : (s.acceptRead o b a).port = s.port := rfl
@[simp] theorem acceptRead_responses (o : Opcode) (b : Byte) (a : Bool) : (s.acceptRead o b a).responses = s.responses := rfl
@[simp] theorem acceptRead_line (o : Opcode) (b : Byte) (a : Bool) : (s.acceptRead o b a).line = s.line := rfl
@[simp] theorem acceptRead_cfg (o : Opcode) (b : Byte) (a : Bool) : (s.acceptRead o b a).cfg = s.cfg := rfl
@[simp] theorem acceptRead_opens (o : Opcode) (b : Byte) (a : Bool) : (s.acceptRead o b a).opens = s.opens := rfl
@[simp] theorem acceptRead_schedule (o : Opcode) (b : Byte) (a : Bool) : (s.acceptRead o b a).schedule = s.schedule := rfl
@[simp] theorem acceptRead_draws (o : Opcode) (b : Byte) (a : Bool) : (s.acceptRead o b a).draws = s.draws := rfl
@[simp] theorem acceptRead_epoch (o : Opcode) (b : Byte) (a : Bool) : (s.acceptRead o b a).epoch = s.epoch := rfl

/-! ## `abortRead` -/

@[simp] theorem abortRead_linkOpen : s.abortRead.linkOpen = s.linkOpen := rfl
@[simp] theorem abortRead_poisoned : s.abortRead.poisoned = (s.poisoned || s.abortError.isLink) := rfl
@[simp] theorem abortRead_fault : s.abortRead.fault = (s.fault || s.abortError.isContract) := rfl
@[simp] theorem abortRead_busy : s.abortRead.busy = false := rfl
@[simp] theorem abortRead_kaCount : s.abortRead.kaCount = s.kaCount := rfl
@[simp] theorem abortRead_hostAddr : s.abortRead.hostAddr = s.hostAddr := rfl
@[simp] theorem abortRead_slots : s.abortRead.slots = s.slots := rfl
@[simp] theorem abortRead_expOpcode : s.abortRead.expOpcode = s.expOpcode := rfl
@[simp] theorem abortRead_expSrc : s.abortRead.expSrc = s.expSrc := rfl
@[simp] theorem abortRead_expAny : s.abortRead.expAny = s.expAny := rfl
@[simp] theorem abortRead_resValid : s.abortRead.resValid = s.resValid := rfl
@[simp] theorem abortRead_resHdr : s.abortRead.resHdr = s.resHdr := rfl
@[simp] theorem abortRead_resHasPayload : s.abortRead.resHasPayload = s.resHasPayload := rfl
@[simp] theorem abortRead_resLen : s.abortRead.resLen = s.resLen := rfl
@[simp] theorem abortRead_resPay : s.abortRead.resPay = s.resPay := rfl
@[simp] theorem abortRead_txLen : s.abortRead.txLen = s.txLen := rfl
@[simp] theorem abortRead_txPay : s.abortRead.txPay = s.txPay := rfl
@[simp] theorem abortRead_rxFifo : s.abortRead.rxFifo = s.rxFifo := rfl
@[simp] theorem abortRead_txQ : s.abortRead.txQ = s.txQ := rfl
@[simp] theorem abortRead_warnCount : s.abortRead.warnCount = s.warnCount := rfl
@[simp] theorem abortRead_lastWarnOpcode : s.abortRead.lastWarnOpcode = s.lastWarnOpcode := rfl
@[simp] theorem abortRead_lastWarnSrc : s.abortRead.lastWarnSrc = s.lastWarnSrc := rfl
@[simp] theorem abortRead_lastErr : s.abortRead.lastErr = if s.abortError.recorded then s.abortError.code else s.lastErr := rfl
@[simp] theorem abortRead_lastErrCmd : s.abortRead.lastErrCmd = if s.abortError.recorded then cmdRead else s.lastErrCmd := rfl
@[simp] theorem abortRead_evDone : s.abortRead.evDone = s.evDone := rfl
@[simp] theorem abortRead_evHomed : s.abortRead.evHomed = s.evHomed := rfl
@[simp] theorem abortRead_port : s.abortRead.port = s.port := rfl
@[simp] theorem abortRead_responses : s.abortRead.responses = s.responses ++ [⟨cmdRead, s.abortError, 0⟩] := rfl
@[simp] theorem abortRead_line : s.abortRead.line = s.line := rfl
@[simp] theorem abortRead_cfg : s.abortRead.cfg = s.cfg := rfl
@[simp] theorem abortRead_opens : s.abortRead.opens = s.opens := rfl
@[simp] theorem abortRead_schedule : s.abortRead.schedule = s.schedule := rfl
@[simp] theorem abortRead_draws : s.abortRead.draws = s.draws := rfl
@[simp] theorem abortRead_epoch : s.abortRead.epoch = s.epoch := rfl

/-! ## `placeCommand` -/

@[simp] theorem placeCommand_linkOpen (w : CmdWord) : (s.placeCommand w).linkOpen = s.linkOpen := rfl
@[simp] theorem placeCommand_poisoned (w : CmdWord) : (s.placeCommand w).poisoned = s.poisoned := rfl
@[simp] theorem placeCommand_fault (w : CmdWord) : (s.placeCommand w).fault = s.fault := rfl
@[simp] theorem placeCommand_busy (w : CmdWord) : (s.placeCommand w).busy = s.busy := rfl
@[simp] theorem placeCommand_kaCount (w : CmdWord) : (s.placeCommand w).kaCount = s.kaCount := rfl
@[simp] theorem placeCommand_hostAddr (w : CmdWord) : (s.placeCommand w).hostAddr = s.hostAddr := rfl
@[simp] theorem placeCommand_slots (w : CmdWord) : (s.placeCommand w).slots = s.slots := rfl
@[simp] theorem placeCommand_expOpcode (w : CmdWord) : (s.placeCommand w).expOpcode = s.expOpcode := rfl
@[simp] theorem placeCommand_expSrc (w : CmdWord) : (s.placeCommand w).expSrc = s.expSrc := rfl
@[simp] theorem placeCommand_expAny (w : CmdWord) : (s.placeCommand w).expAny = s.expAny := rfl
@[simp] theorem placeCommand_resValid (w : CmdWord) : (s.placeCommand w).resValid = s.resValid := rfl
@[simp] theorem placeCommand_resHdr (w : CmdWord) : (s.placeCommand w).resHdr = s.resHdr := rfl
@[simp] theorem placeCommand_resHasPayload (w : CmdWord) : (s.placeCommand w).resHasPayload = s.resHasPayload := rfl
@[simp] theorem placeCommand_resLen (w : CmdWord) : (s.placeCommand w).resLen = s.resLen := rfl
@[simp] theorem placeCommand_resPay (w : CmdWord) : (s.placeCommand w).resPay = s.resPay := rfl
@[simp] theorem placeCommand_txLen (w : CmdWord) : (s.placeCommand w).txLen = s.txLen := rfl
@[simp] theorem placeCommand_txPay (w : CmdWord) : (s.placeCommand w).txPay = s.txPay := rfl
@[simp] theorem placeCommand_rxFifo (w : CmdWord) : (s.placeCommand w).rxFifo = s.rxFifo := rfl
@[simp] theorem placeCommand_txQ (w : CmdWord) : (s.placeCommand w).txQ = s.txQ := rfl
@[simp] theorem placeCommand_warnCount (w : CmdWord) : (s.placeCommand w).warnCount = s.warnCount := rfl
@[simp] theorem placeCommand_lastWarnOpcode (w : CmdWord) : (s.placeCommand w).lastWarnOpcode = s.lastWarnOpcode := rfl
@[simp] theorem placeCommand_lastWarnSrc (w : CmdWord) : (s.placeCommand w).lastWarnSrc = s.lastWarnSrc := rfl
@[simp] theorem placeCommand_lastErr (w : CmdWord) : (s.placeCommand w).lastErr = s.lastErr := rfl
@[simp] theorem placeCommand_lastErrCmd (w : CmdWord) : (s.placeCommand w).lastErrCmd = s.lastErrCmd := rfl
@[simp] theorem placeCommand_evDone (w : CmdWord) : (s.placeCommand w).evDone = s.evDone := rfl
@[simp] theorem placeCommand_evHomed (w : CmdWord) : (s.placeCommand w).evHomed = s.evHomed := rfl
@[simp] theorem placeCommand_port (w : CmdWord) : (s.placeCommand w).port = some w := rfl
@[simp] theorem placeCommand_responses (w : CmdWord) : (s.placeCommand w).responses = s.responses := rfl
@[simp] theorem placeCommand_line (w : CmdWord) : (s.placeCommand w).line = s.line := rfl
@[simp] theorem placeCommand_cfg (w : CmdWord) : (s.placeCommand w).cfg = s.cfg := rfl
@[simp] theorem placeCommand_opens (w : CmdWord) : (s.placeCommand w).opens = s.opens := rfl
@[simp] theorem placeCommand_schedule (w : CmdWord) : (s.placeCommand w).schedule = .coreCommand :: s.schedule := rfl
@[simp] theorem placeCommand_draws (w : CmdWord) : (s.placeCommand w).draws = s.draws := rfl
@[simp] theorem placeCommand_epoch (w : CmdWord) : (s.placeCommand w).epoch = s.epoch := rfl

/-! ## `placeFrame` -/

@[simp] theorem placeFrame_linkOpen (q : List Byte) : (s.placeFrame q).linkOpen = s.linkOpen := rfl
@[simp] theorem placeFrame_poisoned (q : List Byte) : (s.placeFrame q).poisoned = s.poisoned := rfl
@[simp] theorem placeFrame_fault (q : List Byte) : (s.placeFrame q).fault = s.fault := rfl
@[simp] theorem placeFrame_busy (q : List Byte) : (s.placeFrame q).busy = true := rfl
@[simp] theorem placeFrame_kaCount (q : List Byte) : (s.placeFrame q).kaCount = s.kaCount := rfl
@[simp] theorem placeFrame_hostAddr (q : List Byte) : (s.placeFrame q).hostAddr = s.hostAddr := rfl
@[simp] theorem placeFrame_slots (q : List Byte) : (s.placeFrame q).slots = s.slots := rfl
@[simp] theorem placeFrame_expOpcode (q : List Byte) : (s.placeFrame q).expOpcode = s.expOpcode := rfl
@[simp] theorem placeFrame_expSrc (q : List Byte) : (s.placeFrame q).expSrc = s.expSrc := rfl
@[simp] theorem placeFrame_expAny (q : List Byte) : (s.placeFrame q).expAny = s.expAny := rfl
@[simp] theorem placeFrame_resValid (q : List Byte) : (s.placeFrame q).resValid = s.resValid := rfl
@[simp] theorem placeFrame_resHdr (q : List Byte) : (s.placeFrame q).resHdr = s.resHdr := rfl
@[simp] theorem placeFrame_resHasPayload (q : List Byte) : (s.placeFrame q).resHasPayload = s.resHasPayload := rfl
@[simp] theorem placeFrame_resLen (q : List Byte) : (s.placeFrame q).resLen = s.resLen := rfl
@[simp] theorem placeFrame_resPay (q : List Byte) : (s.placeFrame q).resPay = s.resPay := rfl
@[simp] theorem placeFrame_txLen (q : List Byte) : (s.placeFrame q).txLen = s.txLen := rfl
@[simp] theorem placeFrame_txPay (q : List Byte) : (s.placeFrame q).txPay = s.txPay := rfl
@[simp] theorem placeFrame_rxFifo (q : List Byte) : (s.placeFrame q).rxFifo = q := rfl
@[simp] theorem placeFrame_txQ (q : List Byte) : (s.placeFrame q).txQ = s.txQ := rfl
@[simp] theorem placeFrame_warnCount (q : List Byte) : (s.placeFrame q).warnCount = s.warnCount := rfl
@[simp] theorem placeFrame_lastWarnOpcode (q : List Byte) : (s.placeFrame q).lastWarnOpcode = s.lastWarnOpcode := rfl
@[simp] theorem placeFrame_lastWarnSrc (q : List Byte) : (s.placeFrame q).lastWarnSrc = s.lastWarnSrc := rfl
@[simp] theorem placeFrame_lastErr (q : List Byte) : (s.placeFrame q).lastErr = s.lastErr := rfl
@[simp] theorem placeFrame_lastErrCmd (q : List Byte) : (s.placeFrame q).lastErrCmd = s.lastErrCmd := rfl
@[simp] theorem placeFrame_evDone (q : List Byte) : (s.placeFrame q).evDone = s.evDone := rfl
@[simp] theorem placeFrame_evHomed (q : List Byte) : (s.placeFrame q).evHomed = s.evHomed := rfl
@[simp] theorem placeFrame_port (q : List Byte) : (s.placeFrame q).port = s.port := rfl
@[simp] theorem placeFrame_responses (q : List Byte) : (s.placeFrame q).responses = s.responses := rfl
@[simp] theorem placeFrame_line (q : List Byte) : (s.placeFrame q).line = s.line := rfl
@[simp] theorem placeFrame_cfg (q : List Byte) : (s.placeFrame q).cfg = s.cfg := rfl
@[simp] theorem placeFrame_opens (q : List Byte) : (s.placeFrame q).opens = s.opens := rfl
@[simp] theorem placeFrame_schedule (q : List Byte) : (s.placeFrame q).schedule = .coreFrame :: s.schedule := rfl
@[simp] theorem placeFrame_draws (q : List Byte) : (s.placeFrame q).draws = s.draws := rfl
@[simp] theorem placeFrame_epoch (q : List Byte) : (s.placeFrame q).epoch = s.epoch := rfl

/-! ## Updates that depend on the state: the fields they leave alone -/

@[simp] theorem dropRead_linkOpen : s.dropRead.linkOpen = s.linkOpen := by
  unfold State.dropRead; split <;> rfl
@[simp] theorem dropRead_poisoned : s.dropRead.poisoned = s.poisoned := by
  unfold State.dropRead; split <;> rfl
@[simp] theorem dropRead_fault : s.dropRead.fault = s.fault := by
  unfold State.dropRead; split <;> rfl
@[simp] theorem dropRead_busy : s.dropRead.busy = s.busy := by
  unfold State.dropRead; split <;> rfl
@[simp] theorem dropRead_kaCount : s.dropRead.kaCount = s.kaCount := by
  unfold State.dropRead; split <;> rfl
@[simp] theorem dropRead_hostAddr : s.dropRead.hostAddr = s.hostAddr := by
  unfold State.dropRead; split <;> rfl
@[simp] theorem dropRead_slots : s.dropRead.slots = s.slots := by
  unfold State.dropRead; split <;> rfl
@[simp] theorem dropRead_expOpcode : s.dropRead.expOpcode = s.expOpcode := by
  unfold State.dropRead; split <;> rfl
@[simp] theorem dropRead_expSrc : s.dropRead.expSrc = s.expSrc := by
  unfold State.dropRead; split <;> rfl
@[simp] theorem dropRead_expAny : s.dropRead.expAny = s.expAny := by
  unfold State.dropRead; split <;> rfl
@[simp] theorem dropRead_resValid : s.dropRead.resValid = s.resValid := by
  unfold State.dropRead; split <;> rfl
@[simp] theorem dropRead_resHdr : s.dropRead.resHdr = s.resHdr := by
  unfold State.dropRead; split <;> rfl
@[simp] theorem dropRead_resHasPayload : s.dropRead.resHasPayload = s.resHasPayload := by
  unfold State.dropRead; split <;> rfl
@[simp] theorem dropRead_resLen : s.dropRead.resLen = s.resLen := by
  unfold State.dropRead; split <;> rfl
@[simp] theorem dropRead_resPay : s.dropRead.resPay = s.resPay := by
  unfold State.dropRead; split <;> rfl
@[simp] theorem dropRead_txLen : s.dropRead.txLen = s.txLen := by
  unfold State.dropRead; split <;> rfl
@[simp] theorem dropRead_txPay : s.dropRead.txPay = s.txPay := by
  unfold State.dropRead; split <;> rfl
@[simp] theorem dropRead_rxFifo : s.dropRead.rxFifo = s.rxFifo := by
  unfold State.dropRead; split <;> rfl
@[simp] theorem dropRead_txQ : s.dropRead.txQ = s.txQ := by
  unfold State.dropRead; split <;> rfl
@[simp] theorem dropRead_warnCount : s.dropRead.warnCount = s.warnCount := by
  unfold State.dropRead; split <;> rfl
@[simp] theorem dropRead_lastWarnOpcode : s.dropRead.lastWarnOpcode = s.lastWarnOpcode := by
  unfold State.dropRead; split <;> rfl
@[simp] theorem dropRead_lastWarnSrc : s.dropRead.lastWarnSrc = s.lastWarnSrc := by
  unfold State.dropRead; split <;> rfl
@[simp] theorem dropRead_lastErr : s.dropRead.lastErr = s.lastErr := by
  unfold State.dropRead; split <;> rfl
@[simp] theorem dropRead_lastErrCmd : s.dropRead.lastErrCmd = s.lastErrCmd := by
  unfold State.dropRead; split <;> rfl
@[simp] theorem dropRead_evDone : s.dropRead.evDone = s.evDone := by
  unfold State.dropRead; split <;> rfl
@[simp] theorem dropRead_evHomed : s.dropRead.evHomed = s.evHomed := by
  unfold State.dropRead; split <;> rfl
@[simp] theorem dropRead_port : s.dropRead.port = s.port := by
  unfold State.dropRead; split <;> rfl
@[simp] theorem dropRead_line : s.dropRead.line = s.line := by
  unfold State.dropRead; split <;> rfl
@[simp] theorem dropRead_cfg : s.dropRead.cfg = s.cfg := by
  unfold State.dropRead; split <;> rfl
@[simp] theorem dropRead_opens : s.dropRead.opens = s.opens := by
  unfold State.dropRead; split <;> rfl
@[simp] theorem dropRead_schedule : s.dropRead.schedule = s.schedule := by
  unfold State.dropRead; split <;> rfl
@[simp] theorem dropRead_draws : s.dropRead.draws = s.draws := by
  unfold State.dropRead; split <;> rfl
@[simp] theorem dropRead_epoch : s.dropRead.epoch = s.epoch := by
  unfold State.dropRead; split <;> rfl
@[simp] theorem wireRx_linkOpen (b : Byte) : (s.wireRx b).linkOpen = s.linkOpen := by
  unfold State.wireRx; split <;> rfl
@[simp] theorem wireRx_poisoned (b : Byte) : (s.wireRx b).poisoned = s.poisoned := by
  unfold State.wireRx; split <;> rfl
@[simp] theorem wireRx_fault (b : Byte) : (s.wireRx b).fault = s.fault := by
  unfold State.wireRx; split <;> rfl
@[simp] theorem wireRx_busy (b : Byte) : (s.wireRx b).busy = s.busy := by
  unfold State.wireRx; split <;> rfl
@[simp] theorem wireRx_kaCount (b : Byte) : (s.wireRx b).kaCount = s.kaCount := by
  unfold State.wireRx; split <;> rfl
@[simp] theorem wireRx_hostAddr (b : Byte) : (s.wireRx b).hostAddr = s.hostAddr := by
  unfold State.wireRx; split <;> rfl
@[simp] theorem wireRx_slots (b : Byte) : (s.wireRx b).slots = s.slots := by
  unfold State.wireRx; split <;> rfl
@[simp] theorem wireRx_expOpcode (b : Byte) : (s.wireRx b).expOpcode = s.expOpcode := by
  unfold State.wireRx; split <;> rfl
@[simp] theorem wireRx_expSrc (b : Byte) : (s.wireRx b).expSrc = s.expSrc := by
  unfold State.wireRx; split <;> rfl
@[simp] theorem wireRx_expAny (b : Byte) : (s.wireRx b).expAny = s.expAny := by
  unfold State.wireRx; split <;> rfl
@[simp] theorem wireRx_resValid (b : Byte) : (s.wireRx b).resValid = s.resValid := by
  unfold State.wireRx; split <;> rfl
@[simp] theorem wireRx_resHdr (b : Byte) : (s.wireRx b).resHdr = s.resHdr := by
  unfold State.wireRx; split <;> rfl
@[simp] theorem wireRx_resHasPayload (b : Byte) : (s.wireRx b).resHasPayload = s.resHasPayload := by
  unfold State.wireRx; split <;> rfl
@[simp] theorem wireRx_resLen (b : Byte) : (s.wireRx b).resLen = s.resLen := by
  unfold State.wireRx; split <;> rfl
@[simp] theorem wireRx_resPay (b : Byte) : (s.wireRx b).resPay = s.resPay := by
  unfold State.wireRx; split <;> rfl
@[simp] theorem wireRx_txLen (b : Byte) : (s.wireRx b).txLen = s.txLen := by
  unfold State.wireRx; split <;> rfl
@[simp] theorem wireRx_txPay (b : Byte) : (s.wireRx b).txPay = s.txPay := by
  unfold State.wireRx; split <;> rfl
@[simp] theorem wireRx_txQ (b : Byte) : (s.wireRx b).txQ = s.txQ := by
  unfold State.wireRx; split <;> rfl
@[simp] theorem wireRx_warnCount (b : Byte) : (s.wireRx b).warnCount = s.warnCount := by
  unfold State.wireRx; split <;> rfl
@[simp] theorem wireRx_lastWarnOpcode (b : Byte) : (s.wireRx b).lastWarnOpcode = s.lastWarnOpcode := by
  unfold State.wireRx; split <;> rfl
@[simp] theorem wireRx_lastWarnSrc (b : Byte) : (s.wireRx b).lastWarnSrc = s.lastWarnSrc := by
  unfold State.wireRx; split <;> rfl
@[simp] theorem wireRx_lastErr (b : Byte) : (s.wireRx b).lastErr = s.lastErr := by
  unfold State.wireRx; split <;> rfl
@[simp] theorem wireRx_lastErrCmd (b : Byte) : (s.wireRx b).lastErrCmd = s.lastErrCmd := by
  unfold State.wireRx; split <;> rfl
@[simp] theorem wireRx_evDone (b : Byte) : (s.wireRx b).evDone = s.evDone := by
  unfold State.wireRx; split <;> rfl
@[simp] theorem wireRx_evHomed (b : Byte) : (s.wireRx b).evHomed = s.evHomed := by
  unfold State.wireRx; split <;> rfl
@[simp] theorem wireRx_port (b : Byte) : (s.wireRx b).port = s.port := by
  unfold State.wireRx; split <;> rfl
@[simp] theorem wireRx_responses (b : Byte) : (s.wireRx b).responses = s.responses := by
  unfold State.wireRx; split <;> rfl
@[simp] theorem wireRx_line (b : Byte) : (s.wireRx b).line = s.line := by
  unfold State.wireRx; split <;> rfl
@[simp] theorem wireRx_cfg (b : Byte) : (s.wireRx b).cfg = s.cfg := by
  unfold State.wireRx; split <;> rfl
@[simp] theorem wireRx_opens (b : Byte) : (s.wireRx b).opens = s.opens := by
  unfold State.wireRx; split <;> rfl
@[simp] theorem wireRx_schedule (b : Byte) : (s.wireRx b).schedule = s.schedule := by
  unfold State.wireRx; split <;> rfl
@[simp] theorem wireRx_draws (b : Byte) : (s.wireRx b).draws = s.draws := by
  unfold State.wireRx; split <;> rfl
@[simp] theorem wireRx_epoch (b : Byte) : (s.wireRx b).epoch = s.epoch := by
  unfold State.wireRx; split <;> rfl
@[simp] theorem wireTx_linkOpen (c : Bool) : (s.wireTx c).linkOpen = s.linkOpen := by
  unfold State.wireTx; split <;> (try split) <;> rfl
@[simp] theorem wireTx_poisoned (c : Bool) : (s.wireTx c).poisoned = s.poisoned := by
  unfold State.wireTx; split <;> (try split) <;> rfl
@[simp] theorem wireTx_fault (c : Bool) : (s.wireTx c).fault = s.fault := by
  unfold State.wireTx; split <;> (try split) <;> rfl
@[simp] theorem wireTx_busy (c : Bool) : (s.wireTx c).busy = s.busy := by
  unfold State.wireTx; split <;> (try split) <;> rfl
@[simp] theorem wireTx_kaCount (c : Bool) : (s.wireTx c).kaCount = s.kaCount := by
  unfold State.wireTx; split <;> (try split) <;> rfl
@[simp] theorem wireTx_hostAddr (c : Bool) : (s.wireTx c).hostAddr = s.hostAddr := by
  unfold State.wireTx; split <;> (try split) <;> rfl
@[simp] theorem wireTx_slots (c : Bool) : (s.wireTx c).slots = s.slots := by
  unfold State.wireTx; split <;> (try split) <;> rfl
@[simp] theorem wireTx_expOpcode (c : Bool) : (s.wireTx c).expOpcode = s.expOpcode := by
  unfold State.wireTx; split <;> (try split) <;> rfl
@[simp] theorem wireTx_expSrc (c : Bool) : (s.wireTx c).expSrc = s.expSrc := by
  unfold State.wireTx; split <;> (try split) <;> rfl
@[simp] theorem wireTx_expAny (c : Bool) : (s.wireTx c).expAny = s.expAny := by
  unfold State.wireTx; split <;> (try split) <;> rfl
@[simp] theorem wireTx_resValid (c : Bool) : (s.wireTx c).resValid = s.resValid := by
  unfold State.wireTx; split <;> (try split) <;> rfl
@[simp] theorem wireTx_resHdr (c : Bool) : (s.wireTx c).resHdr = s.resHdr := by
  unfold State.wireTx; split <;> (try split) <;> rfl
@[simp] theorem wireTx_resHasPayload (c : Bool) : (s.wireTx c).resHasPayload = s.resHasPayload := by
  unfold State.wireTx; split <;> (try split) <;> rfl
@[simp] theorem wireTx_resLen (c : Bool) : (s.wireTx c).resLen = s.resLen := by
  unfold State.wireTx; split <;> (try split) <;> rfl
@[simp] theorem wireTx_resPay (c : Bool) : (s.wireTx c).resPay = s.resPay := by
  unfold State.wireTx; split <;> (try split) <;> rfl
@[simp] theorem wireTx_txLen (c : Bool) : (s.wireTx c).txLen = s.txLen := by
  unfold State.wireTx; split <;> (try split) <;> rfl
@[simp] theorem wireTx_txPay (c : Bool) : (s.wireTx c).txPay = s.txPay := by
  unfold State.wireTx; split <;> (try split) <;> rfl
@[simp] theorem wireTx_rxFifo (c : Bool) : (s.wireTx c).rxFifo = s.rxFifo := by
  unfold State.wireTx; split <;> (try split) <;> rfl
@[simp] theorem wireTx_warnCount (c : Bool) : (s.wireTx c).warnCount = s.warnCount := by
  unfold State.wireTx; split <;> (try split) <;> rfl
@[simp] theorem wireTx_lastWarnOpcode (c : Bool) : (s.wireTx c).lastWarnOpcode = s.lastWarnOpcode := by
  unfold State.wireTx; split <;> (try split) <;> rfl
@[simp] theorem wireTx_lastWarnSrc (c : Bool) : (s.wireTx c).lastWarnSrc = s.lastWarnSrc := by
  unfold State.wireTx; split <;> (try split) <;> rfl
@[simp] theorem wireTx_lastErr (c : Bool) : (s.wireTx c).lastErr = s.lastErr := by
  unfold State.wireTx; split <;> (try split) <;> rfl
@[simp] theorem wireTx_lastErrCmd (c : Bool) : (s.wireTx c).lastErrCmd = s.lastErrCmd := by
  unfold State.wireTx; split <;> (try split) <;> rfl
@[simp] theorem wireTx_evDone (c : Bool) : (s.wireTx c).evDone = s.evDone := by
  unfold State.wireTx; split <;> (try split) <;> rfl
@[simp] theorem wireTx_evHomed (c : Bool) : (s.wireTx c).evHomed = s.evHomed := by
  unfold State.wireTx; split <;> (try split) <;> rfl
@[simp] theorem wireTx_port (c : Bool) : (s.wireTx c).port = s.port := by
  unfold State.wireTx; split <;> (try split) <;> rfl
@[simp] theorem wireTx_responses (c : Bool) : (s.wireTx c).responses = s.responses := by
  unfold State.wireTx; split <;> (try split) <;> rfl
@[simp] theorem wireTx_cfg (c : Bool) : (s.wireTx c).cfg = s.cfg := by
  unfold State.wireTx; split <;> (try split) <;> rfl
@[simp] theorem wireTx_opens (c : Bool) : (s.wireTx c).opens = s.opens := by
  unfold State.wireTx; split <;> (try split) <;> rfl
@[simp] theorem wireTx_schedule (c : Bool) : (s.wireTx c).schedule = s.schedule := by
  unfold State.wireTx; split <;> (try split) <;> rfl
@[simp] theorem wireTx_draws (c : Bool) : (s.wireTx c).draws = s.draws := by
  unfold State.wireTx; split <;> (try split) <;> rfl
@[simp] theorem wireTx_epoch (c : Bool) : (s.wireTx c).epoch = s.epoch := by
  unfold State.wireTx; split <;> (try split) <;> rfl
@[simp] theorem hostIssue_linkOpen (w : CmdWord) : (s.hostIssue w).linkOpen = s.linkOpen := by
  unfold State.hostIssue; split <;> rfl
@[simp] theorem hostIssue_poisoned (w : CmdWord) : (s.hostIssue w).poisoned = s.poisoned := by
  unfold State.hostIssue; split <;> rfl
@[simp] theorem hostIssue_fault (w : CmdWord) : (s.hostIssue w).fault = s.fault := by
  unfold State.hostIssue; split <;> rfl
@[simp] theorem hostIssue_busy (w : CmdWord) : (s.hostIssue w).busy = s.busy := by
  unfold State.hostIssue; split <;> rfl
@[simp] theorem hostIssue_kaCount (w : CmdWord) : (s.hostIssue w).kaCount = s.kaCount := by
  unfold State.hostIssue; split <;> rfl
@[simp] theorem hostIssue_hostAddr (w : CmdWord) : (s.hostIssue w).hostAddr = s.hostAddr := by
  unfold State.hostIssue; split <;> rfl
@[simp] theorem hostIssue_slots (w : CmdWord) : (s.hostIssue w).slots = s.slots := by
  unfold State.hostIssue; split <;> rfl
@[simp] theorem hostIssue_expOpcode (w : CmdWord) : (s.hostIssue w).expOpcode = s.expOpcode := by
  unfold State.hostIssue; split <;> rfl
@[simp] theorem hostIssue_expSrc (w : CmdWord) : (s.hostIssue w).expSrc = s.expSrc := by
  unfold State.hostIssue; split <;> rfl
@[simp] theorem hostIssue_expAny (w : CmdWord) : (s.hostIssue w).expAny = s.expAny := by
  unfold State.hostIssue; split <;> rfl
@[simp] theorem hostIssue_resValid (w : CmdWord) : (s.hostIssue w).resValid = s.resValid := by
  unfold State.hostIssue; split <;> rfl
@[simp] theorem hostIssue_resHdr (w : CmdWord) : (s.hostIssue w).resHdr = s.resHdr := by
  unfold State.hostIssue; split <;> rfl
@[simp] theorem hostIssue_resHasPayload (w : CmdWord) : (s.hostIssue w).resHasPayload = s.resHasPayload := by
  unfold State.hostIssue; split <;> rfl
@[simp] theorem hostIssue_resLen (w : CmdWord) : (s.hostIssue w).resLen = s.resLen := by
  unfold State.hostIssue; split <;> rfl
@[simp] theorem hostIssue_resPay (w : CmdWord) : (s.hostIssue w).resPay = s.resPay := by
  unfold State.hostIssue; split <;> rfl
@[simp] theorem hostIssue_txLen (w : CmdWord) : (s.hostIssue w).txLen = s.txLen := by
  unfold State.hostIssue; split <;> rfl
@[simp] theorem hostIssue_txPay (w : CmdWord) : (s.hostIssue w).txPay = s.txPay := by
  unfold State.hostIssue; split <;> rfl
@[simp] theorem hostIssue_rxFifo (w : CmdWord) : (s.hostIssue w).rxFifo = s.rxFifo := by
  unfold State.hostIssue; split <;> rfl
@[simp] theorem hostIssue_txQ (w : CmdWord) : (s.hostIssue w).txQ = s.txQ := by
  unfold State.hostIssue; split <;> rfl
@[simp] theorem hostIssue_warnCount (w : CmdWord) : (s.hostIssue w).warnCount = s.warnCount := by
  unfold State.hostIssue; split <;> rfl
@[simp] theorem hostIssue_lastWarnOpcode (w : CmdWord) : (s.hostIssue w).lastWarnOpcode = s.lastWarnOpcode := by
  unfold State.hostIssue; split <;> rfl
@[simp] theorem hostIssue_lastWarnSrc (w : CmdWord) : (s.hostIssue w).lastWarnSrc = s.lastWarnSrc := by
  unfold State.hostIssue; split <;> rfl
@[simp] theorem hostIssue_lastErr (w : CmdWord) : (s.hostIssue w).lastErr = s.lastErr := by
  unfold State.hostIssue; split <;> rfl
@[simp] theorem hostIssue_lastErrCmd (w : CmdWord) : (s.hostIssue w).lastErrCmd = s.lastErrCmd := by
  unfold State.hostIssue; split <;> rfl
@[simp] theorem hostIssue_evDone (w : CmdWord) : (s.hostIssue w).evDone = s.evDone := by
  unfold State.hostIssue; split <;> rfl
@[simp] theorem hostIssue_evHomed (w : CmdWord) : (s.hostIssue w).evHomed = s.evHomed := by
  unfold State.hostIssue; split <;> rfl
@[simp] theorem hostIssue_responses (w : CmdWord) : (s.hostIssue w).responses = s.responses := by
  unfold State.hostIssue; split <;> rfl
@[simp] theorem hostIssue_line (w : CmdWord) : (s.hostIssue w).line = s.line := by
  unfold State.hostIssue; split <;> rfl
@[simp] theorem hostIssue_cfg (w : CmdWord) : (s.hostIssue w).cfg = s.cfg := by
  unfold State.hostIssue; split <;> rfl
@[simp] theorem hostIssue_opens (w : CmdWord) : (s.hostIssue w).opens = s.opens := by
  unfold State.hostIssue; split <;> rfl
@[simp] theorem hostIssue_schedule (w : CmdWord) : (s.hostIssue w).schedule = s.schedule := by
  unfold State.hostIssue; split <;> rfl
@[simp] theorem hostIssue_draws (w : CmdWord) : (s.hostIssue w).draws = s.draws := by
  unfold State.hostIssue; split <;> rfl
@[simp] theorem hostIssue_epoch (w : CmdWord) : (s.hostIssue w).epoch = s.epoch := by
  unfold State.hostIssue; split <;> rfl
@[simp] theorem tick_linkOpen : s.tick.linkOpen = s.linkOpen := by
  unfold State.tick; split <;> rfl
@[simp] theorem tick_poisoned : s.tick.poisoned = s.poisoned := by
  unfold State.tick; split <;> rfl
@[simp] theorem tick_fault : s.tick.fault = s.fault := by
  unfold State.tick; split <;> rfl
@[simp] theorem tick_busy : s.tick.busy = s.busy := by
  unfold State.tick; split <;> rfl
@[simp] theorem tick_kaCount : s.tick.kaCount = s.kaCount := by
  unfold State.tick; split <;> rfl
@[simp] theorem tick_hostAddr : s.tick.hostAddr = s.hostAddr := by
  unfold State.tick; split <;> rfl
@[simp] theorem tick_slots : s.tick.slots = s.slots := by
  unfold State.tick; split <;> rfl
@[simp] theorem tick_expOpcode : s.tick.expOpcode = s.expOpcode := by
  unfold State.tick; split <;> rfl
@[simp] theorem tick_expSrc : s.tick.expSrc = s.expSrc := by
  unfold State.tick; split <;> rfl
@[simp] theorem tick_expAny : s.tick.expAny = s.expAny := by
  unfold State.tick; split <;> rfl
@[simp] theorem tick_resValid : s.tick.resValid = s.resValid := by
  unfold State.tick; split <;> rfl
@[simp] theorem tick_resHdr : s.tick.resHdr = s.resHdr := by
  unfold State.tick; split <;> rfl
@[simp] theorem tick_resHasPayload : s.tick.resHasPayload = s.resHasPayload := by
  unfold State.tick; split <;> rfl
@[simp] theorem tick_resLen : s.tick.resLen = s.resLen := by
  unfold State.tick; split <;> rfl
@[simp] theorem tick_resPay : s.tick.resPay = s.resPay := by
  unfold State.tick; split <;> rfl
@[simp] theorem tick_txLen : s.tick.txLen = s.txLen := by
  unfold State.tick; split <;> rfl
@[simp] theorem tick_txPay : s.tick.txPay = s.txPay := by
  unfold State.tick; split <;> rfl
@[simp] theorem tick_rxFifo : s.tick.rxFifo = s.rxFifo := by
  unfold State.tick; split <;> rfl
@[simp] theorem tick_txQ : s.tick.txQ = s.txQ := by
  unfold State.tick; split <;> rfl
@[simp] theorem tick_warnCount : s.tick.warnCount = s.warnCount := by
  unfold State.tick; split <;> rfl
@[simp] theorem tick_lastWarnOpcode : s.tick.lastWarnOpcode = s.lastWarnOpcode := by
  unfold State.tick; split <;> rfl
@[simp] theorem tick_lastWarnSrc : s.tick.lastWarnSrc = s.lastWarnSrc := by
  unfold State.tick; split <;> rfl
@[simp] theorem tick_lastErr : s.tick.lastErr = s.lastErr := by
  unfold State.tick; split <;> rfl
@[simp] theorem tick_lastErrCmd : s.tick.lastErrCmd = s.lastErrCmd := by
  unfold State.tick; split <;> rfl
@[simp] theorem tick_evDone : s.tick.evDone = s.evDone := by
  unfold State.tick; split <;> rfl
@[simp] theorem tick_evHomed : s.tick.evHomed = s.evHomed := by
  unfold State.tick; split <;> rfl
@[simp] theorem tick_port : s.tick.port = s.port := by
  unfold State.tick; split <;> rfl
@[simp] theorem tick_responses : s.tick.responses = s.responses := by
  unfold State.tick; split <;> rfl
@[simp] theorem tick_line : s.tick.line = s.line := by
  unfold State.tick; split <;> rfl
@[simp] theorem tick_cfg : s.tick.cfg = s.cfg := by
  unfold State.tick; split <;> rfl
@[simp] theorem tick_opens : s.tick.opens = s.opens := by
  unfold State.tick; split <;> rfl
@[simp] theorem tick_epoch : s.tick.epoch = s.epoch := by
  unfold State.tick; split <;> rfl

end Sys2Proof.Machine
end

