-- ==== Sys2Proof/Laws/Ops.lean ====
section
/-! SUPPORT. For each shared operation, once, everything it can do. -/

namespace Sys2Proof.Machine

/-! ## Payload buffers -/

@[simp] theorem Memory.read_nil (i : Nat) : Memory.read [] i = none := rfl

theorem Memory.read_cons (a : Nat) (b : Byte) (mem : Memory) (i : Nat) :
    Memory.read ((a, b) :: mem) i = if i = a then some b else Memory.read mem i := rfl

/-- Read after write at the same address. -/
@[simp] theorem Memory.read_write_same (mem : Memory) (i : Nat) (v : Byte) :
    Memory.read (Memory.write mem i v) i = some v := by
  induction mem with
  | nil => simp [Memory.write, Memory.read_cons]
  | cons c mem ih =>
    obtain ⟨a, b⟩ := c
    simp only [Memory.write]
    split
    · simp [Memory.read_cons]
    · split
      · simp [Memory.read_cons]
      · rename_i h; simp [Memory.read_cons, h, ih]

/-- A write leaves every other address alone. -/
theorem Memory.read_write_other (mem : Memory) {i j : Nat} (v : Byte) (h : j ≠ i) :
    Memory.read (Memory.write mem i v) j = Memory.read mem j := by
  induction mem with
  | nil => simp [Memory.write, Memory.read_cons, h]
  | cons c mem ih =>
    obtain ⟨a, b⟩ := c
    simp only [Memory.write]
    split
    · simp [Memory.read_cons, h]
    · split
      · rename_i h2; subst h2; simp [Memory.read_cons, h]
      · simp [Memory.read_cons, ih]

/-- The addresses after a write: those before, and the one written. -/
theorem Memory.mem_fst_write {mem : Memory} {i : Nat} {v : Byte} {a : Nat} :
    a ∈ (Memory.write mem i v).map Prod.fst → a = i ∨ a ∈ mem.map Prod.fst := by
  induction mem with
  | nil => simp [Memory.write]
  | cons c mem ih =>
    obtain ⟨b, w⟩ := c
    simp only [Memory.write]
    split
    · simp
    · split
      · simp
        rintro (h | ⟨y, h⟩)
        · exact .inl h
        · exact .inr (.inr ⟨y, h⟩)
      · simp only [List.map_cons, List.mem_cons]
        rintro (h | h)
        · exact .inr (.inl h)
        · rcases ih h with h | h
          · exact .inl h
          · exact .inr (.inr h)

theorem Memory.wf_iff (mem : Memory) :
    Memory.wf mem = true ↔ (mem.map Prod.fst).Pairwise (· < ·) ∧ ∀ a ∈ mem.map Prod.fst, a < maxPayload := by
  simp [Memory.wf, List.all_eq_true]

theorem Memory.pairwise_write {mem : Memory} (i : Nat) (v : Byte) (h : (mem.map Prod.fst).Pairwise (· < ·)) :
    ((Memory.write mem i v).map Prod.fst).Pairwise (· < ·) := by
  induction mem with
  | nil => simp [Memory.write]
  | cons c mem ih =>
    obtain ⟨a, b⟩ := c
    simp only [List.map_cons, List.pairwise_cons] at h
    simp only [Memory.write]
    split
    · rename_i hlt
      simp only [List.map_cons, List.pairwise_cons, List.mem_cons]
      refine ⟨?_, h.1, h.2⟩
      rintro x (rfl | hx)
      · exact hlt
      · exact hlt.trans (h.1 x hx)
    · split
      · rename_i heq
        subst heq
        simpa using h
      · rename_i h1 h2
        simp only [List.map_cons, List.pairwise_cons]
        refine ⟨fun x hx => ?_, ih h.2⟩
        rcases Memory.mem_fst_write hx with rfl | hx
        · omega
        · exact h.1 x hx

/-- A write inside the space keeps the canonical form. -/
theorem Memory.wf_write {mem : Memory} {i : Nat} (v : Byte) (h : Memory.wf mem = true) (hi : i < maxPayload) :
    Memory.wf (Memory.write mem i v) = true := by
  rw [Memory.wf_iff] at *
  refine ⟨Memory.pairwise_write i v h.1, fun a ha => ?_⟩
  rcases Memory.mem_fst_write ha with rfl | ha
  · exact hi
  · exact h.2 a ha

/-- Consecutive writes inside the space keep the canonical form. -/
theorem Memory.wf_writeAll {mem : Memory} {i : Nat} {l : List Byte} (h : Memory.wf mem = true)
    (hi : i + l.length ≤ maxPayload) : Memory.wf (Memory.writeAll mem i l) = true := by
  induction l generalizing mem i with
  | nil => exact h
  | cons v l ih =>
    simp only [List.length_cons] at hi
    exact ih (Memory.wf_write v h (by omega)) (by omega)

theorem Memory.read_writeAll_below {mem : Memory} {i j : Nat} {l : List Byte} (h : j < i) :
    Memory.read (Memory.writeAll mem i l) j = Memory.read mem j := by
  induction l generalizing mem i with
  | nil => rfl
  | cons v l ih =>
    simp only [Memory.writeAll]
    rw [ih (by omega), Memory.read_write_other _ _ (by omega)]

/-- Beyond the bytes written, consecutive writes change nothing. -/
theorem Memory.read_writeAll_above {mem : Memory} {i j : Nat} {l : List Byte} (h : i + l.length ≤ j) :
    Memory.read (Memory.writeAll mem i l) j = Memory.read mem j := by
  induction l generalizing mem i with
  | nil => rfl
  | cons v l ih =>
    simp only [Memory.writeAll]
    simp only [List.length_cons] at h
    rw [ih (by omega), Memory.read_write_other _ _ (by omega)]

/-- Reading a byte that consecutive writes wrote. -/
theorem Memory.read_writeAll {mem : Memory} {i j : Nat} {l : List Byte} (h : j < l.length) :
    Memory.read (Memory.writeAll mem i l) (i + j) = l[j]? := by
  induction l generalizing mem i j with
  | nil => simp at h
  | cons v l ih =>
    simp only [Memory.writeAll]
    cases j with
    | zero => rw [Nat.add_zero, Memory.read_writeAll_below (by omega)]; simp
    | succ j =>
      simp only [List.length_cons] at h
      have := ih (mem := Memory.write mem i v) (i := i + 1) (j := j) (by omega)
      rw [show i + (j + 1) = i + 1 + j by omega, this]; simp

/-! ## The common checks -/

/-- When a legal command passes the common checks (R246). -/
theorem commonCheck_none_iff (cmd : Byte) (s : State) :
    commonCheck true cmd s = none ↔
      (s.fault = true → cmd = cmdReset ∨ cmd = cmdRegRead) ∧
      (s.busy = true → cmd = cmdReset ∨ cmd = cmdRegRead ∨ cmd = cmdAbort) := by
  simp only [commonCheck]
  cases s.fault <;> cases s.busy <;>
    by_cases h1 : cmd = cmdReset <;> by_cases h2 : cmd = cmdRegRead <;> by_cases h3 : cmd = cmdAbort <;>
    simp [h1, h2, h3] <;> tauto

/-- A free, idle block passes every legal command. -/
theorem commonCheck_idle {cmd : Byte} {s : State} (hf : s.fault = false) (hb : s.busy = false) :
    commonCheck true cmd s = none := by
  simp [commonCheck, hf, hb]

/-- The error of a common check, and when it is raised (R246). -/
theorem commonCheck_some {legal : Bool} {cmd : Byte} {s : State} {e : ErrorCode}
    (h : commonCheck legal cmd s = some e) :
    (e = .faulted ∧ s.fault = true) ∨ (e = .busy ∧ s.busy = true) ∨ (e = .illegalCommand ∧ legal = false) := by
  simp only [commonCheck] at h
  split at h
  · rename_i h1; simp at h h1; exact .inl ⟨h.symm, h1.1⟩
  · split at h
    · rename_i h1; simp at h h1; exact .inr (.inl ⟨h.symm, h1.1⟩)
    · split at h
      · rename_i h1; simp at h h1; exact .inr (.inr ⟨h.symm, h1⟩)
      · simp at h

@[simp] theorem checked_pass {cmd : Byte} {s : State} {body : Host.Outcome State Fault Refusal}
    (h : commonCheck true cmd s = none) : checked cmd s body = body := by
  simp [checked, h]

@[simp] theorem checked_fail {cmd : Byte} {s : State} {body : Host.Outcome State Fault Refusal} {e : ErrorCode}
    (h : commonCheck true cmd s = some e) : checked cmd s body = .next (s.raise cmd e) := by
  simp [checked, h]

/-- An error that a command may end with in a state: the facts that the record of errors rests on. -/
structure ErrorFits (s : State) (e : ErrorCode) : Prop where
  notOk : e ≠ .ok
  keepsCause : e.recorded = true → e.isContract = true ∨ s.fault = false
  linkIdle : e.isLink = true → s.busy = false

theorem ErrorFits.of_contract {s : State} {e : ErrorCode} (h : e.isContract = true) : ErrorFits s e where
  notOk := by rintro rfl; simp [ErrorCode.isContract] at h
  keepsCause := fun _ => .inl h
  linkIdle := by cases e <;> simp_all [ErrorCode.isContract, ErrorCode.isLink]

theorem ErrorFits.of_idle {s : State} {e : ErrorCode} (hn : e ≠ .ok) (hf : s.fault = false) (hb : s.busy = false) :
    ErrorFits s e := ⟨hn, fun _ => .inr hf, fun _ => hb⟩

theorem ErrorFits.of_commonCheck {legal : Bool} {cmd : Byte} {s : State} {e : ErrorCode}
    (h : commonCheck legal cmd s = some e) : ErrorFits s e := by
  rcases commonCheck_some h with ⟨rfl, -⟩ | ⟨rfl, -⟩ | ⟨rfl, -⟩
  · exact ⟨by simp, by simp [ErrorCode.recorded], by simp [ErrorCode.isLink]⟩
  · exact .of_contract rfl
  · exact .of_contract rfl

/-- A command ends with an error. -/
def EndsWithError (cmd : Byte) (s t : State) : Prop := ∃ e, ErrorFits s e ∧ t = s.raise cmd e

/-- What a checked command does: the error of a common check, or its body. -/
theorem checked_cases {cmd : Byte} {s t : State} {body : Host.Outcome State Fault Refusal}
    (h : checked cmd s body = .next t) :
    EndsWithError cmd s t ∨ (commonCheck true cmd s = none ∧ body = .next t) := by
  cases hc : commonCheck true cmd s with
  | some e => simp [hc] at h; exact .inl ⟨e, .of_commonCheck hc, h.symm⟩
  | none => simp [hc] at h; exact .inr ⟨rfl, h⟩

/-- The error of an illegal word (R115, R246). -/
theorem illegalError_eq (cmd : Byte) (s : State) :
    illegalError cmd s = if s.fault then .faulted else if s.busy then .busy else .illegalCommand := by
  cases hf : s.fault <;> cases hb : s.busy <;> simp [illegalError, commonCheck, hf, hb]

theorem illegalError_fits (cmd : Byte) (s : State) : ErrorFits s (illegalError cmd s) := by
  rw [illegalError_eq]
  split
  · exact ⟨by simp, by simp [ErrorCode.recorded], by simp [ErrorCode.isLink]⟩
  · split <;> exact .of_contract rfl

/-! ## The frame step -/

/-- What a frame does: nothing without a pending READ, else one of the three cases (R191). -/
theorem readFrame_cases {f : Frame} {s t : State} (h : readFrame f s = .next t) :
    (s.busy = false ∧ t = s) ∨
    (s.busy = true ∧ s.isMatch f = true ∧ t = (s.popFrame f).frameMatch f) ∨
    (s.busy = true ∧ s.isMatch f = false ∧ s.isUnsolicited f = true ∧ t = (s.popFrame f).frameEvent f) ∨
    (s.busy = true ∧ s.isMatch f = false ∧ s.isUnsolicited f = false ∧ t = (s.popFrame f).frameWarn f) := by
  simp only [readFrame, hold] at h
  split at h
  · rename_i hb
    split at h
    · rename_i hm; simp at h; exact .inr (.inl ⟨hb, hm, h.symm⟩)
    · rename_i hm
      split at h
      · rename_i hu; simp at h; exact .inr (.inr (.inl ⟨hb, by simpa using hm, hu, h.symm⟩))
      · rename_i hu; simp at h; exact .inr (.inr (.inr ⟨hb, by simpa using hm, by simpa using hu, h.symm⟩))
  · rename_i hb; simp at h; exact .inl ⟨by simpa using hb, h.symm⟩

/-! ## The wire agents and the host -/

/-- Wire-RX appends one byte or does nothing (R200). -/
theorem wireRx_cases (s : State) (b : Byte) :
    (s.readyToReceive = true ∧ s.wireRx b = { s with rxFifo := s.rxFifo ++ [b] }) ∨
    (s.readyToReceive = false ∧ s.wireRx b = s) := by
  cases h : s.readyToReceive <;> simp [State.wireRx, h]

/-- Wire-TX moves the head byte to the line or does nothing (R201). -/
theorem wireTx_cases (s : State) (c : Bool) :
    (∃ b rest, c = true ∧ s.txQ = b :: rest ∧ s.wireTx c = { s with line := s.line ++ [b], txQ := rest }) ∨
    ((c = false ∨ s.txQ = []) ∧ s.wireTx c = s) := by
  cases h : s.txQ with
  | nil => exact .inr ⟨.inr rfl, by simp [State.wireTx, h]⟩
  | cons b rest =>
    cases c with
    | false => exact .inr ⟨.inl rfl, by simp [State.wireTx, h]⟩
    | true => exact .inl ⟨b, rest, rfl, rfl, by simp [State.wireTx, h]⟩

/-- The host fills a free port or does nothing (R110). -/
theorem hostIssue_cases (s : State) (w : CmdWord) :
    (s.port = none ∧ s.hostIssue w = { s with port := some w }) ∨ (s.port.isSome = true ∧ s.hostIssue w = s) := by
  cases h : s.port with
  | none => exact .inl ⟨rfl, by simp [State.hostIssue, h]⟩
  | some v => exact .inr ⟨rfl, by simp [State.hostIssue, h]⟩

/-- The next event and the state without it, when one is listed. -/
theorem nextEvent_cons {s : State} {e : Event} {rest : List Event} (h : s.schedule = e :: rest) :
    s.nextEvent = e ∧ s.tick = { s with schedule := rest } := by
  simp [State.nextEvent, State.tick, h]

/-- Under a valid configuration a step is the step of the event's agent. -/
theorem step_eq {s : State} (h : s.cfg.Valid) : step s = agentStep s.nextEvent s.tick := by
  simp only [step, if_pos h]

/-- A step that answers a next state ran the event's agent under a valid configuration. -/
theorem step_next {s t : State} (h : step s = .next t) : s.cfg.Valid ∧ agentStep s.nextEvent s.tick = .next t := by
  by_cases hv : s.cfg.Valid
  · exact ⟨hv, by rwa [step_eq hv] at h⟩
  · simp [step, hv] at h

end Sys2Proof.Machine
end

