-- ==== Sys2Proof/Laws/Exec.lean ====
section
/-! SUPPORT. For each command, once, everything it can do: if its meaning answers `next t`, then it ended with an error
(and wrote nothing but the error's record) or had exactly the effect its rule gives. -/

namespace Sys2Proof.Machine

theorem failWith_ends {cmd : Byte} {s t : State} {e : ErrorCode} (he : ErrorFits s e)
    (h : failWith cmd s e = .next t) : EndsWithError cmd s t := by
  simp [failWith] at h; exact ⟨e, he, h.symm⟩

/-- Passing the common checks, a command other than RESET, REG_READ and ABORT runs on an idle block. -/
theorem idle_of_pass {cmd : Byte} {s : State} (h : commonCheck true cmd s = none) (h1 : cmd ≠ cmdReset)
    (h2 : cmd ≠ cmdRegRead) (h3 : cmd ≠ cmdAbort) : s.fault = false ∧ s.busy = false := by
  rw [commonCheck_none_iff] at h
  constructor
  · cases hf : s.fault with
    | false => rfl
    | true => rcases h.1 hf with h | h <;> contradiction
  · cases hb : s.busy with
    | false => rfl
    | true => rcases h.2 hb with h | h | h <;> contradiction

theorem execNop_cases {s t : State} (h : execNop s = .next t) :
    EndsWithError cmdNop s t ∨ (commonCheck true cmdNop s = none ∧ t = s.finish cmdNop 0) := by
  rcases checked_cases h with h | ⟨hc, h⟩
  · exact .inl h
  · simp [succeed] at h; exact .inr ⟨hc, h.symm⟩

theorem execReset_cases {s t : State} (h : execReset s = .next t) :
    t = s.dropRead.applyReset.finish cmdReset 0 := by
  rcases checked_cases h with ⟨e, he, ht⟩ | ⟨hc, h⟩
  · simp [execReset, checked_pass (show commonCheck true cmdReset s = none by simp [commonCheck_none_iff]), succeed] at h
    exact h.symm
  · simp [succeed] at h; exact h.symm

theorem execOpen_cases {b : Byte} {s t : State} (h : execOpen b s = .next t) :
    EndsWithError cmdOpen s t ∨ (commonCheck true cmdOpen s = none ∧ t = (s.openLink b).finish cmdOpen 0) := by
  rcases checked_cases h with h | ⟨hc, h⟩
  · exact .inl h
  · simp [succeed] at h; exact .inr ⟨hc, h.symm⟩

theorem execClose_cases {s t : State} (h : execClose s = .next t) :
    EndsWithError cmdClose s t ∨ (commonCheck true cmdClose s = none ∧ t = s.closeLink.finish cmdClose 0) := by
  rcases checked_cases h with h | ⟨hc, h⟩
  · exact .inl h
  · simp [succeed] at h; exact .inr ⟨hc, h.symm⟩

theorem execKaSet_cases {slot addr : Byte} {s t : State} (h : execKaSet slot addr s = .next t) :
    EndsWithError cmdKaSet s t ∨
    (commonCheck true cmdKaSet s = none ∧ slot.toNat < s.cfg.nKa ∧ addr.getLsbD 7 = false ∧
      t = State.finish { s with slots := s.slots.set slot.toNat ⟨true, addr⟩ } cmdKaSet 0) := by
  rcases checked_cases h with h | ⟨hc, h⟩
  · exact .inl h
  · split at h
    · exact .inl (failWith_ends (.of_contract rfl) h)
    · split at h
      · exact .inl (failWith_ends (.of_contract rfl) h)
      · rename_i h1 h2
        simp [succeed] at h; exact .inr ⟨hc, by omega, by simpa using h2, h.symm⟩

theorem execKaClr_cases {slot : Byte} {s t : State} (h : execKaClr slot s = .next t) :
    EndsWithError cmdKaClr s t ∨
    (commonCheck true cmdKaClr s = none ∧ slot.toNat < s.cfg.nKa ∧
      t = State.finish { s with slots := s.slots.set slot.toNat ⟨false, 0x00⟩ } cmdKaClr 0) := by
  rcases checked_cases h with h | ⟨hc, h⟩
  · exact .inl h
  · split at h
    · exact .inl (failWith_ends (.of_contract rfl) h)
    · simp [succeed] at h; exact .inr ⟨hc, by omega, h.symm⟩

theorem execLookup_cases {idx : BitVec 16} {s t : State} (h : execLookup idx s = .next t) :
    EndsWithError cmdLookup s t ∨
    (commonCheck true cmdLookup s = none ∧
      ∃ opc, lookupOpcode s.cfg idx.toNat = some opc ∧ t = s.finish cmdLookup (opc.setWidth 64)) := by
  rcases checked_cases h with h | ⟨hc, h⟩
  · exact .inl h
  · split at h
    · exact .inl (failWith_ends (.of_contract rfl) h)
    · rename_i opc ho; simp [succeed] at h; exact .inr ⟨hc, opc, ho, h.symm⟩

theorem execEncodeHeader_cases {opc : Opcode} {p1 p2 dst : Byte} {s t : State}
    (h : execEncodeHeader opc p1 p2 dst s = .next t) :
    EndsWithError cmdEncodeHeader s t ∨
    (commonCheck true cmdEncodeHeader s = none ∧ s.cfg.opcodeValid opc = true ∧
      t = s.finish cmdEncodeHeader (headerLe48 (mkHeader opc p1 p2 dst s.hostAddr))) := by
  rcases checked_cases h with h | ⟨hc, h⟩
  · exact .inl h
  · split at h
    · rename_i ho; simp [succeed] at h; exact .inr ⟨hc, ho, h.symm⟩
    · exact .inl (failWith_ends (.of_contract rfl) h)

theorem execTxbClear_cases {s t : State} (h : execTxbClear s = .next t) :
    EndsWithError cmdTxbClear s t ∨
    (commonCheck true cmdTxbClear s = none ∧ t = State.finish { s with txLen := 0 } cmdTxbClear 0) := by
  rcases checked_cases h with h | ⟨hc, h⟩
  · exact .inl h
  · simp [succeed] at h; exact .inr ⟨hc, h.symm⟩

theorem execTxbPush_cases {b : Byte} {s t : State} (h : execTxbPush b s = .next t) :
    EndsWithError cmdTxbPush s t ∨
    (commonCheck true cmdTxbPush s = none ∧ s.txLen.toNat < maxPayload ∧
      t = State.finish { s with txPay := Memory.write s.txPay s.txLen.toNat b, txLen := s.txLen + 1 } cmdTxbPush 0) := by
  rcases checked_cases h with h | ⟨hc, h⟩
  · exact .inl h
  · split at h
    · exact .inl (failWith_ends (.of_contract rfl) h)
    · rename_i h1
      simp [succeed] at h
      have := s.txLen.isLt
      exact .inr ⟨hc, by simp only [maxPayload] at *; omega, h.symm⟩

theorem execWrite_cases {opc : Opcode} {p1 p2 dst : Byte} {s t : State} (h : execWrite opc p1 p2 dst s = .next t) :
    EndsWithError cmdWrite s t ∨
    (commonCheck true cmdWrite s = none ∧ s.linkOpen = true ∧ s.poisoned = false ∧ s.cfg.opcodeValid opc = true ∧
      s.txLen = (if dst.getLsbD 7 then p1 else 0) ∧
      ((s.txFree < (s.writeBytes (s.userFrame opc p1 p2 dst)).length ∧ t = s) ∨
        ((s.writeBytes (s.userFrame opc p1 p2 dst)).length ≤ s.txFree ∧
          t = (s.enqueue (s.userFrame opc p1 p2 dst)).finish cmdWrite
            (writeData (s.dueBurst.length / hdrLen) (s.writeBytes (s.userFrame opc p1 p2 dst)).length)))) := by
  rcases checked_cases h with h | ⟨hc, h⟩
  · exact .inl h
  · obtain ⟨hf, hb⟩ := idle_of_pass hc (by decide) (by decide) (by decide)
    split at h
    · exact .inl (failWith_ends (.of_idle (by simp) hf hb) h)
    split at h
    · exact .inl (failWith_ends (.of_idle (by simp) hf hb) h)
    split at h
    · exact .inl (failWith_ends (.of_contract rfl) h)
    split at h
    · exact .inl (failWith_ends (.of_contract rfl) h)
    split at h
    · exact .inl (failWith_ends (.of_contract rfl) h)
    rename_i h1 h2 h3 h4 h5
    refine .inr ⟨hc, by simpa using h1, by simpa using h2, by simpa using h3, ?_, ?_⟩
    · cases hd : dst.getLsbD 7 <;> simp_all
    · simp only at h
      split at h
      · rename_i hlt; simp [hold] at h; exact .inl ⟨hlt, h.symm⟩
      · rename_i hlt; simp [succeed] at h; exact .inr ⟨by omega, h.symm⟩

theorem execRead_cases {eopc : Opcode} {esrc : Byte} {any : Bool} {s t : State}
    (h : execRead eopc esrc any s = .next t) :
    EndsWithError cmdRead s t ∨
    (commonCheck true cmdRead s = none ∧ s.linkOpen = true ∧ s.poisoned = false ∧
      t = (s.acceptRead eopc esrc any).endCommand) := by
  rcases checked_cases h with h | ⟨hc, h⟩
  · exact .inl h
  · obtain ⟨hf, hb⟩ := idle_of_pass hc (by decide) (by decide) (by decide)
    split at h
    · exact .inl (failWith_ends (.of_idle (by simp) hf hb) h)
    split at h
    · exact .inl (failWith_ends (.of_idle (by simp) hf hb) h)
    rename_i h1 h2
    simp at h
    exact .inr ⟨hc, by simpa using h1, by simpa using h2, h.symm⟩

theorem execAbort_cases {s t : State} (h : execAbort s = .next t) :
    EndsWithError cmdAbort s t ∨
    (s.fault = false ∧ s.busy = true ∧ t = s.abortRead.finish cmdAbort 0) ∨
    (s.fault = false ∧ s.busy = false ∧ t = s.finish cmdAbort 0) := by
  rcases checked_cases h with h | ⟨hc, h⟩
  · exact .inl h
  · have hf : s.fault = false := by
      rw [commonCheck_none_iff] at hc
      cases hf : s.fault with
      | false => rfl
      | true => rcases hc.1 hf with h | h <;> simp [cmdAbort, cmdReset, cmdRegRead] at h
    split at h
    · rename_i hb; simp [succeed] at h; exact .inr (.inl ⟨hf, hb, h.symm⟩)
    · rename_i hb; simp [succeed] at h; exact .inr (.inr ⟨hf, by simpa using hb, h.symm⟩)

theorem execDecodeFrame_cases {s t : State} (h : execDecodeFrame s = .next t) :
    EndsWithError cmdDecodeFrame s t ∨
    (commonCheck true cmdDecodeFrame s = none ∧ s.linkOpen = true ∧ s.poisoned = false ∧ complete s.rxFifo = true ∧
      t = ((s.popFrame (frameOf s.rxFifo)).loadResult (frameOf s.rxFifo)).finish cmdDecodeFrame
        (frameData (frameOf s.rxFifo).hdr)) := by
  rcases checked_cases h with h | ⟨hc, h⟩
  · exact .inl h
  · obtain ⟨hf, hb⟩ := idle_of_pass hc (by decide) (by decide) (by decide)
    split at h
    · exact .inl (failWith_ends (.of_idle (by simp) hf hb) h)
    split at h
    · exact .inl (failWith_ends (.of_idle (by simp) hf hb) h)
    split at h
    · exact .inl (failWith_ends (.of_idle (by simp) hf hb) h)
    split at h
    · exact .inl (failWith_ends (.of_idle (by simp) hf hb) h)
    rename_i h1 h2 h3 h4
    simp [succeed] at h
    exact .inr ⟨hc, by simpa using h1, by simpa using h2, by simpa using h4, h.symm⟩

theorem execRxbGet_cases {idx : BitVec 16} {s t : State} (h : execRxbGet idx s = .next t) :
    EndsWithError cmdRxbGet s t ∨
    (commonCheck true cmdRxbGet s = none ∧ s.resValid = true ∧ idx.toNat < s.resLen.toNat ∧
      t = s.finish cmdRxbGet ((s.resByte idx.toNat).setWidth 64)) := by
  rcases checked_cases h with h | ⟨hc, h⟩
  · exact .inl h
  · split at h
    · exact .inl (failWith_ends (.of_contract rfl) h)
    · rename_i h1; simp at h1; simp [succeed] at h; exact .inr ⟨hc, h1.1, h1.2, h.symm⟩

theorem execDecodeStatus_cases {off len : Byte} {s t : State} (h : execDecodeStatus off len s = .next t) :
    EndsWithError cmdDecodeStatus s t ∨
    (commonCheck true cmdDecodeStatus s = none ∧ len.toNat = statusLen ∧ s.resValid = true ∧
      off.toNat + statusLen ≤ s.resLen.toNat ∧
      t = s.finish cmdDecodeStatus (statusData s.cfg.statusBits (s.statusWord off.toNat))) := by
  rcases checked_cases h with h | ⟨hc, h⟩
  · exact .inl h
  · split at h
    · exact .inl (failWith_ends (.of_contract rfl) h)
    · split at h
      · exact .inl (failWith_ends (.of_contract rfl) h)
      · rename_i h1 h2; simp at h1 h2; simp [succeed] at h; exact .inr ⟨hc, h1, h2.1, h2.2, h.symm⟩

theorem execRegRead_cases {b : Byte} {s t : State} (h : execRegRead b s = .next t) :
    EndsWithError cmdRegRead s t ∨ (∃ v, s.regValue b = some v ∧ t = s.finish cmdRegRead (v.setWidth 64)) := by
  rcases checked_cases h with h | ⟨hc, h⟩
  · exact .inl h
  · split at h
    · exact .inl (failWith_ends (.of_contract rfl) h)
    · rename_i v hv; simp [succeed] at h; exact .inr ⟨v, hv, h.symm⟩

theorem execEvClear_cases {sel : BitVec 2} {mask : Byte} {s t : State} (h : execEvClear sel mask s = .next t) :
    EndsWithError cmdEvClear s t ∨
    (commonCheck true cmdEvClear s = none ∧ sel ≠ 0 ∧
      t = State.finish
        { s with
          evDone := if sel.getLsbD 0 then s.evDone &&& ~~~mask else s.evDone
          evHomed := if sel.getLsbD 1 then s.evHomed &&& ~~~mask else s.evHomed } cmdEvClear 0) := by
  rcases checked_cases h with h | ⟨hc, h⟩
  · exact .inl h
  · split at h
    · exact .inl (failWith_ends (.of_contract rfl) h)
    · rename_i h1
      refine .inr ⟨hc, h1, ?_⟩
      simp only [succeed, Host.Outcome.next.injEq] at h
      exact h.symm

theorem execWarnClear_cases {s t : State} (h : execWarnClear s = .next t) :
    EndsWithError cmdWarnClear s t ∨
    (commonCheck true cmdWarnClear s = none ∧
      t = State.finish { s with warnCount := 0, lastWarnOpcode := 0, lastWarnSrc := 0 } cmdWarnClear 0) := by
  rcases checked_cases h with h | ⟨hc, h⟩
  · exact .inl h
  · simp [succeed] at h; exact .inr ⟨hc, h.symm⟩

theorem illegalWord_cases {cmd : Byte} {s t : State} (h : illegalWord cmd s = .next t) : EndsWithError cmd s t :=
  failWith_ends (illegalError_fits cmd s) h

end Sys2Proof.Machine
end

