-- ==== Sys2Proof/Laws/Frames.lean ====
section
/-! SUPPORT. Wire frames as instructions: what a frame instruction encodes to and does, the frame's data, and the match
filter's conditions read through the fields of a frame (spec/42_transport.md R191). -/

namespace Sys2Proof.Machine

/-- A well-formed instruction whose encoding is a frame acts as the READ frame step on that frame (log 3). -/
theorem exec_of_frame {i : Instr} {q : List Byte} (hw : i.WellFormed = true) (h : encode i = .frame q) :
    ∃ f : Frame, q = f.bytes ∧ payloadFits f.hdr.p1 f.hdr.dst f.pay = true ∧ ∀ s, exec i s = readFrame f s := by
  cases i <;> simp only [encode, reduceCtorEq, Encoded.frame.injEq] at h <;> subst h <;>
    first
    | exact ⟨_, rfl, hw, fun s => rfl⟩
    | (refine ⟨_, rfl, ?_, fun s => rfl⟩
       simp only [Instr.WellFormed, Bool.and_eq_true, Bool.not_eq_true'] at hw
       first | exact hw.2 | (simp only [payloadFits, mkHeader, hw.1]; rfl))

/-- The instruction of a frame is well-formed and encodes to the frame's bytes (R100, R103, R160). -/
theorem frameInstr_encodes {f : Frame} (h : payloadFits f.hdr.p1 f.hdr.dst f.pay = true) :
    (frameInstr f).WellFormed = true ∧ encode (frameInstr f) = .frame f.bytes := by
  unfold frameInstr
  dsimp only
  split
  all_goals first
    | (rename_i hm
       refine ⟨h, ?_⟩
       simp only [encode, messageFrame]
       rw [opcode_of_messageOf hm, mkHeader_self])
    | skip
  rename_i hm
  split
  · rename_i hp
    simp only [Header.hasPayload, payloadBit_eq] at hp
    exact ⟨by simp only [Instr.WellFormed, isMessageOpcode_eq, hm]; simp [hp, h], by simp [encode]⟩
  · rename_i hp
    simp only [Header.hasPayload, payloadBit_eq, Bool.not_eq_true] at hp
    have hn : f.pay = [] := by simp only [payloadFits, payloadBit_eq, hp] at h; simpa using h
    exact ⟨by simp only [Instr.WellFormed, isMessageOpcode_eq, hm, payloadBit_eq, hp]; rfl, by simp [encode, ← hn]⟩

/-- The instruction of a frame acts as the READ frame step on it. -/
theorem exec_frameInstr {f : Frame} (h : payloadFits f.hdr.p1 f.hdr.dst f.pay = true) (s : State) :
    exec (frameInstr f) s = readFrame f s := by
  obtain ⟨hw, he⟩ := frameInstr_encodes h
  obtain ⟨g, hg, hfits, hx⟩ := exec_of_frame hw he
  have h1 := (frame_reads_back f [] h).2.2
  have h2 := (frame_reads_back g [] hfits).2.2
  rw [hg, h2] at h1
  rw [hx, h1]

/-- The fields of `DATA` of READ and DECODE_FRAME (R116). -/
theorem frameData_fields (h : Header) :
    (frameData h).extractLsb' 0 8 = h.opcLo ∧ (frameData h).extractLsb' 8 8 = h.opcHi ∧
    (frameData h).extractLsb' 16 8 = h.p1 ∧ (frameData h).extractLsb' 24 8 = h.p2 ∧
    (frameData h).extractLsb' 32 8 = h.dst ∧ (frameData h).extractLsb' 40 8 = h.src ∧
    (frameData h).extractLsb' 48 8 = h.payLen ∧
    (frameData h).extractLsb' 56 1 = BitVec.ofBool h.hasPayload ∧ (frameData h).extractLsb' 57 7 = 0 := by
  have e := Bool.toNat_le h.hasPayload
  refine ⟨?_, ?_, ?_, ?_, ?_, ?_, ?_, ?_, ?_⟩ <;> apply BitVec.eq_of_toNat_eq <;>
    simp only [frameData, headerNat, BitVec.extractLsb'_toNat, BitVec.toNat_ofNat, BitVec.toNat_ofBool,
      Nat.shiftRight_eq_div_pow, BitVec.ofNat_eq_ofNat] <;> omega

/-- The fields of a frame's bytes. -/
theorem headerOf_bytes (f : Frame) :
    headerOf f.bytes = f.hdr ∧ f.bytes.getD 0 0 = f.hdr.opcLo ∧ f.bytes.getD 1 0 = f.hdr.opcHi ∧
      f.bytes.getD 2 0 = f.hdr.p1 ∧ f.bytes.getD 4 0 = f.hdr.dst ∧ f.bytes.getD 5 0 = f.hdr.src := by
  simp [Frame.bytes, Header.bytes, headerOf]

/-- The payload has the length of R101. -/
theorem payLen_eq {f : Frame} (h : payloadFits f.hdr.p1 f.hdr.dst f.pay = true) :
    f.hdr.payLen.toNat = f.pay.length := by
  simp only [payloadFits, beq_iff_eq] at h
  rw [h, Header.payLen, Header.hasPayload]
  split <;> simp_all

/-- What the payload buffer reads after a frame's payload is loaded (R134). -/
theorem read_loaded {f : Frame} (mem : Memory) (h : payloadFits f.hdr.p1 f.hdr.dst f.pay = true) (j : Nat) :
    Memory.read (Memory.writeAll mem 0 (f.pay.take f.hdr.payLen.toNat)) j =
      if j < f.pay.length then f.pay[j]? else Memory.read mem j := by
  rw [payLen_eq h, List.take_length]
  split
  · rename_i hj
    have hr := Memory.read_writeAll (mem := mem) (i := 0) hj
    rwa [Nat.zero_add] at hr
  · exact Memory.read_writeAll_above (by omega)

/-- A slot holds a source when it is valid and has its address (R191). -/
theorem slotHolds_iff (s : State) (src : Byte) (j : Nat) :
    s.slotHolds src j = true ↔ j < s.cfg.nKa ∧ s.slots[j]? = some ⟨true, src⟩ := by
  simp only [State.slotHolds, State.slot, List.getD, Bool.and_eq_true, decide_eq_true_eq, beq_iff_eq, and_assoc]
  cases s.slots[j]? with
  | none => simp
  | some k => obtain ⟨v, a⟩ := k; simp

theorem mem_slotsHolding (s : State) (src : Byte) (j : Nat) :
    j ∈ s.slotsHolding src ↔ j < s.cfg.nKa ∧ s.slots[j]? = some ⟨true, src⟩ := by
  simp only [State.slotsHolding, List.mem_filter, List.mem_range, slotHolds_iff]
  exact ⟨fun h => h.2, fun h => ⟨h.1, h⟩⟩

/-- The filter's first condition (R191, R192). -/
theorem isMatch_iff (s : State) (f : Frame) :
    s.isMatch f = true ↔ f.hdr.opcode = s.expOpcode ∧ (s.expAny = true ∨ f.hdr.src = s.expSrc) := by
  simp [State.isMatch]

/-- The filter's second condition (R191, R193). -/
theorem isUnsolicited_iff (s : State) (f : Frame) :
    s.isUnsolicited f = true ↔
      f.hdr.opcode ∈ s.cfg.unsolSet ∧
      (∃ j, j < s.cfg.nKa ∧ s.slots[j]? = some ⟨true, f.hdr.src⟩) ∧ (s.expAny = true ∨ f.hdr.src ≠ s.expSrc) := by
  have hne : (s.slotsHolding f.hdr.src).isEmpty = false ↔
      ∃ j, j < s.cfg.nKa ∧ s.slots[j]? = some ⟨true, f.hdr.src⟩ := by
    rw [← Bool.not_eq_true, List.isEmpty_iff, List.eq_nil_iff_forall_not_mem]
    push Not
    simp only [mem_slotsHolding]
  simp only [State.isUnsolicited, Bool.and_eq_true, Bool.not_eq_true', hne]
  simp [and_assoc]

/-- Bit `j` of an event mask (R45). -/
theorem bitsOf_getLsbD (l : List Nat) {j : Nat} (hj : j < 8) : (bitsOf l).getLsbD j = true ↔ j ∈ l := by
  induction l with
  | nil => simp [bitsOf]
  | cons a l ih =>
    have e : bitsOf (a :: l) = (1#8 <<< a) ||| bitsOf l := rfl
    rw [e, BitVec.getLsbD_or, Bool.or_eq_true, ih, List.mem_cons]
    refine or_congr ?_ Iff.rfl
    simp [hj]
    omega

end Sys2Proof.Machine
end

