-- ==== Sys2Proof/Laws/Step.lean ====
section
/-! SUPPORT. What a step can do, said once: the event's agent takes its step (spec/00_scope.md R11). -/

namespace Sys2Proof.Machine

/-- Taking the next event changes the schedule and the draws alone (log 1). -/
theorem tick_eq (s : State) :
    s.tick = { s with schedule := s.schedule.tail, draws := s.draws + if s.schedule = [] then 1 else 0 } := by
  cases h : s.schedule <;> simp [State.tick, h]

/-- Every code below the reserved ones has a format (R114). -/
theorem formatOf_isSome {cmd : Byte} (h : cmd.toNat < 0x13) : ∃ f, formatOf cmd = some f := by
  have hn : formatOf cmd ≠ none := by
    intro hc
    have hk : ∀ n : Fin 19, formatOf (BitVec.ofNat 8 n) ≠ none := by decide
    exact hk ⟨cmd.toNat, h⟩ (by simpa using hc)
  exact Option.ne_none_iff_exists'.1 hn

/-- What an instruction does to a state, one constructor for each way a command or a frame step ends. -/
inductive Effect (s : State) : Instr → State → Prop where
  | error {i : Instr} {cmd : Byte} {t : State} (hc : commandCode i = some cmd) (h : EndsWithError cmd s t) : Effect s i t
  | nop : Effect s .nop (s.finish cmdNop 0)
  | reset : Effect s .reset (s.dropRead.applyReset.finish cmdReset 0)
  | openLink {b : Byte} (hf : s.fault = false) (hb : s.busy = false) :
      Effect s (.openLink b) ((s.openLink b).finish cmdOpen 0)
  | closeLink (hf : s.fault = false) (hb : s.busy = false) : Effect s .closeLink (s.closeLink.finish cmdClose 0)
  | kaSet {slot addr : Byte} (hs : slot.toNat < s.cfg.nKa) (ha : addr.getLsbD 7 = false) :
      Effect s (.kaSet slot addr) (State.finish { s with slots := s.slots.set slot.toNat ⟨true, addr⟩ } cmdKaSet 0)
  | kaClr {slot : Byte} (hs : slot.toNat < s.cfg.nKa) :
      Effect s (.kaClr slot) (State.finish { s with slots := s.slots.set slot.toNat ⟨false, 0x00⟩ } cmdKaClr 0)
  | lookup {idx : BitVec 16} {opc : Opcode} (ho : lookupOpcode s.cfg idx.toNat = some opc) :
      Effect s (.lookup idx) (s.finish cmdLookup (opc.setWidth 64))
  | encodeHeader {opc : Opcode} {p1 p2 dst : Byte} (ho : s.cfg.opcodeValid opc = true) :
      Effect s (.encodeHeader opc p1 p2 dst)
        (s.finish cmdEncodeHeader (headerLe48 (mkHeader opc p1 p2 dst s.hostAddr)))
  | txbClear : Effect s .txbClear (State.finish { s with txLen := 0 } cmdTxbClear 0)
  | txbPush {b : Byte} (hl : s.txLen.toNat < maxPayload) :
      Effect s (.txbPush b)
        (State.finish { s with txPay := Memory.write s.txPay s.txLen.toNat b, txLen := s.txLen + 1 } cmdTxbPush 0)
  | hold {opc : Opcode} {p1 p2 dst : Byte} : Effect s (.write opc p1 p2 dst) s
  | write {opc : Opcode} {p1 p2 dst : Byte} (hl : s.linkOpen = true) (hp : s.poisoned = false) (hf : s.fault = false)
      (hb : s.busy = false) (ho : s.cfg.opcodeValid opc = true) (ht : s.txLen = if dst.getLsbD 7 then p1 else 0)
      (hn : (s.writeBytes (s.userFrame opc p1 p2 dst)).length ≤ s.txFree) :
      Effect s (.write opc p1 p2 dst) ((s.enqueue (s.userFrame opc p1 p2 dst)).finish cmdWrite
        (writeData (s.dueBurst.length / hdrLen) (s.writeBytes (s.userFrame opc p1 p2 dst)).length))
  | read {eopc : Opcode} {esrc : Byte} {any : Bool} (hl : s.linkOpen = true) (hp : s.poisoned = false)
      (hf : s.fault = false) (hb : s.busy = false) :
      Effect s (.read eopc esrc any) (s.acceptRead eopc esrc any).endCommand
  | abort (hf : s.fault = false) (hb : s.busy = true) : Effect s .abort (s.abortRead.finish cmdAbort 0)
  | abortIdle (hf : s.fault = false) (hb : s.busy = false) : Effect s .abort (s.finish cmdAbort 0)
  | decodeFrame (hl : s.linkOpen = true) (hp : s.poisoned = false) (hf : s.fault = false) (hb : s.busy = false)
      (hc : complete s.rxFifo = true) :
      Effect s .decodeFrame (((s.popFrame (frameOf s.rxFifo)).loadResult (frameOf s.rxFifo)).finish cmdDecodeFrame
        (frameData (frameOf s.rxFifo).hdr))
  | rxbGet {idx : BitVec 16} (hv : s.resValid = true) (hl : idx.toNat < s.resLen.toNat) :
      Effect s (.rxbGet idx) (s.finish cmdRxbGet ((s.resByte idx.toNat).setWidth 64))
  | decodeStatus {off len : Byte} (h4 : len.toNat = statusLen) (hv : s.resValid = true)
      (hl : off.toNat + statusLen ≤ s.resLen.toNat) :
      Effect s (.decodeStatus off len)
        (s.finish cmdDecodeStatus (statusData s.cfg.statusBits (s.statusWord off.toNat)))
  | regRead {b : Byte} {v : BitVec 32} (hv : s.regValue b = some v) :
      Effect s (.regRead b) (s.finish cmdRegRead (v.setWidth 64))
  | evClear {sel : BitVec 2} {mask : Byte} (h0 : sel ≠ 0) :
      Effect s (.evClear sel mask) (State.finish
        { s with
          evDone := if sel.getLsbD 0 then s.evDone &&& ~~~mask else s.evDone
          evHomed := if sel.getLsbD 1 then s.evHomed &&& ~~~mask else s.evHomed } cmdEvClear 0)
  | warnClear : Effect s .warnClear
      (State.finish { s with warnCount := 0, lastWarnOpcode := 0, lastWarnSrc := 0 } cmdWarnClear 0)
  | frame {i : Instr} {f : Frame} {t : State} (hc : commandCode i = none) (h : readFrame f s = .next t) : Effect s i t

/-- Every instruction has one of the effects. -/
theorem exec_effect {i : Instr} {s t : State} (h : exec i s = .next t) : Effect s i t := by
  have idle : ∀ {cmd : Byte}, commonCheck true cmd s = none → cmd ≠ cmdReset → cmd ≠ cmdRegRead → cmd ≠ cmdAbort →
      s.fault = false ∧ s.busy = false := fun hc h1 h2 h3 => idle_of_pass hc h1 h2 h3
  cases i <;> try exact .frame rfl h
  · rcases execNop_cases h with h | ⟨-, rfl⟩
    exacts [.error rfl h, .nop]
  · rw [execReset_cases h]; exact .reset
  · rcases execOpen_cases h with h | ⟨hc, rfl⟩
    · exact .error rfl h
    · obtain ⟨hf, hb⟩ := idle hc (by decide) (by decide) (by decide)
      exact .openLink hf hb
  · rcases execClose_cases h with h | ⟨hc, rfl⟩
    · exact .error rfl h
    · obtain ⟨hf, hb⟩ := idle hc (by decide) (by decide) (by decide)
      exact .closeLink hf hb
  · rcases execKaSet_cases h with h | ⟨-, hs, ha, rfl⟩
    exacts [.error rfl h, .kaSet hs ha]
  · rcases execKaClr_cases h with h | ⟨-, hs, rfl⟩
    exacts [.error rfl h, .kaClr hs]
  · rcases execLookup_cases h with h | ⟨-, opc, ho, rfl⟩
    exacts [.error rfl h, .lookup ho]
  · rcases execEncodeHeader_cases h with h | ⟨-, ho, rfl⟩
    exacts [.error rfl h, .encodeHeader ho]
  · rcases execTxbClear_cases h with h | ⟨-, rfl⟩
    exacts [.error rfl h, .txbClear]
  · rcases execTxbPush_cases h with h | ⟨-, hl, rfl⟩
    exacts [.error rfl h, .txbPush hl]
  · rcases execWrite_cases h with h | ⟨hc, hl, hp, ho, ht, ⟨-, rfl⟩ | ⟨hn, rfl⟩⟩
    · exact .error rfl h
    · exact .hold
    · obtain ⟨hf, hb⟩ := idle hc (by decide) (by decide) (by decide)
      exact .write hl hp hf hb ho ht hn
  · rcases execRead_cases h with h | ⟨hc, hl, hp, rfl⟩
    · exact .error rfl h
    · obtain ⟨hf, hb⟩ := idle hc (by decide) (by decide) (by decide)
      exact .read hl hp hf hb
  · rcases execAbort_cases h with h | ⟨hf, hb, rfl⟩ | ⟨hf, hb, rfl⟩
    exacts [.error rfl h, .abort hf hb, .abortIdle hf hb]
  · rcases execDecodeFrame_cases h with h | ⟨hc, hl, hp, hq, rfl⟩
    · exact .error rfl h
    · obtain ⟨hf, hb⟩ := idle hc (by decide) (by decide) (by decide)
      exact .decodeFrame hl hp hf hb hq
  · rcases execRxbGet_cases h with h | ⟨-, hv, hl, rfl⟩
    exacts [.error rfl h, .rxbGet hv hl]
  · rcases execDecodeStatus_cases h with h | ⟨-, h4, hv, hl, rfl⟩
    exacts [.error rfl h, .decodeStatus h4 hv hl]
  · rcases execRegRead_cases h with h | ⟨v, hv, rfl⟩
    exacts [.error rfl h, .regRead hv]
  · rcases execEvClear_cases h with h | ⟨-, h0, rfl⟩
    exacts [.error rfl h, .evClear h0]
  · rcases execWarnClear_cases h with h | ⟨-, rfl⟩
    exacts [.error rfl h, .warnClear]
  · exact .error rfl (illegalWord_cases h)

/-- The instruction of a command word carries the word's code (R111, R117). -/
theorem commandCode_commandInstr (w : CmdWord) : commandCode (commandInstr w) = some (cmdOf w) := by
  unfold commandInstr
  dsimp only
  by_cases h0 : cmdOf w = 0x00
  · rw [if_pos h0, h0]; rfl
  rw [if_neg h0]
  by_cases h1 : cmdOf w = 0x01
  · rw [if_pos h1, h1]; rfl
  rw [if_neg h1]
  by_cases h2 : cmdOf w = 0x02
  · rw [if_pos h2, h2]; rfl
  rw [if_neg h2]
  by_cases h3 : cmdOf w = 0x03
  · rw [if_pos h3, h3]; rfl
  rw [if_neg h3]
  by_cases h4 : cmdOf w = 0x04
  · rw [if_pos h4, h4]; rfl
  rw [if_neg h4]
  by_cases h5 : cmdOf w = 0x05
  · rw [if_pos h5, h5]; rfl
  rw [if_neg h5]
  by_cases h6 : cmdOf w = 0x06
  · rw [if_pos h6, h6]; rfl
  rw [if_neg h6]
  by_cases h7 : cmdOf w = 0x07
  · rw [if_pos h7, h7]; rfl
  rw [if_neg h7]
  by_cases h8 : cmdOf w = 0x08
  · rw [if_pos h8, h8]; rfl
  rw [if_neg h8]
  by_cases h9 : cmdOf w = 0x09
  · rw [if_pos h9, h9]; rfl
  rw [if_neg h9]
  by_cases h10 : cmdOf w = 0x0A
  · rw [if_pos h10, h10]; rfl
  rw [if_neg h10]
  by_cases h11 : cmdOf w = 0x0B
  · rw [if_pos h11, h11]; rfl
  rw [if_neg h11]
  by_cases h12 : cmdOf w = 0x0C
  · rw [if_pos h12, h12]; rfl
  rw [if_neg h12]
  by_cases h13 : cmdOf w = 0x0D
  · rw [if_pos h13, h13]; rfl
  rw [if_neg h13]
  by_cases h14 : cmdOf w = 0x0E
  · rw [if_pos h14, h14]; rfl
  rw [if_neg h14]
  by_cases h15 : cmdOf w = 0x0F
  · rw [if_pos h15, h15]; rfl
  rw [if_neg h15]
  by_cases h16 : cmdOf w = 0x10
  · rw [if_pos h16, h16]; rfl
  rw [if_neg h16]
  by_cases h17 : cmdOf w = 0x11
  · rw [if_pos h17, h17]; rfl
  rw [if_neg h17]
  by_cases h18 : cmdOf w = 0x12
  · rw [if_pos h18, h18]; rfl
  rw [if_neg h18]
  rfl

/-- A command word decodes to a command. -/
theorem commandCode_of_decode {w : CmdWord} {i : Instr} (h : decodeCommand w = .ok i) :
    i = commandInstr w ∧ commandCode i = some (cmdOf w) := by
  have hi : i = commandInstr w := by
    simp only [decodeCommand] at h
    split at h
    · simpa using h.symm
    · split at h
      · simpa using h.symm
      · cases h
  exact ⟨hi, hi ▸ commandCode_commandInstr w⟩

/-- What the core does with the word on the port (R12). -/
theorem coreCommand_cases {s t : State} (h : coreCommand s = .next t) :
    (s.port = none ∧ t = s) ∨
    (∃ w i, s.port = some w ∧ decodeCommand w = .ok i ∧ exec i s = .next t) ∨
    (∃ w e, s.port = some w ∧ decodeCommand w = .error e ∧ EndsWithError (cmdOf w) s t) := by
  unfold coreCommand at h
  split at h
  · rename_i hp; simp [hold] at h; exact .inl ⟨hp, h.symm⟩
  · rename_i w hp
    split at h
    · rename_i i hd; exact .inr (.inl ⟨w, i, hp, hd, h⟩)
    · rename_i e hd; exact .inr (.inr ⟨w, e, hp, hd, illegalWord_cases h⟩)

/-- What the core's frame step does (R191). -/
theorem coreFrame_cases {s t : State} (h : coreFrame s = .next t) :
    t = s ∨
    (s.busy = true ∧ complete s.rxFifo = true ∧ readFrame (frameOf s.rxFifo) s = .next t ∧
      payloadFits (frameOf s.rxFifo).hdr.p1 (frameOf s.rxFifo).hdr.dst (frameOf s.rxFifo).pay = true ∧
      (frameOf s.rxFifo).bytes ++ s.rxFifo.drop (frameLen s.rxFifo) = s.rxFifo) := by
  unfold coreFrame at h
  split at h
  · rename_i hb
    split at h
    · rename_i i rest hd
      simp only [decodeFrame] at hd
      split at hd
      · split at hd
        · rename_i hc
          obtain ⟨hs, hf⟩ := complete_split hc
          simp only [Except.ok.injEq, Prod.mk.injEq] at hd
          rw [← hd.1, exec_frameInstr hf] at h
          exact .inr ⟨hb, hc, h, hf, hs⟩
        · cases hd
      · cases hd
    · simp [hold] at h; exact .inl h.symm
  · simp [hold] at h; exact .inl h.symm

/-- What a step can do: the configuration is valid, and with `u` the state without the event taken off the schedule,
one of the agents moved. -/
theorem step_cases {s t : State} (h : step s = .next t) :
    s.cfg.Valid ∧ ∃ u, u = s.tick ∧
      ((∃ w, s.nextEvent = .hostIssue w ∧ t = u.hostIssue w) ∨
        (s.nextEvent = .coreCommand ∧ coreCommand u = .next t) ∨
        (s.nextEvent = .coreFrame ∧ coreFrame u = .next t) ∨
        (∃ b, s.nextEvent = .wireRx b ∧ t = u.wireRx b) ∨
        (∃ c, s.nextEvent = .wireTx c ∧ t = u.wireTx c) ∨
        (s.nextEvent = .resetInput ∧ t = u.resetInput)) := by
  obtain ⟨hv, h⟩ := step_next h
  refine ⟨hv, _, rfl, ?_⟩
  cases he : s.nextEvent <;> simp only [he, agentStep, Host.Outcome.next.injEq] at h
  · exact .inl ⟨_, rfl, h.symm⟩
  · exact .inr (.inl ⟨rfl, h⟩)
  · exact .inr (.inr (.inl ⟨rfl, h⟩))
  · exact .inr (.inr (.inr (.inl ⟨_, rfl, h.symm⟩)))
  · exact .inr (.inr (.inr (.inr (.inl ⟨_, rfl, h.symm⟩))))
  · exact .inr (.inr (.inr (.inr (.inr ⟨rfl, h.symm⟩))))

end Sys2Proof.Machine
end

