-- ==== Sys2Proof/Laws/Line.lean ====
section
/-! SUPPORT. The line as the remote reads it: the frames of a byte sequence (spec/30_encoding.md R100, R132), the
sessions between openings, the count since a keep-alive, and the permission of spec/60_exceptions.md R262. -/

namespace Sys2Proof.Machine

/-! ## The frames of a byte sequence -/

theorem six_le_frameLen (q : List Byte) : 6 ≤ frameLen q := by simp [frameLen]

/-- Fuel beyond the length changes nothing. -/
theorem framesIn_fuel {n : Nat} {q : List Byte} (h : q.length ≤ n) : framesIn n q = framesIn q.length q := by
  have aux : ∀ m (q : List Byte), q.length ≤ m → ∀ n, q.length ≤ n → framesIn n q = framesIn m q := by
    intro m
    induction m with
    | zero =>
      intro q hm n hn
      have : q = [] := by simpa using hm
      subst this
      cases n <;> rfl
    | succ m ih =>
      intro q hm n hn
      cases n with
      | zero =>
        have : q = [] := by simpa using hn
        subst this
        rfl
      | succ n =>
        have := six_le_frameLen q
        simp only [framesIn]
        split
        · rw [ih _ (by simp; omega) n (by simp; omega)]
        · rfl
  exact aux _ q (Nat.le_refl _) n h

/-- A frame with the payload its header announces is the first of the frames. -/
theorem framesIn_cons {f : Frame} (rest : List Byte) (h : payloadFits f.hdr.p1 f.hdr.dst f.pay = true) :
    framesIn (f.bytes ++ rest).length (f.bytes ++ rest) = f :: framesIn rest.length rest := by
  obtain ⟨hc, hl, hf⟩ := frame_reads_back f rest h
  have hlen : (f.bytes ++ rest).length = (f.bytes ++ rest).length - 1 + 1 := by simp; omega
  rw [hlen]
  simp only [framesIn, hc, if_true, hf, hl, List.drop_left]
  rw [framesIn_fuel (by simp; omega)]

/-- Whole frames come first, in order. -/
theorem framesIn_append {fs : List Frame} (rest : List Byte)
    (h : ∀ f ∈ fs, payloadFits f.hdr.p1 f.hdr.dst f.pay = true) :
    framesIn (fs.flatMap Frame.bytes ++ rest).length (fs.flatMap Frame.bytes ++ rest)
      = fs ++ framesIn rest.length rest := by
  induction fs with
  | nil => rfl
  | cons f fs ih =>
    rw [List.flatMap_cons, List.append_assoc, framesIn_cons _ (h f (by simp)), ih fun g hg => h g (by simp [hg])]
    rfl

/-- Without a complete frame at the head there is none. -/
theorem framesIn_incomplete {q : List Byte} (h : complete q = false) (n : Nat) : framesIn n q = [] := by
  cases n <;> simp [framesIn, h]

/-- More bytes at the end take no frame away. -/
theorem framesIn_prefix (q r : List Byte) : framesIn q.length q <+: framesIn (q ++ r).length (q ++ r) := by
  induction hn : q.length using Nat.strongRecOn generalizing q with
  | ind n ih =>
    cases hc : complete q with
    | false => rw [framesIn_incomplete hc]; exact List.nil_prefix
    | true =>
      obtain ⟨hs, hf⟩ := complete_split hc
      have hlt : (q.drop (frameLen q)).length < n := by
        have := six_le_frameLen q
        simp [complete, hdrReady] at hc
        simp; omega
      have := ih _ hlt (q.drop (frameLen q)) rfl
      rw [← hn, ← hs, List.append_assoc, framesIn_cons _ hf, framesIn_cons _ hf]
      exact List.prefix_cons_inj _ |>.2 this

/-! ## Sessions -/

/-- The last opening cuts the line: before it the earlier sessions, after it the current one. -/
theorem lineSessions_append (line : List Byte) (start : Nat) (os : List Nat) (o : Nat) (h : ∀ x ∈ os, x ≤ o) :
    lineSessions line start (os ++ [o]) = lineSessions (line.take o) start os ++ [line.drop o] := by
  induction os generalizing start with
  | nil => rfl
  | cons x os ih =>
    simp only [List.cons_append, lineSessions]
    rw [ih _ fun y hy => h y (by simp [hy]), List.take_take, Nat.min_eq_left (h x (by simp))]

/-- Bytes added to the line only lengthen sessions. -/
theorem lineSessions_prefix (line more : List Byte) (start : Nat) (os : List Nat) :
    List.Forall₂ (· <+: ·) (lineSessions line start os) (lineSessions (line ++ more) start os) := by
  induction os generalizing start with
  | nil =>
    refine .cons ?_ .nil
    rw [List.drop_append]
    exact List.prefix_append _ _
  | cons o os ih =>
    refine .cons ?_ (ih o)
    rw [List.take_append, List.drop_append]
    exact List.prefix_append _ _

/-- An opening now starts an empty session. -/
theorem lineSessions_open (line : List Byte) (start : Nat) (os : List Nat) :
    List.Forall₂ (· <+: ·) (lineSessions line start os ++ [[]])
      (lineSessions line start (os ++ [line.length])) := by
  induction os generalizing start with
  | nil => simp [lineSessions]
  | cons o os ih => exact .cons List.prefix_rfl (ih o)

/-- What a step does to the line, the queue's head and the openings: nothing, a byte leaves, or the link is opened; the
parameters stay. -/
theorem step_line {s t : State} (h : step s = .next t) :
    t.cfg = s.cfg ∧
    ((t.line = s.line ∧ t.opens = s.opens) ∨
      (∃ b, s.txQ = b :: t.txQ ∧ t.line = s.line ++ [b] ∧ t.opens = s.opens) ∨
      (t.line = s.line ∧ t.opens = s.opens ++ [s.line.length])) := by
  obtain ⟨-, u, rfl, h⟩ := step_cases h
  have same : ∀ t : State, t.cfg = s.cfg → t.line = s.line → t.opens = s.opens → t.cfg = s.cfg ∧
      ((t.line = s.line ∧ t.opens = s.opens) ∨
        (∃ b, s.txQ = b :: t.txQ ∧ t.line = s.line ++ [b] ∧ t.opens = s.opens) ∨
        (t.line = s.line ∧ t.opens = s.opens ++ [s.line.length])) := fun t h1 h2 h3 => ⟨h1, .inl ⟨h2, h3⟩⟩
  rcases h with ⟨w, -, rfl⟩ | ⟨-, h⟩ | ⟨-, h⟩ | ⟨b, -, rfl⟩ | ⟨c, -, rfl⟩ | ⟨-, rfl⟩
  · rcases hostIssue_cases s.tick w with ⟨-, h⟩ | ⟨-, h⟩ <;> rw [h] <;> exact same _ (by simp) (by simp) (by simp)
  · rcases coreCommand_cases h with ⟨-, rfl⟩ | ⟨w, i, -, hd, h⟩ | ⟨w, e, -, -, e', -, rfl⟩
    · exact same _ (by simp) (by simp) (by simp)
    · have hcode := (commandCode_of_decode hd).2
      cases exec_effect h with
      | error _ h => obtain ⟨e, -, rfl⟩ := h; exact same _ (by simp) (by simp) (by simp)
      | frame hc _ => rw [hc] at hcode; contradiction
      | reset =>
        refine same _ ?_ ?_ ?_ <;>
          (simp only [State.dropRead, applyReset_cfg, applyReset_line, applyReset_opens, finish_cfg, finish_line,
            finish_opens]; split <;> simp)
      | openLink => exact ⟨by simp, .inr (.inr ⟨by simp, by simp⟩)⟩
      | _ => exact same _ (by simp) (by simp) (by simp)
    · exact same _ (by simp) (by simp) (by simp)
  · rcases coreFrame_cases h with rfl | ⟨-, -, h, -, -⟩
    · exact same _ (by simp) (by simp) (by simp)
    · rcases readFrame_cases h with ⟨-, rfl⟩ | ⟨-, -, rfl⟩ | ⟨-, -, -, rfl⟩ | ⟨-, -, -, rfl⟩ <;>
        exact same _ (by simp) (by simp) (by simp)
  · rcases wireRx_cases s.tick b with ⟨-, h⟩ | ⟨-, h⟩ <;> rw [h] <;> exact same _ (by simp) (by simp) (by simp)
  · rcases wireTx_cases s.tick c with ⟨b, rest, -, hq, h⟩ | ⟨-, h⟩ <;> rw [h]
    · exact ⟨by simp, .inr (.inl ⟨b, by simpa using hq, by simp, by simp⟩)⟩
    · exact same _ (by simp) (by simp) (by simp)
  · exact same _ (by simp [State.resetInput]) (by simp [State.resetInput]) (by simp [State.resetInput])

/-! ## Counting since a keep-alive -/

/-- Counting goes on over further frames. -/
theorem framesSince_append (c : Config) (a : Byte) (fs gs : List Frame) :
    framesSince c a (fs ++ gs) =
      gs.foldl (fun n f => if isKeepAliveTo c a f then 0 else if isKeepAlive c f then n else n + 1)
        (framesSince c a fs) := List.foldl_append

/-- Keep-alive packets never raise the count. -/
theorem framesSince_burst_le {c : Config} {a : Byte} {fs gs : List Frame} (h : ∀ g ∈ gs, isKeepAlive c g = true) :
    framesSince c a (fs ++ gs) ≤ framesSince c a fs := by
  rw [framesSince_append]
  generalize framesSince c a fs = n
  induction gs generalizing n with
  | nil => exact Nat.le_refl n
  | cons g gs ih =>
    refine Nat.le_trans (ih (fun g hg => h g (by simp [hg])) _) ?_
    simp only [h g (by simp), if_true]
    split <;> simp

/-- A keep-alive packet to the address among them sets it to zero (R262). -/
theorem framesSince_burst_zero {c : Config} {a : Byte} {fs gs : List Frame} (h : ∀ g ∈ gs, isKeepAlive c g = true)
    (ha : ∃ g ∈ gs, isKeepAliveTo c a g = true) : framesSince c a (fs ++ gs) = 0 := by
  obtain ⟨g, hg, hk⟩ := ha
  obtain ⟨l, r, rfl⟩ := List.append_of_mem hg
  have hz : framesSince c a (fs ++ l ++ [g]) = 0 := by
    rw [framesSince_append]; simp [hk]
  have hr := framesSince_burst_le (a := a) (fs := fs ++ l ++ [g]) fun x (hx : x ∈ r) => h x (by simp [hx])
  simp only [List.append_assoc, List.cons_append, List.nil_append] at hr hz ⊢
  omega

/-- A keep-alive packet addressed to a base address is one (R182). -/
theorem keepAlivePacket_isKeepAliveTo {c : Config} {hostAddr a : Byte} (h : a.getLsbD payloadBit = false) :
    isKeepAliveTo c a (keepAlivePacket c hostAddr a) = true := by
  rw [payloadBit_eq] at h
  simp only [isKeepAliveTo, keepAlivePacket, mkHeader_opcode, mkHeader_hasPayload, h]
  simp [mkHeader]

/-! ## The permission -/

/-- The permission in terms of the last session and those before it (R262). -/
theorem deadlineEverPassed_append (c : Config) (earlier : List Frame) (ss : List (List Frame)) (now : List Frame) :
    deadlineEverPassed c earlier (ss ++ [now]) = (deadlineEverPassed c earlier ss ||
      (List.range (now.length + 1)).any fun n => deadlinePassed c (earlier ++ ss.flatten) (now.take n)) := by
  induction ss generalizing earlier with
  | nil => simp [deadlineEverPassed]
  | cons s ss ih => simp only [List.cons_append, deadlineEverPassed, ih, List.flatten_cons, Bool.or_assoc,
      List.append_assoc]

/-- A permission given stays when sessions lengthen: "from then on" (R262). -/
theorem deadlineEverPassed_mono {c : Config} {earlier earlier' : List Frame} {ss ss' : List (List Frame)}
    (he : earlier ⊆ earlier') (hs : List.Forall₂ (· <+: ·) ss ss') (h : deadlineEverPassed c earlier ss = true) :
    deadlineEverPassed c earlier' ss' = true := by
  induction hs generalizing earlier earlier' with
  | nil => simp [deadlineEverPassed] at h
  | @cons now now' ss ss' hp hs ih =>
    simp only [deadlineEverPassed, Bool.or_eq_true] at h ⊢
    obtain ⟨more, rfl⟩ := hp
    rcases h with h | h
    · left
      simp only [List.any_eq_true, List.mem_range] at h ⊢
      obtain ⟨n, hn, h⟩ := h
      refine ⟨n, by simp; omega, ?_⟩
      have hk : (now ++ more).take n = now.take n := by
        rw [List.take_append, Nat.sub_eq_zero_of_le (by omega)]; simp
      rw [hk]
      simp only [deadlinePassed, List.any_eq_true] at h ⊢
      obtain ⟨f, hf, h⟩ := h
      exact ⟨f, List.mem_append.2 ((List.mem_append.1 hf).imp (@he f) id), h⟩
    · exact .inr (ih (fun x hx => List.mem_append.2 ((List.mem_append.1 hx).imp (@he x) fun hx => by simp [hx])) h)

/-- Once given, the permission outlives every later session. -/
theorem deadlineEverPassed_later {c : Config} {earlier : List Frame} {ss : List (List Frame)} (now : List Frame)
    (h : deadlineEverPassed c earlier ss = true) : deadlineEverPassed c earlier (ss ++ [now]) = true := by
  rw [deadlineEverPassed_append, h, Bool.true_or]

/-- The frames of lengthened sessions begin with the frames of the sessions. -/
theorem framesIn_forall₂ {ss ss' : List (List Byte)} (h : List.Forall₂ (· <+: ·) ss ss') :
    List.Forall₂ (· <+: ·) (ss.map fun q => framesIn q.length q) (ss'.map fun q => framesIn q.length q) := by
  induction h with
  | nil => exact .nil
  | cons hp _ ih =>
    obtain ⟨r, rfl⟩ := hp
    exact .cons (framesIn_prefix _ r) ih

end Sys2Proof.Machine
end

