-- ==== Sys2Proof/Laws/PerInstr.lean ====
section
/-! SUPPORT. The family made per instruction: what the encoding of each well-formed instruction looks like
(spec/30_encoding.md R100, R111, R114). -/

namespace Sys2Proof.Laws.EncodedShape

/-- A well-formed command encodes to a word with its code in bits 47..40; a well-formed frame instruction encodes to a
byte sequence that is exactly one complete frame. -/
def Statement (i : Instr) : Prop :=
  i.WellFormed = true →
    match Machine.commandCode i, encode i with
    | some c, .command w => cmdOf w = c
    | none, .frame q => complete q = true ∧ frameLen q = q.length
    | some _, .frame _ => False
    | none, .command _ => False

/-- A frame with the payload its header announces is exactly one complete frame. -/
theorem whole {f : Frame} (h : payloadFits f.hdr.p1 f.hdr.dst f.pay = true) :
    complete f.bytes = true ∧ frameLen f.bytes = f.bytes.length := by
  have hb := frame_reads_back f [] h
  rw [List.append_nil] at hb
  exact ⟨hb.1, hb.2.1⟩

theorem nop : Statement (.nop) := fun _ => cmdOf_mkWord _ _
theorem reset : Statement (.reset) := fun _ => cmdOf_mkWord _ _
theorem openLink (b : Byte) : Statement (.openLink b) := fun _ => cmdOf_mkWord _ _
theorem closeLink : Statement (.closeLink) := fun _ => cmdOf_mkWord _ _
theorem kaSet (slot addr : Byte) : Statement (.kaSet slot addr) := fun _ => cmdOf_mkWord _ _
theorem kaClr (slot : Byte) : Statement (.kaClr slot) := fun _ => cmdOf_mkWord _ _
theorem lookup (idx : BitVec 16) : Statement (.lookup idx) := fun _ => cmdOf_mkWord _ _
theorem encodeHeader (opc : Opcode) (p1 p2 dst : Byte) : Statement (.encodeHeader opc p1 p2 dst) := fun _ => cmdOf_mkWord _ _
theorem txbClear : Statement (.txbClear) := fun _ => cmdOf_mkWord _ _
theorem txbPush (b : Byte) : Statement (.txbPush b) := fun _ => cmdOf_mkWord _ _
theorem write (opc : Opcode) (p1 p2 dst : Byte) : Statement (.write opc p1 p2 dst) := fun _ => cmdOf_mkWord _ _
theorem read (eopc : Opcode) (esrc : Byte) (any : Bool) : Statement (.read eopc esrc any) := fun _ => cmdOf_mkWord _ _
theorem abort : Statement (.abort) := fun _ => cmdOf_mkWord _ _
theorem decodeFrame : Statement (.decodeFrame) := fun _ => cmdOf_mkWord _ _
theorem rxbGet (idx : BitVec 16) : Statement (.rxbGet idx) := fun _ => cmdOf_mkWord _ _
theorem decodeStatus (off len : Byte) : Statement (.decodeStatus off len) := fun _ => cmdOf_mkWord _ _
theorem regRead (b : Byte) : Statement (.regRead b) := fun _ => cmdOf_mkWord _ _
theorem evClear (sel : BitVec 2) (mask : Byte) : Statement (.evClear sel mask) := fun _ => cmdOf_mkWord _ _
theorem warnClear : Statement (.warnClear) := fun _ => cmdOf_mkWord _ _
theorem reservedCmd (code : Byte) (operands : BitVec 40) : Statement (.reservedCmd code operands) := fun _ => cmdOf_mkWord _ _

theorem frameShort (opc : Opcode) (p1 p2 dst src : Byte) : Statement (.frameShort opc p1 p2 dst src) := by
  intro h
  simp only [Instr.WellFormed, Bool.and_eq_true, Bool.not_eq_true'] at h
  exact whole (f := ⟨mkHeader opc p1 p2 dst src, []⟩) (by simp only [payloadFits, mkHeader, h.1]; rfl)

theorem frameLong (opc : Opcode) (p1 p2 dst src : Byte) (pay : List Byte) :
    Statement (.frameLong opc p1 p2 dst src pay) := by
  intro h
  simp only [Instr.WellFormed, Bool.and_eq_true] at h
  exact whole (f := ⟨mkHeader opc p1 p2 dst src, pay⟩) h.2

theorem moveAbsolute (p1 p2 dst src : Byte) (pay : List Byte) : Statement (.moveAbsolute p1 p2 dst src pay) :=
  fun h => whole (f := messageFrame .moveAbsolute p1 p2 dst src pay) h
theorem moveHome (p1 p2 dst src : Byte) (pay : List Byte) : Statement (.moveHome p1 p2 dst src pay) :=
  fun h => whole (f := messageFrame .moveHome p1 p2 dst src pay) h
theorem moveCompleted (p1 p2 dst src : Byte) (pay : List Byte) : Statement (.moveCompleted p1 p2 dst src pay) :=
  fun h => whole (f := messageFrame .moveCompleted p1 p2 dst src pay) h
theorem getStatus (p1 p2 dst src : Byte) (pay : List Byte) : Statement (.getStatus p1 p2 dst src pay) :=
  fun h => whole (f := messageFrame .getStatus p1 p2 dst src pay) h
theorem setVelParams (p1 p2 dst src : Byte) (pay : List Byte) : Statement (.setVelParams p1 p2 dst src pay) :=
  fun h => whole (f := messageFrame .setVelParams p1 p2 dst src pay) h
theorem reqStatus (p1 p2 dst src : Byte) (pay : List Byte) : Statement (.reqStatus p1 p2 dst src pay) :=
  fun h => whole (f := messageFrame .reqStatus p1 p2 dst src pay) h
theorem ackStatus (p1 p2 dst src : Byte) (pay : List Byte) : Statement (.ackStatus p1 p2 dst src pay) :=
  fun h => whole (f := messageFrame .ackStatus p1 p2 dst src pay) h
theorem moveHomed (p1 p2 dst src : Byte) (pay : List Byte) : Statement (.moveHomed p1 p2 dst src pay) :=
  fun h => whole (f := messageFrame .moveHomed p1 p2 dst src pay) h
theorem reqEncCounter (p1 p2 dst src : Byte) (pay : List Byte) : Statement (.reqEncCounter p1 p2 dst src pay) :=
  fun h => whole (f := messageFrame .reqEncCounter p1 p2 dst src pay) h
theorem getEncCounter (p1 p2 dst src : Byte) (pay : List Byte) : Statement (.getEncCounter p1 p2 dst src pay) :=
  fun h => whole (f := messageFrame .getEncCounter p1 p2 dst src pay) h
theorem reqVelParams (p1 p2 dst src : Byte) (pay : List Byte) : Statement (.reqVelParams p1 p2 dst src pay) :=
  fun h => whole (f := messageFrame .reqVelParams p1 p2 dst src pay) h
theorem getVelParams (p1 p2 dst src : Byte) (pay : List Byte) : Statement (.getVelParams p1 p2 dst src pay) :=
  fun h => whole (f := messageFrame .getVelParams p1 p2 dst src pay) h
theorem setChanEnable (p1 p2 dst src : Byte) (pay : List Byte) : Statement (.setChanEnable p1 p2 dst src pay) :=
  fun h => whole (f := messageFrame .setChanEnable p1 p2 dst src pay) h
theorem reqChanEnable (p1 p2 dst src : Byte) (pay : List Byte) : Statement (.reqChanEnable p1 p2 dst src pay) :=
  fun h => whole (f := messageFrame .reqChanEnable p1 p2 dst src pay) h
theorem getChanEnable (p1 p2 dst src : Byte) (pay : List Byte) : Statement (.getChanEnable p1 p2 dst src pay) :=
  fun h => whole (f := messageFrame .getChanEnable p1 p2 dst src pay) h

end Sys2Proof.Laws.EncodedShape
end

