-- ==== Sys2Proof/Laws/Safety.lean ====
section
/-! SUPPORT. The vocabulary of the claims against the shared operations: what a response, an error of each class and
the common checks leave behind. -/

namespace Sys2Proof.Machine

/-- Ending with `OK` is answering with `OK`. -/
theorem finish_eq_answered (s : State) (cmd : Byte) (d : BitVec 64) : s.finish cmd d = s.answered cmd .ok d := rfl

/-- `FAULTED` leaves only its response (R44, R245). -/
theorem raise_faulted (s : State) (cmd : Byte) : s.raise cmd .faulted = s.answered cmd .faulted 0 := by
  simp [State.raise, State.record, State.respond, State.endCommand, State.answered, ErrorCode.recorded,
    ErrorCode.isContract, ErrorCode.isLink]

/-- A contract error (R243). -/
theorem raise_contract (s : State) (cmd : Byte) {e : ErrorCode} (h : e.isContract = true) :
    s.raise cmd e = s.contractError cmd e := by
  cases e <;> simp [ErrorCode.isContract] at h <;>
    simp [State.raise, State.record, State.respond, State.endCommand, State.answered, State.contractError,
      State.stateError, ErrorCode.recorded, ErrorCode.isContract, ErrorCode.isLink]

/-- A link error (R244). -/
theorem raise_link (s : State) (cmd : Byte) {e : ErrorCode} (h : e.isLink = true) :
    s.raise cmd e = s.linkError cmd e := by
  cases e <;> simp [ErrorCode.isLink] at h <;>
    simp [State.raise, State.record, State.respond, State.endCommand, State.answered, State.linkError,
      State.stateError, ErrorCode.recorded, ErrorCode.isContract, ErrorCode.isLink]

/-- `NOT_OPEN` leaves its record and response (R245). -/
theorem raise_notOpen (s : State) (cmd : Byte) : s.raise cmd .notOpen = s.stateError cmd .notOpen := by
  simp [State.raise, State.record, State.respond, State.endCommand, State.answered, State.stateError,
    ErrorCode.recorded, ErrorCode.isContract, ErrorCode.isLink]

/-- `POISONED` leaves its record and response (R245). -/
theorem raise_errPoisoned (s : State) (cmd : Byte) : s.raise cmd .poisoned = s.stateError cmd .poisoned := by
  simp [State.raise, State.record, State.respond, State.endCommand, State.answered, State.stateError,
    ErrorCode.recorded, ErrorCode.isContract, ErrorCode.isLink]

/-- An idle block passes the common checks. -/
theorem State.Idle.pass {s : State} (h : s.Idle) (cmd : Byte) : commonCheck true cmd s = none :=
  commonCheck_idle h.1 h.2

/-- On an idle block a checked command is its body. -/
theorem checked_idle {s : State} (h : s.Idle) (cmd : Byte) (body : Host.Outcome State Fault Refusal) :
    checked cmd s body = body := checked_pass (h.pass cmd)

/-- RESET and REG_READ are exempt from both common checks (R246). -/
theorem checked_exempt {cmd : Byte} (h : cmd = cmdReset ∨ cmd = cmdRegRead) (s : State)
    (body : Host.Outcome State Fault Refusal) : checked cmd s body = body :=
  checked_pass (by rcases h with rfl | rfl <;> simp [commonCheck_none_iff])

/-- A checked command under a contract fault. -/
theorem checked_faulted {cmd : Byte} {s : State} {body : Host.Outcome State Fault Refusal} (hf : s.fault = true)
    (h1 : cmd ≠ cmdReset) (h2 : cmd ≠ cmdRegRead) : checked cmd s body = .next (s.answered cmd .faulted 0) := by
  rw [checked_fail (e := .faulted) (by simp [commonCheck, hf, h1, h2]), raise_faulted]

/-- A checked command while a READ is pending. -/
theorem checked_busy {cmd : Byte} {s : State} {body : Host.Outcome State Fault Refusal} (hf : s.fault = false)
    (hb : s.busy = true) (h1 : cmd ≠ cmdReset) (h2 : cmd ≠ cmdRegRead) (h3 : cmd ≠ cmdAbort) :
    checked cmd s body = .next (s.contractError cmd .busy) := by
  rw [checked_fail (e := .busy) (by simp [commonCheck, hf, hb, h1, h2, h3]), raise_contract _ _ rfl]

/-- What a word that is not legal leaves behind (R115, R246). -/
theorem illegalWord_eq (cmd : Byte) (s : State) :
    illegalWord cmd s = .next (
      if s.fault then s.answered cmd .faulted 0
      else if s.busy then s.contractError cmd .busy
      else s.contractError cmd .illegalCommand) := by
  simp only [illegalWord, failWith, illegalError_eq]
  have hb : s.raise cmd .busy = s.contractError cmd .busy := raise_contract s cmd rfl
  have hi : s.raise cmd .illegalCommand = s.contractError cmd .illegalCommand := raise_contract s cmd rfl
  cases s.fault <;> cases s.busy <;> simp [raise_faulted, hb, hi]

end Sys2Proof.Machine
end

