-- ==== Sys2Proof/Tests/Slice0.lean ====
section
/-! SUPPORT. The model's own tests. Expected results are those of spec/95_test_vectors.md and of the rules' examples; a
word is written out from the tables of spec/30_encoding.md R113 and R114. -/

namespace Sys2Proof.Tests

open Sys2Proof.Machine

/-! ## Well-formedness refuses -/

theorem test_wf_reserved_code_below_13 : (Instr.reservedCmd 0x12 0).WellFormed = false := by decide
theorem test_wf_short_with_payload_flag : (Instr.frameShort 0x1234 0 0 0x81 0x21).WellFormed = false := by decide
theorem test_wf_short_with_message_opcode : (Instr.frameShort 0x0464 0 0 0x01 0x21).WellFormed = false := by decide
theorem test_wf_long_without_flag : (Instr.frameLong 0x1234 1 0 0x01 0x21 [0xFF]).WellFormed = false := by decide
theorem test_wf_long_with_message_opcode : (Instr.frameLong 0x0491 1 0 0x81 0x21 [0xFF]).WellFormed = false := by decide
theorem test_wf_long_wrong_length : (Instr.frameLong 0x1234 2 0 0x81 0x21 [0xFF]).WellFormed = false := by decide
theorem test_wf_message_wrong_length :
    [Instr.moveAbsolute 1 0 0x81 0x21 [], .moveHome 1 0 0x81 0x21 [], .moveCompleted 1 0 0x81 0x21 [],
     .getStatus 1 0 0x81 0x21 [], .setVelParams 1 0 0x81 0x21 [], .reqStatus 1 0 0x81 0x21 [],
     .ackStatus 1 0 0x81 0x21 [], .moveHomed 1 0 0x81 0x21 [], .reqEncCounter 1 0 0x81 0x21 [],
     .getEncCounter 1 0 0x81 0x21 [], .reqVelParams 1 0 0x81 0x21 [], .getVelParams 1 0 0x81 0x21 [],
     .setChanEnable 1 0 0x81 0x21 [], .reqChanEnable 1 0 0x81 0x21 [],
     .getChanEnable 1 0 0x81 0x21 []].any Instr.WellFormed = false := by decide
theorem test_wf_message_short_with_payload : (Instr.moveHome 1 0 0x01 0x21 [0xFF]).WellFormed = false := by decide

/-! ## Decoding: every constructor by a word written out from its encoding -/

/-- The instruction a word decodes to, if it does. -/
def dec (e : Encoded) : Option Instr :=
  match decode e with
  | .ok i => some i
  | .error _ => none

theorem test_decode_nop : dec (.command 0x000000000000) = some .nop := by decide
theorem test_decode_reset : dec (.command 0x010000000000) = some .reset := by decide
theorem test_decode_open : dec (.command 0x0200000000A5) = some (.openLink 0xA5) := by decide
theorem test_decode_close : dec (.command 0x030000000000) = some .closeLink := by decide
theorem test_decode_ka_set : dec (.command 0x040000000122) = some (.kaSet 1 0x22) := by decide
theorem test_decode_ka_clr : dec (.command 0x050000000300) = some (.kaClr 3) := by decide
theorem test_decode_lookup : dec (.command 0x06000000010E) = some (.lookup 0x010E) := by decide
theorem test_decode_encode_header :
    dec (.command 0x070443010250) = some (.encodeHeader 0x0443 0x01 0x02 0x50) := by decide
theorem test_decode_txb_clear : dec (.command 0x080000000000) = some .txbClear := by decide
theorem test_decode_txb_push : dec (.command 0x09000000004E) = some (.txbPush 0x4E) := by decide
theorem test_decode_write : dec (.command 0x0A04530600A1) = some (.write 0x0453 0x06 0x00 0xA1) := by decide
theorem test_decode_read : dec (.command 0x0B0464210000) = some (.read 0x0464 0x21 false) := by decide
theorem test_decode_read_any : dec (.command 0x0B0464000100) = some (.read 0x0464 0x00 true) := by decide
theorem test_decode_abort : dec (.command 0x0C0000000000) = some .abort := by decide
theorem test_decode_decode_frame : dec (.command 0x0D0000000000) = some .decodeFrame := by decide
theorem test_decode_rxb_get : dec (.command 0x0E0000000102) = some (.rxbGet 0x0102) := by decide
theorem test_decode_decode_status : dec (.command 0x0F0000000A04) = some (.decodeStatus 10 4) := by decide
theorem test_decode_reg_read : dec (.command 0x10000000000F) = some (.regRead 0x0F) := by decide
theorem test_decode_ev_clear : dec (.command 0x1100000002FE) = some (.evClear 2 0xFE) := by decide
theorem test_decode_warn_clear : dec (.command 0x120000000000) = some .warnClear := by decide
theorem test_decode_reserved : dec (.command 0x130000000007) = some (.reservedCmd 0x13 7) := by decide
theorem test_decode_frame_short :
    dec (.frame [0x6A, 0x04, 0x05, 0x06, 0x01, 0x21]) = some (.frameShort 0x046A 5 6 0x01 0x21) := by decide
theorem test_decode_frame_long :
    dec (.frame [0x6A, 0x04, 0x02, 0x06, 0x81, 0x21, 0xAA, 0xBB])
      = some (.frameLong 0x046A 2 6 0x81 0x21 [0xAA, 0xBB]) := by decide
theorem test_decode_move_absolute :
    dec (.frame [0x53, 0x04, 0x06, 0x00, 0x81, 0x21, 0x01, 0x00, 0x20, 0x4E, 0x00, 0x00])
      = some (.moveAbsolute 6 0 0x81 0x21 [0x01, 0x00, 0x20, 0x4E, 0x00, 0x00]) := by decide
theorem test_decode_move_home :
    dec (.frame [0x43, 0x04, 0x01, 0x02, 0x50, 0x03]) = some (.moveHome 1 2 0x50 3 []) := by decide
theorem test_decode_move_completed :
    dec (.frame [0x64, 0x04, 0x01, 0x02, 0x50, 0x03]) = some (.moveCompleted 1 2 0x50 3 []) := by decide
theorem test_decode_get_status :
    dec (.frame [0x91, 0x04, 0x00, 0x02, 0x81, 0x03]) = some (.getStatus 0 2 0x81 3 []) := by decide
theorem test_decode_set_vel_params :
    dec (.frame [0x13, 0x04, 0x01, 0x02, 0x50, 0x03]) = some (.setVelParams 1 2 0x50 3 []) := by decide
theorem test_decode_req_status :
    dec (.frame [0x90, 0x04, 0x01, 0x02, 0x50, 0x03]) = some (.reqStatus 1 2 0x50 3 []) := by decide
theorem test_decode_ack_status :
    dec (.frame [0x92, 0x04, 0x01, 0x02, 0x50, 0x03]) = some (.ackStatus 1 2 0x50 3 []) := by decide
theorem test_decode_move_homed :
    dec (.frame [0x44, 0x04, 0x01, 0x02, 0x50, 0x03]) = some (.moveHomed 1 2 0x50 3 []) := by decide
theorem test_decode_req_enc_counter :
    dec (.frame [0x0A, 0x04, 0x01, 0x02, 0x50, 0x03]) = some (.reqEncCounter 1 2 0x50 3 []) := by decide
theorem test_decode_get_enc_counter :
    dec (.frame [0x0B, 0x04, 0x01, 0x02, 0x50, 0x03]) = some (.getEncCounter 1 2 0x50 3 []) := by decide
theorem test_decode_req_vel_params :
    dec (.frame [0x14, 0x04, 0x01, 0x02, 0x50, 0x03]) = some (.reqVelParams 1 2 0x50 3 []) := by decide
theorem test_decode_get_vel_params :
    dec (.frame [0x15, 0x04, 0x01, 0x02, 0x50, 0x03]) = some (.getVelParams 1 2 0x50 3 []) := by decide
theorem test_decode_set_chan_enable :
    dec (.frame [0x10, 0x02, 0x01, 0x02, 0x50, 0x03]) = some (.setChanEnable 1 2 0x50 3 []) := by decide
theorem test_decode_req_chan_enable :
    dec (.frame [0x11, 0x02, 0x01, 0x02, 0x50, 0x03]) = some (.reqChanEnable 1 2 0x50 3 []) := by decide
theorem test_decode_get_chan_enable :
    dec (.frame [0x12, 0x02, 0x01, 0x02, 0x50, 0x03]) = some (.getChanEnable 1 2 0x50 3 []) := by decide

theorem test_decode_nop_reserved_bit : dec (.command 0x000000000001) = none := by decide
theorem test_decode_read_reserved_bit : dec (.command 0x0B0464210001) = none := by decide
theorem test_decode_ev_clear_reserved_bit : dec (.command 0x110000000403) = none := by decide
theorem test_decode_incomplete_payload :
    dec (.frame [0x91, 0x04, 0x0E, 0x00, 0x81, 0x21, 0x01, 0x02, 0x03]) = none := by decide
theorem test_decode_incomplete_header : dec (.frame [0x64, 0x04, 0x01]) = none := by decide

theorem test_table_words :
    decodeTableWord 48 0x0A0490010050 = some (.write 0x0490 1 0 0x50) ∧
    decodeTableWord 16 0x0464 = some (.moveCompleted 0 0 0 0 []) ∧
    decodeTableWord 48 0x000000000464 = some (.moveCompleted 0 0 0 0 []) ∧
    decodeTableWord 48 0x008000000000 = some (.frameLong 0 0 0 0x80 0 []) ∧
    decodeTableWord 48 0x210100010465 = some (.reservedCmd 0x21 0x0100010465) := by decide

/-! ## Running one step -/

/-- The link open with host address 1, slots 0 and 1 registered. -/
def opened : State :=
  { State.reset with
    linkOpen := true
    hostAddr := 0x01
    slots := [⟨true, 0x21⟩, ⟨true, 0x22⟩, ⟨false, 0⟩, ⟨false, 0⟩] }

/-- `opened` with a READ of `0x0464` from `0x21` pending, and the bytes received. -/
def reading (rx : List Byte) : State :=
  { opened with busy := true, expOpcode := 0x0464, expSrc := 0x21, rxFifo := rx }

/-- A held frame whose payload is the bytes. -/
def holding (pay : List Byte) : State :=
  { opened with
    resValid := true
    resHdr := ⟨0x91, 0x04, BitVec.ofNat 8 pay.length, 0x00, 0x81, 0x50⟩
    resHasPayload := true
    resLen := BitVec.ofNat 8 pay.length
    resPay := Memory.writeAll [] 0 pay }

/-- A contract fault is pending. -/
def faulty : State := { opened with fault := true, lastErr := 1, lastErrCmd := 0x06 }

/-- The word on the port of `s`, executed by one step of the machine. -/
def runWord (s : State) (w : CmdWord) : Host.Outcome State Fault Refusal :=
  step (s.placeCommand w)

/-- One READ frame step. -/
def runFrame (s : State) : Host.Outcome State Fault Refusal := step { s with schedule := [.coreFrame] }

/-- The next state, if there is one, seen through `f`. -/
def view {α : Type} (f : State → α) : Host.Outcome State Fault Refusal → Option α
  | .next s => some (f s)
  | .fault _ => none
  | .refused _ => none

/-- The responses of a step from a state without any. -/
def answers (o : Host.Outcome State Fault Refusal) : Option (List Response) := view State.responses o

/-! ### The codec (spec/95_test_vectors.md §2) -/

theorem test_encode_header :
    answers (runWord opened 0x070443010050) = some [⟨0x07, .ok, 0x0000015000010443⟩] := by decide
theorem test_encode_header_invalid :
    view (fun s => (s.statusReg, s.lastErrReg)) (runWord State.reset 0x071234000050)
      = some (0x00000204, 0x00000702) := by decide
theorem test_decode_frame_long_run :
    view (fun s => (s.responses, s.resPayload, s.rxFifo))
      (runWord { opened with rxFifo := [0x53, 0x04, 0x06, 0x00, 0x81, 0x21, 0x01, 0x00, 0x20, 0x4E, 0x00, 0x00, 0x44] }
        0x0D0000000000)
      = some ([⟨0x0D, .ok, 0x0106218100060453⟩], [0x01, 0x00, 0x20, 0x4E, 0x00, 0x00], [0x44]) := by decide
theorem test_decode_frame_incomplete :
    view (fun s => (s.statusReg, s.rxFifo.length))
      (runWord { opened with rxFifo := [0x91, 0x04, 0x0E, 0x00, 0x81, 0x21, 0x01, 0x02, 0x03] } 0x0D0000000000)
      = some (0x00000443, 9) := by decide
theorem test_decode_status :
    answers (runWord (holding [0, 0, 0, 0, 0, 0, 0, 0, 0, 0, 0x01, 0x04, 0x00, 0x80]) 0x0F0000000A04)
      = some [⟨0x0F, .ok, 0x8000040100001081⟩] := by decide
theorem test_decode_status_slice_past_end :
    answers (runWord (holding [0, 0, 0, 0, 0, 0, 0, 0, 0, 0, 0x01, 0x04, 0x00, 0x80]) 0x0F0000000B04)
      = some [⟨0x0F, .malformedPacket, 0⟩] := by decide

/-! ### The command table (§3) -/

theorem test_lookup_last : answers (runWord State.reset 0x06000000000E) = some [⟨0x06, .ok, 0x0212⟩] := by decide
theorem test_lookup_past_end :
    view (fun s => (s.statusReg, s.lastErrReg)) (runWord State.reset 0x06000000000F)
      = some (0x00000104, 0x00000601) := by decide

/-! ### Transport (§4, §5) -/

theorem test_open :
    view (fun s => (s.statusReg, s.hostAddr, s.rxFifo)) (runWord { opened with poisoned := true, rxFifo := [1, 2] } 0x020000000007)
      = some (0x00000001, 0x07, []) := by decide
theorem test_close : view State.statusReg (runWord opened 0x030000000000) = some 0 := by decide
theorem test_write_plain :
    view (fun s => (s.responses, s.kaCount, s.txQ)) (runWord { opened with kaCount := 20 } 0x0A0490010050)
      = some ([⟨0x0A, .ok, 0x0000000000060000⟩], 21, [0x90, 0x04, 0x01, 0x00, 0x50, 0x01]) := by decide
theorem test_write_burst :
    view (fun s => (s.responses, s.kaCount, s.txQ)) (runWord { opened with kaCount := 21 } 0x0A0490010050)
      = some ([⟨0x0A, .ok, 0x0000000000120002⟩], 1,
          [0x92, 0x04, 0x00, 0x00, 0x21, 0x01, 0x92, 0x04, 0x00, 0x00, 0x22, 0x01,
           0x90, 0x04, 0x01, 0x00, 0x50, 0x01]) := by decide
theorem test_read_pends :
    view (fun s => (s.responses, s.busy, s.expReg)) (runWord opened 0x0B0464210000)
      = some ([], true, 0x00210464) := by decide
theorem test_abort_partial :
    view (fun s => (s.responses, s.statusReg)) (runWord (reading [0x64, 0x04, 0x01]) 0x0C0000000000)
      = some ([⟨0x0B, .incompleteFrame, 0⟩, ⟨0x0C, .ok, 0⟩], 0x00000443) := by decide
theorem test_abort_empty :
    view (fun s => (s.responses, s.statusReg)) (runWord (reading []) 0x0C0000000000)
      = some ([⟨0x0B, .aborted, 0⟩, ⟨0x0C, .ok, 0⟩], 0x00000503) := by decide

/-! ### Frames (§5) -/

theorem test_move_completed_match :
    view (fun s => (s.responses, s.busy, s.rxFifo)) (runFrame (reading [0x64, 0x04, 0x01, 0x00, 0x01, 0x21, 0x55]))
      = some ([⟨0x0B, .ok, 0x0000210100010464⟩], false, [0x55]) := by decide
theorem test_move_completed_other_axis :
    view (fun s => (s.responses, s.busy, s.evDone, s.warnCount)) (runFrame (reading [0x64, 0x04, 0x01, 0x00, 0x01, 0x22]))
      = some ([], true, 0x02, 0) := by decide
theorem test_move_homed_other_axis :
    view (fun s => (s.busy, s.evHomed, s.evDone)) (runFrame (reading [0x44, 0x04, 0x01, 0x00, 0x01, 0x22]))
      = some (true, 0x02, 0) := by decide
theorem test_move_homed_expected_source :
    view (fun s => (s.warnCount, s.lastWarnReg)) (runFrame (reading [0x44, 0x04, 0x01, 0x00, 0x01, 0x21]))
      = some (1, 0x00210444) := by decide
theorem test_frame_short_anomaly :
    view (fun s => (s.warnCount, s.lastWarnReg, s.rxFifo)) (runFrame (reading [0x6A, 0x04, 0x00, 0x00, 0x01, 0x21]))
      = some (1, 0x0021046A, []) := by decide
theorem test_frame_long_anomaly :
    view (fun s => (s.lastWarnReg, s.rxFifo, s.resValid)) (runFrame (reading [0x6A, 0x04, 0x01, 0x00, 0x81, 0x21, 0xFF, 0x07]))
      = some (0x0021046A, [0x07], false) := by decide
theorem test_get_status_match :
    view (fun s => (s.responses, s.resPayload))
      (runFrame { reading [0x91, 0x04, 0x02, 0x00, 0x81, 0x50, 0xAB, 0xCD] with expOpcode := 0x0491, expSrc := 0x50 })
      = some ([⟨0x0B, .ok, 0x0102508100020491⟩], [0xAB, 0xCD]) := by decide
theorem test_other_messages_match :
    [Message.moveAbsolute, .moveHome, .setVelParams, .reqStatus, .ackStatus, .reqEncCounter, .getEncCounter,
     .reqVelParams, .getVelParams, .setChanEnable, .reqChanEnable, .getChanEnable].all (fun m =>
      view State.busy (runFrame { reading (messageFrame m 0 0 0x01 0x21 []).bytes with expOpcode := m.opcode })
        == some false) = true := by decide

/-! ### Host interface (§6) -/

theorem test_nop : answers (runWord State.reset 0x000000000000) = some [⟨0x00, .ok, 0⟩] := by decide
theorem test_nop_while_reading :
    view (fun s => (s.responses, s.statusReg)) (runWord (reading []) 0x000000000000)
      = some ([⟨0x00, .busy, 0⟩], 0x0000080D) := by decide
theorem test_reset_while_reading :
    view (fun s => (s.responses, s.statusReg)) (runWord (reading [1]) 0x010000000000)
      = some ([⟨0x0B, .aborted, 0⟩, ⟨0x01, .ok, 0⟩], 0) := by decide
theorem test_reset_clears_fault : view State.statusReg (runWord faulty 0x010000000000) = some 0 := by decide
theorem test_ka_set : view (fun s => s.kaSlotReg 1) (runWord State.reset 0x040000000122) = some 0x00000122 := by decide
-- R62 gives 0x0000040B; spec/95_test_vectors.md §6 prints the two bytes swapped (log 16).
theorem test_ka_set_bad_slot : view State.lastErrReg (runWord State.reset 0x040000000422) = some 0x0000040B := by decide
theorem test_ka_clr : view (fun s => s.kaSlotReg 1) (runWord opened 0x050000000100) = some 0 := by decide
theorem test_txb_push :
    view (fun s => (s.txLen, s.txPayload)) (runWord { opened with txLen := 1, txPay := [(0, 0x01)] } 0x090000000020)
      = some (2, [0x01, 0x20]) := by decide
theorem test_txb_push_full :
    answers (runWord { opened with txLen := 255 } 0x090000000000) = some [⟨0x09, .txOverflow, 0⟩] := by decide
theorem test_txb_clear : view State.txLen (runWord { opened with txLen := 2 } 0x080000000000) = some 0 := by decide
theorem test_rxb_get :
    answers (runWord (holding [0x01, 0x00, 0x00, 0x10, 0x00, 0x00]) 0x0E0000000003) = some [⟨0x0E, .ok, 0x10⟩] := by decide
theorem test_rxb_get_past_end :
    answers (runWord (holding [0x01, 0x00]) 0x0E0000000002) = some [⟨0x0E, .badIndex, 0⟩] := by decide
theorem test_reg_read_params :
    answers (runWord State.reset 0x10000000000F) = some [⟨0x10, .ok, 0x000F0414⟩] := by decide
theorem test_reg_read_unimplemented :
    answers (runWord State.reset 0x100000000014) = some [⟨0x10, .illegalCommand, 0⟩] := by decide
theorem test_ev_clear :
    view (fun s => (s.evDone, s.evHomed)) (runWord { opened with evDone := 0x03, evHomed := 0x01 } 0x110000000102)
      = some (0x01, 0x01) := by decide
theorem test_ev_clear_none_selected :
    answers (runWord State.reset 0x110000000000) = some [⟨0x11, .illegalCommand, 0⟩] := by decide
theorem test_warn_clear :
    view (fun s => (s.warnCount, s.lastWarnReg))
      (runWord { opened with warnCount := 3, lastWarnOpcode := 0x0491, lastWarnSrc := 0x21 } 0x120000000000)
      = some (0, 0) := by decide

/-! ### The common checks (§7) and the other agents -/

theorem test_reserved_code : view State.statusReg (runWord State.reset 0x130000000000) = some 0x00000904 := by decide
theorem test_reserved_code_faulted :
    answers (runWord faulty 0x130000000000) = some [⟨0x13, .faulted, 0⟩] := by decide
theorem test_reserved_bit : view State.lastErrReg (runWord State.reset 0x000000000001) = some 0x00000009 := by decide
theorem test_illegal_reset_is_no_reset :
    answers (runWord faulty 0x010000000001) = some [⟨0x01, .faulted, 0⟩] := by decide
theorem test_wire_rx :
    view State.rxFifo (step { opened with rxFifo := [0x64], schedule := [.wireRx 0x04] }) = some [0x64, 0x04] := by decide
theorem test_wire_rx_closed :
    view State.rxFifo (step { State.reset with schedule := [.wireRx 0x04] }) = some [] := by decide
theorem test_wire_tx :
    view (fun s => (s.line, s.txQ)) (step { opened with txQ := [0x90, 0x04], line := [0x01], schedule := [.wireTx true] })
      = some ([0x01, 0x90], [0x04]) := by decide
theorem test_reset_input :
    view (fun s => (s.responses, s.statusReg, s.port))
      (step { reading [1] with port := some 0, schedule := [.resetInput] })
      = some ([], 0, none) := by decide

end Sys2Proof.Tests
end

