-- ==== Sys2Proof/Tests/Witness.lean ====
section
/-! SUPPORT. For each obligation with hypotheses, a concrete state and operands that meet them all together, at the
boundary values of its clauses. -/

namespace Sys2Proof.Tests

open Sys2Proof.Machine

/-- The next state of a step, where there is one. -/
def after : Host.Outcome State Fault Refusal → State
  | .next s => s
  | .fault _ => State.reset
  | .refused _ => State.reset

/-- The outcome is a next state. -/
def isNext : Host.Outcome State Fault Refusal → Bool
  | .next _ => true
  | .fault _ => false
  | .refused _ => false

theorem next_after {o : Host.Outcome State Fault Refusal} (h : isNext o = true) : o = .next (after o) := by
  cases o <;> simp_all [isNext, after]

/-! ## States -/

/-- The parameters with the smallest buffers and tables that R8 allows, `KA_THRESH` 0 and one slot. -/
def small : Config :=
  { Config.default with
    kaThresh := 0, kaDeadline := 2, nKa := 1, rxDepth := 261, txqDepth := 267 }

/-- The link open under those parameters, its one slot registered. -/
def smallOpen : State :=
  { State.powerOn small with linkOpen := true, hostAddr := 0x01, slots := [⟨true, 0x21⟩] }

/-- `opened` with a word on the port and the core's turn. -/
def withWord (w : CmdWord) : State := opened.placeCommand w

/-- A READ is pending and the event is next. -/
def readingNext (rx : List Byte) (e : Event) : State := { reading rx with schedule := [e] }

theorem small_valid : small.Valid := by decide
theorem default_valid : Config.default.Valid := by decide
theorem opened_idle : opened.Idle := ⟨rfl, rfl⟩

/-- `opened`, with its READ pending or not, any count, any bytes received and sent, and any word and schedule, meets the
invariant. -/
theorem opened_invariant (busy : Bool) (ka : BitVec 8) (rx : List Byte) (port : Option CmdWord) (later : List Event)
    (line : List Byte) (opens : List Nat) (hk : ka.toNat ≤ 21) (h : rx.length ≤ 512)
    (ho : (opens ++ [line.length]).Pairwise (· ≤ ·)) :
    State.Invariant { opened with
      busy := busy, kaCount := ka, rxFifo := rx, port := port, schedule := later, line := line, opens := opens } where
  cfgValid := default_valid
  kaBound := hk
  slotCount := rfl
  slotBase := (by decide : ∀ k ∈ opened.slots, k.addr.getLsbD 7 = false)
  slotEmpty := (by decide : ∀ k ∈ opened.slots, k.valid = false → k.addr = 0x00)
  rxBound := h
  txBound := (by decide : opened.txQ.length ≤ opened.cfg.txqDepth)
  closedEmpty := by intro h; cases h
  busyOpen := fun _ => ⟨rfl, rfl⟩
  resFlag := (by decide : opened.resHasPayload = opened.resHdr.hasPayload)
  resLength := (by decide : opened.resLen = opened.resHdr.payLen)
  resEmpty := fun _ => rfl
  resPayWf := rfl
  txPayWf := rfl
  resWritten := by intro i h; exact absurd h (Nat.not_lt_zero i)
  txWritten := by intro i h; exact absurd h (Nat.not_lt_zero i)
  errRange := (by decide : opened.lastErr.toNat ≤ 13)
  faultCause := rfl
  poisonCause := by intro h; cases h
  evDoneRange := by intro i _; simp [opened, State.reset, State.powerOn]
  evHomedRange := by intro i _; simp [opened, State.reset, State.powerOn]
  warnEmpty := fun _ => ⟨rfl, rfl⟩
  opensRise := ho

/-! ## Encoding -/

theorem witness_DecodeOfEncode :
    [Instr.write 0xFFFF 0xFF 0x00 0xFF, .read 0 0xFF true, .evClear 3 0xFF, .reservedCmd 0x13 0, .reservedCmd 0xFF 1,
     .frameShort 0 0xFF 0 0x7F 0xFF, .frameLong 0xFFFF 0 0 0x80 0 [], .frameLong 0 2 0 0xFF 0 [0, 1],
     .moveCompleted 1 0 0x01 0x21 [], .getStatus 1 0 0x81 0x21 [7]].all Instr.WellFormed = true := by decide
theorem witness_CommandWordHasOneMeaning :
    decodeCommand 0x12FFFFFFFFFF = .error .reservedBits ∧ decodeCommand 0x120000000000 = .ok .warnClear ∧
    decodeCommand 0x13FFFFFFFFFF = .ok (.reservedCmd 0x13 0xFFFFFFFFFF) := by decide
theorem witness_FrameBytesHaveOneMeaning :
    decodeFrame [0x6A, 0x04, 0x01, 0x00, 0x81, 0x21, 0x44, 0x55] = .ok (.frameLong 0x046A 1 0 0x81 0x21 [0x44], [0x55]) := by
  decide
theorem witness_FrameLengthFromFirstSixBytes :
    ([0x6A, 0x04, 0x01, 0x00, 0x81, 0x21] : List Byte).length = 6 ∧
    frameLen [0x6A, 0x04, 0x01, 0x00, 0x81, 0x21] = 7 ∧ frameLen [0x6A, 0x04, 0x01, 0x00, 0x7F, 0x21] = 6 := by decide
theorem witness_ReservedBitsAreRejected :
    (0x13 : Nat) ≤ ((0x130000000000 : CmdWord).extractLsb' 40 8).toNat ∧
    decodeCommand 0x040000010000 = .error .reservedBits := by decide

/-! ## Steps -/

/-- A word and a frame; and no word, no READ pending, five bytes, and a payload that is not whole yet. -/
theorem witness_StepRunsDecodedInstruction :
    opened.cfg.Valid ∧ (withWord 0).schedule = [.coreCommand] ∧ (withWord 0).port = some 0 ∧
    decodeCommand 0 = .ok .nop ∧
    (readingNext [0x64, 0x04, 0x01, 0x00, 0x01, 0x21] .coreFrame).schedule = [.coreFrame] ∧
    (readingNext [0x64, 0x04, 0x01, 0x00, 0x01, 0x21] .coreFrame).busy = true ∧
    decodeFrame (readingNext [0x64, 0x04, 0x01, 0x00, 0x01, 0x21] .coreFrame).rxFifo
      = .ok (.moveCompleted 1 0 0x01 0x21 [], []) ∧
    ({ opened with schedule := [.coreCommand] } : State).port = none ∧
    ({ opened with schedule := [.coreFrame] } : State).busy = false ∧
    (readingNext [0x64, 0x04, 0x01, 0x00, 0x01] .coreFrame).rxFifo.length < 6 ∧
    (readingNext [0x91, 0x04, 0x01, 0x00, 0x81, 0x21] .coreFrame).rxFifo.length
      < frameLen (readingNext [0x91, 0x04, 0x01, 0x00, 0x81, 0x21] .coreFrame).rxFifo := by decide
/-- In each of the three cases. -/
theorem witness_StepRaisesIllegalWord :
    decodeCommand 0x000000000001 = .error .reservedBits ∧
    (∀ s ∈ [opened, faulty, reading []], s.cfg.Valid ∧
      (s.placeCommand 0x000000000001).schedule = [.coreCommand] ∧
      (s.placeCommand 0x000000000001).port = some 0x000000000001) := by decide
/-- `KA_THRESH + 1 < KA_DEADLINE` at its boundary. -/
theorem witness_StepRefusesExactlyBadConfigurations :
    Config.Valid { Config.default with kaDeadline := 22 } ∧ ¬ Config.Valid { Config.default with kaDeadline := 21 } := by
  decide
/-- The FIFO with room for one byte, and full. -/
theorem witness_WireAgentsMoveBytesInOrder :
    (List.replicate 260 (0 : Byte)).length < smallOpen.cfg.rxDepth ∧
    ¬ (List.replicate 261 (0 : Byte)).length < smallOpen.cfg.rxDepth ∧
    smallOpen.cfg.Valid ∧ smallOpen.linkOpen = true ∧
    ({ smallOpen with schedule := [.wireRx 7] } : State).schedule = [.wireRx 7] ∧
    ({ smallOpen with schedule := [.wireTx true], txQ := [1] } : State).txQ = 1 :: [] ∧
    ({ smallOpen with schedule := [.wireTx false], txQ := [1] } : State).schedule = [.wireTx false] ∧
    ({ smallOpen with schedule := [.wireTx true] } : State).txQ = [] :=
  ⟨by rw [List.length_replicate]; decide, by rw [List.length_replicate]; decide, by decide⟩
theorem witness_HostFillsAFreePort :
    opened.cfg.Valid ∧ ({ opened with schedule := [.hostIssue 5] } : State).port = none ∧
    ({ opened with schedule := [.hostIssue 5], port := some 6 } : State).port = some 6 := by decide
theorem witness_ResetInputAbandonsAndResets :
    opened.cfg.Valid ∧ (readingNext [1] .resetInput).schedule = [.resetInput] := by decide
/-- The last slot's register. -/
theorem witness_RegistersReadZeroAfterReset :
    opened.cfg.Valid ∧ (0x13 : Byte).toNat < 0x10 + opened.cfg.nKa ∧ (0x13 : Byte) ≠ 0x0F ∧
    (0x0E : Byte).toNat < 0x10 + opened.cfg.nKa ∧ (0x0E : Byte) ≠ 0x0F := by decide
theorem witness_ContractFaultRefusesEveryCommand :
    commandCode .abort = some 0x0C ∧ faulty.fault = true ∧ Instr.abort ≠ .reset ∧ ∀ b, Instr.abort ≠ .regRead b :=
  ⟨rfl, rfl, by decide, fun b => by simp⟩
theorem witness_PendingReadRefusesOtherCommands :
    commandCode .nop = some 0x00 ∧ (reading []).fault = false ∧ (reading []).busy = true ∧ Instr.nop ≠ .reset ∧
    Instr.nop ≠ .abort ∧ ∀ b, Instr.nop ≠ .regRead b :=
  ⟨rfl, rfl, rfl, by decide, by decide, fun b => by simp⟩
/-- A contract error, a link error, a state error and `FAULTED`. -/
theorem witness_ErrorsArePrecise :
    answers (exec (.kaSet 4 0x22) opened) = some (opened.responses ++ [⟨0x04, .badSlot, 0⟩]) ∧
    answers (exec .decodeFrame opened) = some (opened.responses ++ [⟨0x0D, .incompleteFrame, 0⟩]) ∧
    answers (exec (.read 0 0 true) State.reset) = some (State.reset.responses ++ [⟨0x0B, .notOpen, 0⟩]) ∧
    answers (exec .nop faulty) = some (faulty.responses ++ [⟨0x00, .faulted, 0⟩]) := by decide
/-- The RESET word and the reset input. -/
theorem witness_ContractFaultClearedOnlyByReset :
    faulty.fault = true ∧ view State.fault (step (faulty.placeCommand 0x010000000000)) = some false ∧
    view State.fault (step { faulty with schedule := [.resetInput] }) = some false := by decide
/-- The OPEN and RESET words and the reset input. -/
theorem witness_PoisonClearedOnlyByReopening :
    let s : State := { opened with poisoned := true, lastErr := 5, lastErrCmd := 0x0B }
    s.poisoned = true ∧ view State.poisoned (step (s.placeCommand 0x0200000000FF)) = some false ∧
    view State.poisoned (step (s.placeCommand 0x010000000000)) = some false ∧
    view State.poisoned (step { s with schedule := [.resetInput] }) = some false := by decide
/-- The host issues a word; the core ends one. -/
theorem witness_OneResponsePerCommand :
    let s : State := { opened with schedule := [.hostIssue 0] }
    isNext (step s) = true ∧ s.nextEvent = .hostIssue 0 ∧ s.port = none ∧
    isNext (step (withWord 0)) = true ∧ (withWord 0).nextEvent = .coreCommand := by decide
theorem witness_ErrorResponsesHoldNoData :
    isNext (step (faulty.placeCommand 0)) = true ∧ ∀ r ∈ (faulty.placeCommand 0).responses, r.err ≠ .ok → r.data = 0 := by
  decide
theorem witness_ParametersNeverChange : isNext (step (withWord 0x010000000000)) = true := by decide
/-- A READ pending and its frame received. -/
theorem witness_StepKeepsInvariant :
    State.Invariant { opened with
      busy := true, rxFifo := [0x64, 0x04, 0x01, 0x00, 0x01, 0x22], port := none, schedule := [.coreFrame], opens := [] } ∧
    isNext (step { opened with
      busy := true, rxFifo := [0x64, 0x04, 0x01, 0x00, 0x01, 0x22], port := none, schedule := [.coreFrame], opens := [] })
      = true :=
  ⟨opened_invariant _ 0 _ _ _ [] _ (by decide) (by decide) (by decide), by decide⟩
theorem witness_InvariantAfterReset : small.Valid ∧ Config.default.Valid := ⟨small_valid, default_valid⟩
/-- A byte leaves, a WRITE, and a flush. -/
theorem witness_LineOrder :
    view State.line (step { opened with txQ := [1, 2], schedule := [.wireTx true] }) = some [1] ∧
    view State.txQ (step (withWord 0x0A0490010050)) = some [0x90, 0x04, 0x01, 0x00, 0x50, opened.hostAddr] ∧
    view State.txQ (step { withWord 0x030000000000 with txQ := [1, 2] }) = some [] := by decide
/-- A byte arrives, a frame is taken by a READ and by DECODE_FRAME, and a flush. -/
theorem witness_ReceiveOrder :
    view State.rxFifo (step (readingNext [] (.wireRx 1))) = some [1] ∧
    view State.rxFifo (step (readingNext [0x64, 0x04, 0x01, 0x00, 0x01, 0x22, 0x55] .coreFrame)) = some [0x55] ∧
    view State.rxFifo (step { withWord 0x0D0000000000 with rxFifo := [0x64, 0x04, 0x01, 0x00, 0x01, 0x22, 0x55] })
      = some [0x55] ∧
    view State.rxFifo (step { withWord 0x0200000000FF with rxFifo := [1, 2] }) = some [] := by decide

/-! ## The remote's deadline (R262), with `KA_DEADLINE` 2 -/

/-- The short frame of a WRITE, and the keep-alive packet, with destination `dst`. -/
def lineFrame (dst : Byte) : List Byte := [0x90, 0x04, 0x00, 0x00, dst, 0x01]
def keepAliveFrame (dst : Byte) : List Byte := [0x92, 0x04, 0x00, 0x00, dst, 0x01]

/-- The remote may have dropped the link, after these bytes and openings. -/
def mayDropAfter (line : List Byte) (opens : List Nat) : Bool :=
  State.remoteMayDrop { smallOpen with line := line, opens := opens }

/-- A keep-alive packet between two user frames restarts the count; without it, or addressed to another axis, not. -/
theorem test_deadline :
    mayDropAfter (lineFrame 0x50 ++ lineFrame 0x50) [0] = true ∧
    mayDropAfter (lineFrame 0x50 ++ keepAliveFrame 0x50 ++ lineFrame 0x50) [0] = false ∧
    mayDropAfter (lineFrame 0x50 ++ keepAliveFrame 0x51 ++ lineFrame 0x50) [0] = true ∧
    mayDropAfter (lineFrame 0x50 ++ lineFrame 0x50) [0, 6] = false := by decide
/-- A user's long frame is no keep-alive packet, whatever its other bytes (R182). -/
theorem test_deadline_long_frames_are_user_frames :
    mayDropAfter (keepAliveFrame 0xD0 ++ keepAliveFrame 0xD0) [0] = true := by decide
/-- "From then on": neither a keep-alive nor an OPEN takes the permission back. -/
theorem test_deadline_permission_stays :
    mayDropAfter (lineFrame 0x50 ++ lineFrame 0x50 ++ keepAliveFrame 0x50) [0] = true ∧
    mayDropAfter (lineFrame 0x50 ++ lineFrame 0x50) [0, 12] = true := by decide

/-! ## Runs -/

/-- The state after `n` steps. -/
def stepsFrom (s : State) : Nat → State
  | 0 => s
  | n + 1 => after (step (stepsFrom s n))

/-- Under `KA_THRESH` 0, a first WRITE. -/
def writing : State :=
  { smallOpen with
    port := some 0x0A0490010021, schedule := [.coreCommand, .hostIssue 0x0A0490010021, .coreCommand], opens := [0] }

/-- Two WRITEs of one run, the second after a burst. -/
theorem witness_KeepAliveSchedule :
    writing.cfg.Valid ∧ writing.kaCount = 0 ∧ LinkRun writing 2 1 1 (stepsFrom writing 3) := by
  refine ⟨by decide, by decide, ?_⟩
  have w : LinkRun writing 1 0 1 (stepsFrom writing 1) :=
    .write .start (next_after (by decide)) (by decide) (by decide)
  have q : LinkRun writing 1 0 1 (stepsFrom writing 2) :=
    .quiet w (next_after (by decide)) (by decide) (by decide) (by decide)
  exact .burst q (next_after (by decide)) (by decide) (by decide)

/-- After one session with a frame cut short, the first WRITE of the next and its six bytes onto the line. -/
def sending : State :=
  { opened with
    busy := false, kaCount := 0, rxFifo := [], port := some 0x0A0490010021, line := [0x90, 0x04, 0x01], opens := [0, 3]
    schedule := [.coreCommand, .wireTx true, .wireTx true, .wireTx true, .wireTx true, .wireTx true, .wireTx true] }

theorem slotRun_of_steps {s : State} {n : Nat}
    (h : ∀ k < n, isNext (step (stepsFrom s k)) = true ∧ (stepsFrom s (k + 1)).epoch = (stepsFrom s k).epoch ∧
      (stepsFrom s (k + 1)).opens = (stepsFrom s k).opens ∧ (stepsFrom s (k + 1)).slots = (stepsFrom s k).slots) :
    SlotRun s (stepsFrom s n) := by
  induction n with
  | zero => exact .start
  | succ n ih =>
    obtain ⟨h1, h2, h3, h4⟩ := h n (by omega)
    exact .next (ih fun k hk => h k (by omega)) (next_after h1) h2 h3 h4

/-- Two user frames to an axis without a slot. -/
def permitted : State :=
  { smallOpen with line := lineFrame 0x50 ++ lineFrame 0x50, opens := [0], schedule := [.coreCommand] }

/-- One user frame to a registered axis on the line, in the second session; and a permission given. -/
theorem witness_RegisteredAxesKeepTheLink :
    isNext (step permitted) = true ∧ permitted.remoteMayDrop = true ∧
    sending.Invariant ∧ sending.opens = [0] ++ [sending.line.length] ∧ sending.txQ = [] ∧ sending.kaCount = 0 ∧
    sending.remoteMayDrop = false ∧ SlotRun sending (stepsFrom sending 7) ∧ (stepsFrom sending 7).userFrames ≠ [] ∧
    ∀ f ∈ (stepsFrom sending 7).userFrames, ∃ k ∈ sending.slots, k.valid = true ∧ k.addr = f.hdr.dst &&& 0x7F :=
  ⟨by decide, by decide, opened_invariant false 0 [] _ _ _ _ (by decide) (by decide) (by decide), rfl, rfl, rfl, by decide,
    slotRun_of_steps (by decide), by decide, by decide⟩

/-! ## Commands -/

/-- The common checks of every command: a contract fault; a pending READ. -/
theorem witness_CommonChecks :
    faulty.fault = true ∧ (reading []).fault = false ∧ (reading []).busy = true := by decide
theorem witness_NopDoesNothing : opened.Idle := opened_idle
theorem witness_OpenReestablishesTheLink :
    State.Idle { opened with poisoned := true } ∧ State.Idle State.reset := ⟨⟨rfl, rfl⟩, ⟨rfl, rfl⟩⟩
theorem witness_CloseKeepsAllButTheQueues :
    opened.Idle ∧ State.reset.Idle ∧ State.reset.linkOpen = false ∧ State.reset.rxFifo = [] ∧ State.reset.txQ = [] ∧
    State.reset.cfg.Valid ∧ ({ State.reset with schedule := [.wireRx 1] } : State).schedule = [.wireRx 1] :=
  ⟨opened_idle, ⟨rfl, rfl⟩, rfl, rfl, rfl, default_valid, rfl⟩
/-- The last slot, the first number beyond it, and an address with bit 7 set. -/
theorem witness_KaSetWritesItsSlot :
    opened.Idle ∧ (3 : Byte).toNat < opened.cfg.nKa ∧ (0x7F : Byte).getLsbD 7 = false ∧
    opened.cfg.nKa ≤ (4 : Byte).toNat ∧ (0x80 : Byte).getLsbD 7 = true :=
  ⟨opened_idle, by decide, by decide, by decide, by decide⟩
theorem witness_KaClrEmptiesItsSlot :
    opened.Idle ∧ (3 : Byte).toNat < opened.cfg.nKa ∧ opened.cfg.nKa ≤ (4 : Byte).toNat :=
  ⟨opened_idle, by decide, by decide⟩
/-- The last free index, and none. -/
theorem witness_TxbPushAppendsOneByte :
    State.Idle { opened with txLen := 254 } ∧ ({ opened with txLen := 254 } : State).txLen.toNat < 255 ∧
    State.Idle { opened with txLen := 255 } ∧ ({ opened with txLen := 255 } : State).txLen = 255 :=
  ⟨⟨rfl, rfl⟩, by decide, ⟨rfl, rfl⟩, rfl⟩
theorem witness_TxbClearEmptiesThePayload : opened.Idle := opened_idle
/-- The last byte, the first index beyond it, and no frame held. -/
theorem witness_RxbGetReadsOneByte :
    (holding [7, 8]).Idle ∧ (holding [7, 8]).resValid = true ∧ (1 : BitVec 16).toNat < (holding [7, 8]).resLen.toNat ∧
    Memory.read (holding [7, 8]).resPay 1 = some 8 ∧ (holding [7, 8]).resLen.toNat ≤ (2 : BitVec 16).toNat ∧
    opened.Idle ∧ opened.resValid = false :=
  ⟨⟨rfl, rfl⟩, by decide, by decide, by decide, by decide, opened_idle, rfl⟩
/-- The first unimplemented number. -/
theorem witness_RegReadOtherRegisters : 0x10 + opened.cfg.nKa ≤ (0x14 : Byte).toNat := by decide
/-- The last slot. -/
theorem witness_RegReadPackedRegisters :
    opened.cfg.Valid ∧ 3 < opened.cfg.nKa ∧ opened.slots[3]? = some ⟨false, 0⟩ ∧
    opened.slots[1]? = some ⟨true, 0x22⟩ := by decide
theorem witness_EvClearClearsSelectedBits : opened.Idle ∧ (1 : BitVec 2) ≠ 0 := ⟨opened_idle, by decide⟩
theorem witness_WarnClearEmptiesTheRecord : opened.Idle := opened_idle
/-- The last name id and the first beyond it. -/
theorem witness_LookupFailsClosed :
    opened.Idle ∧ opened.cfg.cmdTable[(14 : BitVec 16).toNat]? = some Message.getChanEnable.entry ∧
    opened.cfg.cmdTable.length ≤ (15 : BitVec 16).toNat := ⟨opened_idle, by decide, by decide⟩
theorem witness_EncodeHeaderIsPure :
    opened.Idle ∧ (∃ e ∈ opened.cfg.cmdTable, e.opcode = 0x0443) ∧ ∀ e ∈ opened.cfg.cmdTable, e.opcode ≠ 0x1234 :=
  ⟨opened_idle, by decide, by decide⟩
/-- A long frame with a byte after it. -/
theorem witness_DecodeFrameTakesOneFrame :
    let q : List Byte := [0x91, 0x04, 0x02, 0x00, 0x81, 0x21, 0xAA, 0xBB]
    let s : State := { opened with rxFifo := q ++ [0x55] }
    s.Idle ∧ s.linkOpen = true ∧ s.poisoned = false ∧ 6 ≤ q.length ∧ q.length = frameLen q ∧ s.rxFifo = q ++ [0x55] :=
  ⟨⟨rfl, rfl⟩, rfl, rfl, by decide, by decide, rfl⟩
/-- A closed link, a poisoned one, five bytes, and one byte short of the frame. -/
theorem witness_DecodeFrameErrors :
    State.reset.Idle ∧ State.reset.linkOpen = false ∧
    State.Idle { opened with poisoned := true } ∧ ({ opened with poisoned := true } : State).poisoned = true ∧
    State.Idle { opened with rxFifo := [0x91, 0x04, 0x00, 0x00, 0x81] } ∧
    ([0x91, 0x04, 0x00, 0x00, 0x81] : List Byte).length < 6 ∧
    ([0x91, 0x04, 0x02, 0x00, 0x81, 0x21, 0xAA] : List Byte).length
      < frameLen [0x91, 0x04, 0x02, 0x00, 0x81, 0x21, 0xAA] :=
  ⟨⟨rfl, rfl⟩, rfl, ⟨rfl, rfl⟩, rfl, ⟨rfl, rfl⟩, by decide, by decide⟩
/-- The last slice that fits, the first that does not, and no frame held. -/
theorem witness_DecodeStatusProjectsTheFlags :
    (holding [0, 1, 2, 3, 4]).Idle ∧ (holding [0, 1, 2, 3, 4]).resValid = true ∧
    (1 : Byte).toNat + 4 ≤ (holding [0, 1, 2, 3, 4]).resLen.toNat ∧
    (holding [0, 1, 2, 3, 4]).resLen.toNat < (2 : Byte).toNat + 4 ∧ opened.Idle ∧ opened.resValid = false ∧
    (5 : Byte) ≠ 4 :=
  ⟨⟨rfl, rfl⟩, rfl, by decide, by decide, opened_idle, rfl, by decide⟩
/-- A burst due and not, with the queue just fitting the bytes and one byte short. -/
theorem witness_WriteQueuesBurstThenFrame :
    (∀ n ∈ [(20 : BitVec 8), 21], ({ opened with kaCount := n } : State).cfg.Valid) ∧
    State.Idle { opened with kaCount := 21 } ∧ opened.linkOpen = true ∧ opened.poisoned = false ∧
    (∃ e ∈ opened.cfg.cmdTable, e.opcode = 0x0490) ∧ opened.txLen = (if (0x50 : Byte).getLsbD 7 then 1 else 0) ∧
    ({ opened with txLen := 2 } : State).txLen = (if (0xD0 : Byte).getLsbD 7 then 2 else 0) ∧
    opened.cfg.kaThresh < (21 : BitVec 8).toNat ∧ ¬ opened.cfg.kaThresh < (20 : BitVec 8).toNat ∧
    (List.replicate 506 (0 : Byte)).length + 6 ≤ opened.cfg.txqDepth ∧
    opened.cfg.txqDepth < (List.replicate 507 (0 : Byte)).length + 6 :=
  ⟨by decide, ⟨rfl, rfl⟩, rfl, rfl, by decide, by decide, by decide, by decide, by decide,
    by rw [List.length_replicate]; decide, by rw [List.length_replicate]; decide⟩
theorem witness_WriteErrorsInOrder :
    State.reset.Idle ∧ State.reset.linkOpen = false ∧ State.Idle { opened with poisoned := true } ∧
    opened.Idle ∧ opened.linkOpen = true ∧ opened.poisoned = false ∧ (∀ e ∈ opened.cfg.cmdTable, e.opcode ≠ 0x1234) ∧
    (∃ e ∈ opened.cfg.cmdTable, e.opcode = 0x0490) ∧
    opened.txLen ≠ (if (0xD0 : Byte).getLsbD 7 then (1 : Byte) else 0) ∧
    ({ opened with txLen := 1 } : State).txLen ≠ (if (0x50 : Byte).getLsbD 7 then (1 : Byte) else 0) :=
  ⟨⟨rfl, rfl⟩, rfl, ⟨rfl, rfl⟩, opened_idle, rfl, rfl, by decide, by decide, by decide, by decide⟩
theorem witness_ReadIsAcceptedAndPends :
    opened.Idle ∧ opened.linkOpen = true ∧ opened.poisoned = false ∧ State.reset.Idle ∧
    State.reset.linkOpen = false ∧ State.Idle { opened with poisoned := true } :=
  ⟨opened_idle, rfl, rfl, ⟨rfl, rfl⟩, rfl, ⟨rfl, rfl⟩⟩
/-- A frame from the expected source, and any source expected. -/
theorem witness_FrameMatchEndsTheRead :
    (Instr.moveCompleted 1 0 0x81 0x21 [7]).WellFormed = true ∧
    encode (.moveCompleted 1 0 0x81 0x21 [7]) = .frame [0x64, 0x04, 0x01, 0x00, 0x81, 0x21, 0x07] ∧
    (reading []).busy = true ∧ le16 0x64 0x04 = (reading []).expOpcode ∧ (0x21 : Byte) = (reading []).expSrc ∧
    ({ reading [] with expAny := true } : State).expAny = true := by decide
/-- A notification from the other registered axis, of each of the two opcodes. -/
theorem witness_UnsolicitedFrameSetsEventBits :
    (Instr.moveCompleted 1 0 0x01 0x22 []).WellFormed = true ∧
    encode (.moveCompleted 1 0 0x01 0x22 []) = .frame [0x64, 0x04, 0x01, 0x00, 0x01, 0x22] ∧
    encode (.moveHomed 1 0 0x01 0x22 []) = .frame [0x44, 0x04, 0x01, 0x00, 0x01, 0x22] ∧ (reading []).busy = true ∧
    ¬ (le16 0x64 0x04 = (reading []).expOpcode ∧ ((reading []).expAny = true ∨ (0x22 : Byte) = (reading []).expSrc)) ∧
    ¬ (le16 0x44 0x04 = (reading []).expOpcode ∧ ((reading []).expAny = true ∨ (0x22 : Byte) = (reading []).expSrc)) ∧
    le16 0x64 0x04 = (reading []).cfg.opMoveCompleted ∧ le16 0x44 0x04 = (reading []).cfg.opMoveHomed ∧
    le16 0x64 0x04 ∈ (reading []).cfg.unsolSet ∧ le16 0x44 0x04 ∈ (reading []).cfg.unsolSet ∧
    1 < (reading []).cfg.nKa ∧ (reading []).slots[1]? = some ⟨true, 0x22⟩ ∧ (0x22 : Byte) ≠ (reading []).expSrc := by
  decide
/-- A status frame, a notification from an address without a slot, and one from the expected axis. -/
theorem witness_OtherFrameIsRecordedAsWarning :
    encode (.getStatus 0 0 0x81 0x21 []) = .frame [0x91, 0x04, 0x00, 0x00, 0x81, 0x21] ∧
    (Instr.getStatus 0 0 0x81 0x21 []).WellFormed = true ∧ (reading []).busy = true ∧
    le16 0x91 0x04 ≠ (reading []).expOpcode ∧ le16 0x91 0x04 ∉ (reading []).cfg.unsolSet ∧
    (Instr.moveHomed 0 0 0x01 0x23 []).WellFormed = true ∧ le16 0x44 0x04 ≠ (reading []).expOpcode ∧
    (∀ j, j < 4 → (reading []).slots[j]? ≠ some ⟨true, 0x23⟩) ∧
    ¬ ((reading []).expAny = true ∨ (0x21 : Byte) ≠ (reading []).expSrc) ∧ opened.busy = false := by decide
/-- Bytes received, none received, no READ pending, and a contract fault. -/
theorem witness_AbortEndsThePendingRead :
    (reading [1]).fault = false ∧ (reading [1]).busy = true ∧ (reading []).busy = true ∧ opened.Idle ∧
    faulty.fault = true := ⟨rfl, rfl, rfl, opened_idle, rfl⟩
theorem witness_ReservedCodeIsIllegal : opened.Idle := opened_idle
/-- A long header with its payload, and the same header alone. -/
theorem witness_EncodedHeaderReadsBack :
    opened.Idle ∧ opened.linkOpen = true ∧ opened.poisoned = false ∧
    answers (exec (.encodeHeader 0x0453 0x02 0x00 0xA1) opened)
      = some (opened.responses ++ [⟨0x07, .ok, headerLe48 (mkHeader 0x0453 0x02 0x00 0xA1 opened.hostAddr)⟩]) ∧
    ([7, 8] : List Byte).length = (if (0xA1 : Byte).getLsbD 7 then (0x02 : Byte).toNat else 0) ∧
    (0xA1 : Byte).getLsbD 7 = true ∧ (0x02 : Byte) ≠ 0 :=
  ⟨opened_idle, rfl, rfl, by decide, by decide, by decide, by decide⟩
/-- An error repeated, and a slot written twice. -/
theorem witness_RepeatedCommandChangesNothingMore :
    (∀ i ∈ [Instr.kaSet 4 0x22, .kaSet 1 0x23], commandCode i = some 0x04 ∧ isNext (exec i opened) = true ∧
      isNext (exec i (after (exec i opened))) = true) ∧
    (0x04 : Byte) ∉ ([0x0A, 0x0B, 0x0D, 0x09, 0x02, 0x03, 0x0C, 0x01] : List Byte) := by decide
/-- A WRITE without a burst, and one with. -/
theorem witness_QueuedBytesAreWholeFrames :
    opened.Invariant ∧
    answers (exec (.write 0x0490 1 0 0x50) opened) = some (opened.responses ++ [⟨0x0A, .ok, 0x0000000000060000⟩]) ∧
    State.Invariant { opened with kaCount := 21 } ∧
    answers (exec (.write 0x0490 1 0 0x50) { opened with kaCount := 21 })
      = some (opened.responses ++ [⟨0x0A, .ok, 0x0000000000120002⟩]) :=
  ⟨opened_invariant false 0 [] none [] [] [] (by decide) (by decide) (by decide), by decide,
    opened_invariant false 21 [] none [] [] [] (by decide) (by decide) (by decide), by decide⟩

/-! ## Pseudo-instructions (R118) -/

/-- R118 asks no length of `TXB_LOAD`; a count beyond the byte `P1` is the model's limit of `SEND_LONG` (log 21). -/
theorem test_pseudo_lengths :
    (Pseudo.txbLoad (List.replicate 256 0)).legal = true ∧
    (Pseudo.sendLong 0x0453 0x21 (List.replicate 256 0)).legal = false := by
  simp only [Pseudo.legal, List.length_replicate]; decide
theorem test_pseudo_send_long :
    (Pseudo.sendLong 0x0453 0x21 [7, 8]).legal = true ∧
    (Pseudo.sendLong 0x0453 0x21 [7, 8]).expand
      = [.txbClear, .txbPush 7, .txbPush 8, .write 0x0453 2 0 0xA1] := by decide

end Sys2Proof.Tests
end

