-- ==== Sys2Proof/Proofs/Scope.lean ====
section
/-! The scope family (spec/00_scope.md): which steps answer a next state, and what the core's turn executes. -/

namespace Sys2Proof.Machine

/-! ## Outcomes that answer a next state -/

/-- The outcome is a next state: neither a fault nor a refusal. -/
def Answers (o : Host.Outcome State Fault Refusal) : Prop := ∃ t, o = .next t

theorem answers_next (t : State) : Answers (.next t) := ⟨t, rfl⟩

theorem not_answers_refused (r : Refusal) : ¬ Answers (.refused r) := fun ⟨_, h⟩ => by cases h

theorem answers_succeed (cmd : Byte) (s : State) (data : BitVec 64) : Answers (succeed cmd s data) := answers_next _

theorem answers_failWith (cmd : Byte) (s : State) (e : ErrorCode) : Answers (failWith cmd s e) := answers_next _

theorem answers_hold (s : State) : Answers (hold s) := answers_next _

theorem answers_illegalWord (cmd : Byte) (s : State) : Answers (illegalWord cmd s) := answers_failWith _ _ _

theorem answers_ite {c : Prop} [Decidable c] {a b : Host.Outcome State Fault Refusal} (ha : Answers a)
    (hb : Answers b) : Answers (if c then a else b) := by
  split
  · exact ha
  · exact hb

/-- A common check that fails is itself answered, by its error (R246). -/
theorem answers_checked {cmd : Byte} {s : State} {body : Host.Outcome State Fault Refusal} (h : Answers body) :
    Answers (checked cmd s body) := by
  cases hc : commonCheck true cmd s with
  | none => rwa [checked_pass hc]
  | some e => exact checked_fail hc ▸ answers_next _

/-! ## The meanings with a condition of their own -/

theorem execKaSet_answers (slot addr : Byte) (s : State) : Answers (execKaSet slot addr s) :=
  answers_checked <| answers_ite (answers_failWith _ _ _) <| answers_ite (answers_failWith _ _ _) <|
    answers_succeed _ _ _

theorem execKaClr_answers (slot : Byte) (s : State) : Answers (execKaClr slot s) :=
  answers_checked <| answers_ite (answers_failWith _ _ _) (answers_succeed _ _ _)

theorem execLookup_answers (idx : BitVec 16) (s : State) : Answers (execLookup idx s) := by
  apply answers_checked
  split
  · exact answers_failWith _ _ _
  · exact answers_succeed _ _ _

theorem execEncodeHeader_answers (opc : Opcode) (p1 p2 dst : Byte) (s : State) :
    Answers (execEncodeHeader opc p1 p2 dst s) :=
  answers_checked <| answers_ite (answers_succeed _ _ _) (answers_failWith _ _ _)

theorem execTxbPush_answers (b : Byte) (s : State) : Answers (execTxbPush b s) :=
  answers_checked <| answers_ite (answers_failWith _ _ _) (answers_succeed _ _ _)

/-- After the five errors of R180 a WRITE is held or taken (R184). -/
theorem execWrite_answers (opc : Opcode) (p1 p2 dst : Byte) (s : State) : Answers (execWrite opc p1 p2 dst s) :=
  answers_checked <| answers_ite (answers_failWith _ _ _) <| answers_ite (answers_failWith _ _ _) <|
    answers_ite (answers_failWith _ _ _) <| answers_ite (answers_failWith _ _ _) <|
    answers_ite (answers_failWith _ _ _) <| answers_ite (answers_hold _) (answers_succeed _ _ _)

theorem execRead_answers (eopc : Opcode) (esrc : Byte) (any : Bool) (s : State) :
    Answers (execRead eopc esrc any s) :=
  answers_checked <| answers_ite (answers_failWith _ _ _) <| answers_ite (answers_failWith _ _ _) <| answers_next _

theorem execAbort_answers (s : State) : Answers (execAbort s) :=
  answers_checked <| answers_ite (answers_succeed _ _ _) (answers_succeed _ _ _)

theorem execDecodeFrame_answers (s : State) : Answers (execDecodeFrame s) :=
  answers_checked <| answers_ite (answers_failWith _ _ _) <| answers_ite (answers_failWith _ _ _) <|
    answers_ite (answers_failWith _ _ _) <| answers_ite (answers_failWith _ _ _) <| answers_succeed _ _ _

theorem execRxbGet_answers (idx : BitVec 16) (s : State) : Answers (execRxbGet idx s) :=
  answers_checked <| answers_ite (answers_failWith _ _ _) (answers_succeed _ _ _)

theorem execDecodeStatus_answers (off len : Byte) (s : State) : Answers (execDecodeStatus off len s) :=
  answers_checked <| answers_ite (answers_failWith _ _ _) <| answers_ite (answers_failWith _ _ _) <|
    answers_succeed _ _ _

theorem execRegRead_answers (b : Byte) (s : State) : Answers (execRegRead b s) := by
  apply answers_checked
  split
  · exact answers_failWith _ _ _
  · exact answers_succeed _ _ _

theorem execEvClear_answers (sel : BitVec 2) (mask : Byte) (s : State) : Answers (execEvClear sel mask s) :=
  answers_checked <| answers_ite (answers_failWith _ _ _) (answers_succeed _ _ _)

/-- A frame is classified into one of the three cases, or stays where it is (R191, R285). -/
theorem readFrame_answers (f : Frame) (s : State) : Answers (readFrame f s) :=
  answers_ite (answers_ite (answers_next _) <| answers_ite (answers_next _) (answers_next _)) (answers_hold _)

/-! ## Every instruction, every agent -/

/-- The block's exception is a response and not a stop (R251); the arms without a lemma above are commands without a
condition of their own, and wire frames. -/
theorem exec_answers (i : Instr) (s : State) : Answers (exec i s) := by
  cases i with
  | nop | reset | openLink | closeLink | txbClear | warnClear => exact answers_checked (answers_succeed _ _ _)
  | kaSet slot addr => exact execKaSet_answers slot addr s
  | kaClr slot => exact execKaClr_answers slot s
  | lookup idx => exact execLookup_answers idx s
  | encodeHeader opc p1 p2 dst => exact execEncodeHeader_answers opc p1 p2 dst s
  | txbPush b => exact execTxbPush_answers b s
  | write opc p1 p2 dst => exact execWrite_answers opc p1 p2 dst s
  | read eopc esrc any => exact execRead_answers eopc esrc any s
  | abort => exact execAbort_answers s
  | decodeFrame => exact execDecodeFrame_answers s
  | rxbGet idx => exact execRxbGet_answers idx s
  | decodeStatus off len => exact execDecodeStatus_answers off len s
  | regRead b => exact execRegRead_answers b s
  | evClear sel mask => exact execEvClear_answers sel mask s
  | reservedCmd code operands => exact answers_illegalWord code s
  | _ => exact readFrame_answers _ s

/-! ## The core's two turns, case by case -/

/-- With no word on the port nothing happens (R12). -/
theorem coreCommand_free {s : State} (hp : s.port = none) : coreCommand s = .next s := by
  simp [coreCommand, hp, hold]

/-- A word that decodes is executed (R12). -/
theorem coreCommand_decoded {s : State} {w : CmdWord} {i : Instr} (hp : s.port = some w)
    (hd : decodeCommand w = .ok i) : coreCommand s = exec i s := by
  simp [coreCommand, hp, hd]

/-- A word that does not decode raises the error of an illegal word (R115). -/
theorem coreCommand_illegal {s : State} {w : CmdWord} {e : DecodeError} (hp : s.port = some w)
    (hd : decodeCommand w = .error e) : coreCommand s = illegalWord (cmdOf w) s := by
  simp [coreCommand, hp, hd]

/-- A pending READ executes the frame at the head of the FIFO (R191). -/
theorem coreFrame_decoded {s : State} {i : Instr} {rest : List Byte} (hb : s.busy = true)
    (hd : decodeFrame s.rxFifo = .ok (i, rest)) : coreFrame s = exec i s := by
  simp [coreFrame, hb, hd]

/-- With no READ pending, frames stay in the FIFO (R285). -/
theorem coreFrame_idle {s : State} (hb : s.busy = false) : coreFrame s = .next s := by
  simp [coreFrame, hb, hold]

/-- A pending READ waits while no frame decodes (R191). -/
theorem coreFrame_undecoded {s : State} {e : DecodeError} (hd : decodeFrame s.rxFifo = .error e) :
    coreFrame s = .next s := by
  simp [coreFrame, hd, hold]

/-- What `complete` lacks, in bytes (R132). -/
theorem complete_eq_false_iff (q : List Byte) : complete q = false ↔ q.length < 6 ∨ q.length < frameLen q := by
  rw [← Bool.not_eq_true, complete, hdrReady, Bool.and_eq_true, decide_eq_true_eq, decide_eq_true_eq]
  omega

/-- Without a complete frame at the head nothing decodes (R105, R132). -/
theorem decodeFrame_incomplete {q : List Byte} (h : complete q = false) : ∃ e, decodeFrame q = .error e := by
  cases hr : hdrReady q with
  | false => exact ⟨.incompleteHeader, by simp [decodeFrame, hr]⟩
  | true => exact ⟨.incompletePayload, by simp [decodeFrame, hr, h]⟩

theorem coreFrame_incomplete {s : State} (h : complete s.rxFifo = false) : coreFrame s = .next s := by
  obtain ⟨e, he⟩ := decodeFrame_incomplete h
  exact coreFrame_undecoded he

theorem coreCommand_answers (s : State) : Answers (coreCommand s) := by
  cases hp : s.port with
  | none => exact coreCommand_free hp ▸ answers_next s
  | some w =>
    cases hd : decodeCommand w with
    | ok i => exact coreCommand_decoded hp hd ▸ exec_answers i s
    | error e => exact coreCommand_illegal hp hd ▸ answers_illegalWord _ s

theorem coreFrame_answers (s : State) : Answers (coreFrame s) := by
  cases hb : s.busy with
  | false => exact coreFrame_idle hb ▸ answers_next s
  | true =>
    cases hd : decodeFrame s.rxFifo with
    | ok r => exact coreFrame_decoded (i := r.1) (rest := r.2) hb hd ▸ exec_answers r.1 s
    | error e => exact coreFrame_undecoded hd ▸ answers_next s

theorem agentStep_answers (e : Event) (s : State) : Answers (agentStep e s) := by
  cases e with
  | coreCommand => exact coreCommand_answers s
  | coreFrame => exact coreFrame_answers s
  | hostIssue | wireRx | wireTx | resetInput => exact answers_next _

/-! ## The step -/

theorem step_answers {s : State} (hv : s.cfg.Valid) : Answers (step s) :=
  step_eq hv ▸ agentStep_answers _ _

/-- A configuration that breaks a constraint of R8 is refused. -/
theorem step_of_invalid {s : State} (hv : ¬ s.cfg.Valid) : step s = .refused .badConfig := if_neg hv

/-- The step of a listed event is its agent's, on the state without the event. -/
theorem step_scheduled {s : State} {e : Event} {later : List Event} (hv : s.cfg.Valid)
    (h : s.schedule = e :: later) : step s = agentStep e { s with schedule := later } := by
  obtain ⟨he, ht⟩ := nextEvent_cons h
  rw [step_eq hv, he, ht]

/-! ## The statements -/

/-- Settles O10: the case split over the instructions is `exec_answers`. -/
theorem everyInstructionAnswers : Obligations.EveryInstructionAnswers := exec_answers

/-- Settles O9: under valid parameters every agent's step answers, and the guard of `step` is the only refusal. -/
theorem stepRefusesExactlyBadConfigurations : Obligations.StepRefusesExactlyBadConfigurations := by
  intro s
  refine ⟨⟨?_, fun hv => ⟨_, step_of_invalid hv⟩⟩, step_answers⟩
  rintro ⟨r, hr⟩ hv
  have ha : Answers (step s) := step_answers hv
  exact not_answers_refused r (hr ▸ ha)

/-- Settles O7: the step of a scheduled turn is the core's turn, of which each clause is one case. -/
theorem stepRunsDecodedInstruction : Obligations.StepRunsDecodedInstruction := by
  intro s later hv
  refine ⟨fun w i hs hp hd => ?_, fun i rest hs hb hd => ?_, fun hs hp => ?_, fun hs hwait => ?_⟩
  · exact (step_scheduled hv hs).trans (coreCommand_decoded hp hd)
  · exact (step_scheduled hv hs).trans (coreFrame_decoded hb hd)
  · exact (step_scheduled hv hs).trans (coreCommand_free hp)
  · rcases hwait with hb | hshort
    · exact (step_scheduled hv hs).trans (coreFrame_idle hb)
    · exact (step_scheduled hv hs).trans (coreFrame_incomplete ((complete_eq_false_iff _).2 hshort))

end Sys2Proof.Machine
end

/-! # The state family (spec/10_state.md): what every step keeps, and what each register and slot reads

First, once for the family: the words that discard or take bytes, and the ways a step can end. -/

namespace Sys2Proof.Machine

/-! ## Which words are RESET, OPEN, CLOSE and DECODE_FRAME -/

/-- The reserved bits of a word that decodes are clear (R115). -/
theorem reservedClear_of_decode {w : CmdWord} {i : Instr} {f : Format} (hd : decodeCommand w = .ok i)
    (hf : formatOf (cmdOf w) = some f) : reservedClear f w = true := by
  simp only [decodeCommand, hf] at hd
  split at hd
  · assumption
  · cases hd

/-- A word of format `N` that decodes is its code alone (R113). -/
theorem word_of_formatN {w : CmdWord} {i : Instr} {c : Byte} (hd : decodeCommand w = .ok i) (hw : cmdOf w = c)
    (hf : formatOf c = some .n) : w = mkWord c 0#40 := by
  have hr : reservedClear .n w = true := reservedClear_of_decode hd (hw ▸ hf)
  simp only [reservedClear, beq_iff_eq] at hr
  rw [← mkWord_self w, hw, hr]
  rfl

/-- A word of format `B` that decodes is its code and its low byte (R113). -/
theorem word_of_formatB {w : CmdWord} {i : Instr} {c : Byte} (hd : decodeCommand w = .ok i) (hw : cmdOf w = c)
    (hf : formatOf c = some .b) : w = mkWord c 0#40 + (fieldLow w).setWidth 48 := by
  have hr : reservedClear .b w = true := reservedClear_of_decode hd (hw ▸ hf)
  simp only [reservedClear, beq_iff_eq] at hr
  subst hw
  have hz := congrArg BitVec.toNat hr
  have hm : mkWord (cmdOf w) 0#40 = BitVec.ofNat 48 (2 ^ 40 * (cmdOf w).toNat) := by
    apply BitVec.eq_of_toNat_eq
    have := (cmdOf w).isLt
    simp only [mkWord, BitVec.toNat_append, BitVec.toNat_ofNat, Nat.shiftLeft_eq, Nat.zero_mod, Nat.or_zero]
    omega
  have hlt := w.isLt
  apply BitVec.eq_of_toNat_eq
  rw [hm]
  simp only [cmdOf, fieldLow, BitVec.toNat_add, BitVec.extractLsb'_toNat, BitVec.toNat_ofNat, BitVec.toNat_setWidth,
    Nat.shiftRight_eq_div_pow, BitVec.ofNat_eq_ofNat] at hz ⊢
  omega

/-- A word that decodes and carries the code of an instruction. -/
theorem cmdOf_of_decode {w : CmdWord} {i : Instr} {c : Byte} (hd : decodeCommand w = .ok i)
    (hc : commandCode i = some c) : cmdOf w = c :=
  Option.some.inj ((commandCode_of_decode hd).2.symm.trans hc)

theorem word_of_reset {w : CmdWord} (hd : decodeCommand w = .ok .reset) : w = 0x010000000000 :=
  word_of_formatN hd (cmdOf_of_decode hd rfl) rfl

theorem word_of_closeLink {w : CmdWord} (hd : decodeCommand w = .ok .closeLink) : w = 0x030000000000 :=
  word_of_formatN hd (cmdOf_of_decode hd rfl) rfl

theorem word_of_decodeFrame {w : CmdWord} (hd : decodeCommand w = .ok .decodeFrame) : w = 0x0D0000000000 :=
  word_of_formatN hd (cmdOf_of_decode hd rfl) rfl

theorem word_of_openLink {w : CmdWord} {b : Byte} (hd : decodeCommand w = .ok (.openLink b)) :
    ∃ a : Byte, w = 0x020000000000 + a.setWidth 48 :=
  ⟨fieldLow w, word_of_formatB hd (cmdOf_of_decode hd rfl) rfl⟩

/-- The commands that discard the queues (R171, R172, R270). -/
inductive Flushes : Instr → Prop where
  | reset : Flushes .reset
  | closeLink : Flushes .closeLink
  | openLink (b : Byte) : Flushes (.openLink b)

/-- The core's turn on a word of such a command is one of the steps that `flushNext` names. -/
theorem flushNext_of_decode {s : State} {w : CmdWord} {i : Instr} (he : s.nextEvent = .coreCommand)
    (hp : s.port = some w) (hd : decodeCommand w = .ok i) (hi : Flushes i) : s.flushNext := by
  refine .inr ⟨he, ?_⟩
  rw [hp]
  cases hi with
  | reset => exact .inl (congrArg some (word_of_reset hd))
  | closeLink => exact .inr (.inl (congrArg some (word_of_closeLink hd)))
  | openLink b =>
    obtain ⟨a, ha⟩ := word_of_openLink hd
    exact .inr (.inr ⟨a, congrArg some ha⟩)

/-! ## How a step can end -/

/-- What a READ frame step leaves behind when it takes frame `f` (R192, R193, R194). -/
inductive TakesFrame (s : State) (f : Frame) : State → Prop where
  | matched : TakesFrame s f ((s.popFrame f).frameMatch f)
  | unsolicited : TakesFrame s f ((s.popFrame f).frameEvent f)
  | anomaly : TakesFrame s f ((s.popFrame f).frameWarn f)

/-- How a step from `s` can end: one constructor for each thing an agent can do, with what made it possible. -/
inductive StepEnd (s : State) : State → Prop where
  | still : StepEnd s s.tick
  | issued {w : CmdWord} (he : s.nextEvent = .hostIssue w) (hp : s.port = none) :
      StepEnd s { s.tick with port := some w }
  | illegal {w : CmdWord} {t : State} (he : s.nextEvent = .coreCommand) (hp : s.port = some w)
      (h : EndsWithError (cmdOf w) s.tick t) : StepEnd s t
  | executed {w : CmdWord} {i : Instr} {t : State} (he : s.nextEvent = .coreCommand) (hp : s.port = some w)
      (hd : decodeCommand w = .ok i) (h : Effect s.tick i t) : StepEnd s t
  | frame {t : State} (he : s.nextEvent = .coreFrame) (hb : s.busy = true) (hc : complete s.rxFifo = true)
      (h : TakesFrame s.tick (frameOf s.rxFifo) t) : StepEnd s t
  | received {b : Byte} (he : s.nextEvent = .wireRx b) (hl : s.linkOpen = true)
      (hn : s.rxFifo.length < s.cfg.rxDepth) : StepEnd s { s.tick with rxFifo := s.rxFifo ++ [b] }
  | sent {b : Byte} {rest : List Byte} (he : s.nextEvent = .wireTx true) (hq : s.txQ = b :: rest) :
      StepEnd s { s.tick with line := s.line ++ [b], txQ := rest }
  | resetInput (he : s.nextEvent = .resetInput) : StepEnd s s.tick.resetInput

/-- Every step ends in one of those ways. -/
theorem stepEnd_of_step {s t : State} (h : step s = .next t) : StepEnd s t := by
  obtain ⟨-, u, rfl, h⟩ := step_cases h
  rcases h with ⟨w, he, rfl⟩ | ⟨he, h⟩ | ⟨he, h⟩ | ⟨b, he, rfl⟩ | ⟨c, he, rfl⟩ | ⟨he, rfl⟩
  · rcases hostIssue_cases s.tick w with ⟨hp, h⟩ | ⟨-, h⟩ <;> rw [h]
    · exact .issued he (by simpa using hp)
    · exact .still
  · rcases coreCommand_cases h with ⟨-, rfl⟩ | ⟨w, i, hp, hd, h⟩ | ⟨w, e, hp, -, h⟩
    · exact .still
    · exact .executed he (by simpa using hp) hd (exec_effect h)
    · exact .illegal he (by simpa using hp) h
  · rcases coreFrame_cases h with rfl | ⟨hb, hc, h, -, -⟩
    · exact .still
    · simp only [tick_rxFifo, tick_busy] at hb hc h
      refine .frame he hb hc ?_
      rcases readFrame_cases h with ⟨hn, -⟩ | ⟨-, -, rfl⟩ | ⟨-, -, -, rfl⟩ | ⟨-, -, -, rfl⟩
      · simp [hb] at hn
      · exact .matched
      · exact .unsolicited
      · exact .anomaly
  · rcases wireRx_cases s.tick b with ⟨hr, h⟩ | ⟨-, h⟩ <;> rw [h]
    · simp only [State.readyToReceive, tick_linkOpen, tick_rxFifo, tick_cfg, Bool.and_eq_true, decide_eq_true_eq] at hr
      simpa using StepEnd.received he hr.1 hr.2
    · exact .still
  · rcases wireTx_cases s.tick c with ⟨b, rest, rfl, hq, h⟩ | ⟨-, h⟩ <;> rw [h]
    · simpa using StepEnd.sent he (by simpa using hq)
    · exact .still
  · exact .resetInput he

theorem complete_iff (q : List Byte) : complete q = true ↔ 6 ≤ q.length ∧ frameLen q ≤ q.length := by
  rw [complete, hdrReady, Bool.and_eq_true, decide_eq_true_eq, decide_eq_true_eq]

/-- A complete frame at the head has the payload its header announces, and the length R132 gives it. -/
theorem frameOf_complete {q : List Byte} (hc : complete q = true) :
    payloadFits (frameOf q).hdr.p1 (frameOf q).hdr.dst (frameOf q).pay = true ∧
      (frameOf q).bytes.length = frameLen q := by
  obtain ⟨hs, hf⟩ := complete_split hc
  have hl := (frame_reads_back (frameOf q) (q.drop (frameLen q)) hf).2.1
  rw [hs] at hl
  exact ⟨hf, hl.symm⟩

end Sys2Proof.Machine

/-! ## The invariant

One lemma for each update of the state: the fields it writes are proved again, the others are those before. -/

namespace Sys2Proof.Machine

/-! ### Errors and event bits -/

/-- The codes of the contract class are those of the contract errors (R240, R243). -/
@[simp] theorem isContractCode_code (e : ErrorCode) : isContractCode e.code = e.isContract := by cases e <;> rfl

/-- No error that the record keeps has a code above 13 (R44). -/
theorem code_le_of_recorded {e : ErrorCode} (h : e.recorded = true) : e.code.toNat ≤ 13 := by
  cases e <;> revert h <;> decide

theorem code_ne_zero_of_recorded {e : ErrorCode} (h : e.recorded = true) : e.code ≠ 0 := by
  cases e <;> revert h <;> decide

/-- Only a recorded error has a class effect (R243, R244, R245). -/
theorem no_class_of_not_recorded {e : ErrorCode} (h : e.recorded = false) :
    e.isContract = false ∧ e.isLink = false := by
  cases e <;> revert h <;> decide

/-- The bits of the slots that hold a source lie below `N_KA` (R45). -/
theorem bitsOf_slotsHolding_of_le (s : State) (src : Byte) {i : Nat} (hi : s.cfg.nKa ≤ i) :
    (bitsOf (s.slotsHolding src)).getLsbD i = false := by
  rcases Nat.lt_or_ge i 8 with h8 | h8
  · rw [← Bool.not_eq_true, bitsOf_getLsbD _ h8, mem_slotsHolding]
    omega
  · exact BitVec.getLsbD_of_ge _ i h8

/-- Under R8 the counter of a WRITE does not wrap, and stays within `KA_THRESH` + 1 (R180, R183). -/
theorem kaNext_toNat {s : State} (hv : s.cfg.Valid) :
    (kaNext s.burstDue s.kaCount).toNat = if s.cfg.kaThresh < s.kaCount.toNat then 1 else s.kaCount.toNat + 1 := by
  obtain ⟨-, h254, -⟩ := hv
  simp only [kaNext, State.burstDue, decide_eq_true_eq]
  split
  · rfl
  · rw [BitVec.toNat_add, show (1 : BitVec 8).toNat = 1 from rfl]
    omega

/-- The counter of anomalies saturates, so it is not 0 after one (R194). -/
theorem warnNext_ne_zero (n : BitVec 16) : warnNext n ≠ 0 := by
  unfold warnNext
  split
  · simp [*]
  · bv_omega

namespace State.Invariant

variable {s : State}

/-! ### Responses and errors -/

theorem tick (h : s.Invariant) : s.tick.Invariant := by
  rw [tick_eq]
  exact { h with }

theorem endCommand (h : s.Invariant) : s.endCommand.Invariant := { h with }

theorem finish (h : s.Invariant) (cmd : Byte) (d : BitVec 64) : (s.finish cmd d).Invariant := { h with }

/-- Recording an error keeps `fault` tied to a contract error on record, and `poisoned` to an error (R44, R241). -/
theorem record (h : s.Invariant) (cmd : Byte) {e : ErrorCode}
    (hcause : e.recorded = true → e.isContract = true ∨ s.fault = false) (hlink : e.isLink = true → s.busy = false) :
    (s.record cmd e).Invariant where
  __ := h
  busyOpen hb := by
    obtain ⟨hl, hp⟩ := h.busyOpen hb
    have hn : e.isLink = false := by
      cases hk : e.isLink with
      | false => rfl
      | true => exact absurd (hlink hk) (by simpa using hb)
    simp [hl, hp, hn]
  errRange := by
    rw [record_lastErr]
    split
    · exact code_le_of_recorded ‹_›
    · exact h.errRange
  faultCause := by
    rw [record_fault, record_lastErr]
    cases hr : e.recorded with
    | false => simp [h.faultCause, (no_class_of_not_recorded hr).1]
    | true => rcases hcause hr with hk | hf <;> simp [*]
  poisonCause := by
    rw [record_poisoned, record_lastErr]
    cases hr : e.recorded with
    | false => simpa [(no_class_of_not_recorded hr).2] using h.poisonCause
    | true => exact fun _ => code_ne_zero_of_recorded hr

theorem raise (h : s.Invariant) (cmd : Byte) {e : ErrorCode} (he : ErrorFits s e) : (s.raise cmd e).Invariant :=
  { h.record cmd he.keepsCause he.linkIdle with }

theorem endsWithError {cmd : Byte} {t : State} (h : s.Invariant) (ht : EndsWithError cmd s t) : t.Invariant := by
  obtain ⟨e, he, rfl⟩ := ht
  exact h.raise cmd he

/-- ABORT ends the READ as it poisons the link (R195). -/
theorem abortRead (h : s.Invariant) (hf : s.fault = false) : s.abortRead.Invariant := by
  have hr := State.Invariant.record (s := { s with busy := false }) { h with busyOpen := by simp } cmdRead
    (e := s.abortError) (fun _ => .inr hf) (fun _ => rfl)
  exact { hr with }

/-! ### Reset, OPEN and CLOSE -/

/-- The power-on state of R270 under parameters that meet R8. -/
theorem powerOn {c : Config} (hv : c.Valid) : (State.powerOn c).Invariant where
  cfgValid := hv
  kaBound := Nat.zero_le _
  slotCount := List.length_replicate
  slotBase k hk := by rw [List.eq_of_mem_replicate hk]; rfl
  slotEmpty k hk _ := by rw [List.eq_of_mem_replicate hk]
  rxBound := Nat.zero_le _
  txBound := Nat.zero_le _
  closedEmpty _ := ⟨rfl, rfl⟩
  busyOpen hb := by cases hb
  resFlag := (by decide : false = Header.hasPayload ⟨0, 0, 0, 0, 0, 0⟩)
  resLength := (by decide : (0 : BitVec 8) = Header.payLen ⟨0, 0, 0, 0, 0, 0⟩)
  resEmpty _ := rfl
  resPayWf := rfl
  txPayWf := rfl
  resWritten i hi := absurd hi (Nat.not_lt_zero i)
  txWritten i hi := absurd hi (Nat.not_lt_zero i)
  errRange := Nat.zero_le _
  faultCause := rfl
  poisonCause hp := by cases hp
  evDoneRange _ _ := BitVec.getLsbD_zero
  evHomedRange _ _ := BitVec.getLsbD_zero
  warnEmpty _ := ⟨rfl, rfl⟩
  opensRise := List.pairwise_singleton _ _

theorem applyReset (h : s.Invariant) : s.applyReset.Invariant :=
  { powerOn h.cfgValid with opensRise := h.opensRise }

theorem dropRead (h : s.Invariant) : s.dropRead.Invariant := by
  unfold State.dropRead
  split
  · exact { h with }
  · exact h

/-- OPEN empties the queues and the counter, and stands at the end of the line (R171; log 15). -/
theorem openLink (h : s.Invariant) (b : Byte) : (s.openLink b).Invariant where
  __ := h
  kaBound := Nat.zero_le _
  rxBound := Nat.zero_le _
  txBound := Nat.zero_le _
  closedEmpty _ := ⟨rfl, rfl⟩
  busyOpen _ := ⟨rfl, rfl⟩
  poisonCause hp := by cases hp
  opensRise := by
    have hr := h.opensRise
    obtain ⟨-, -, hle⟩ := List.pairwise_append.1 hr
    rw [openLink_opens, openLink_line, List.pairwise_append]
    refine ⟨hr, List.pairwise_singleton _ _, fun x hx y hy => ?_⟩
    rw [List.mem_singleton.1 hy]
    rcases List.mem_append.1 hx with hx | hx
    · exact hle x hx _ (List.mem_singleton_self _)
    · exact (List.mem_singleton.1 hx).le

theorem closeLink (h : s.Invariant) (hb : s.busy = false) : s.closeLink.Invariant where
  __ := h
  rxBound := Nat.zero_le _
  txBound := Nat.zero_le _
  closedEmpty _ := ⟨rfl, rfl⟩
  busyOpen ht := absurd ht (by simp [hb])

/-! ### Slots, events and warnings -/

/-- A slot write keeps the number of slots, and puts a base address or an empty slot there (R212, R213). -/
theorem setSlot (h : s.Invariant) (i : Nat) {k : KaSlot} (ha : k.addr.getLsbD 7 = false)
    (he : k.valid = false → k.addr = 0x00) : State.Invariant { s with slots := s.slots.set i k } where
  __ := h
  slotCount := (List.length_set ..).trans h.slotCount
  slotBase l hl := by
    rcases List.mem_or_eq_of_mem_set hl with hl | rfl
    · exact h.slotBase l hl
    · exact ha
  slotEmpty l hl := by
    rcases List.mem_or_eq_of_mem_set hl with hl | rfl
    · exact h.slotEmpty l hl
    · exact he

theorem evClear (h : s.Invariant) (sel : BitVec 2) (mask : Byte) : State.Invariant
    { s with
      evDone := if sel.getLsbD 0 then s.evDone &&& ~~~mask else s.evDone
      evHomed := if sel.getLsbD 1 then s.evHomed &&& ~~~mask else s.evHomed } where
  __ := h
  evDoneRange i hi := by
    have hd := h.evDoneRange i hi
    dsimp only
    split <;> simp [hd]
  evHomedRange i hi := by
    have hd := h.evHomedRange i hi
    dsimp only
    split <;> simp [hd]

/-- An unsolicited notification sets bits of slots alone (R193). -/
theorem frameEvent (h : s.Invariant) (f : Frame) : (s.frameEvent f).Invariant where
  __ := h
  evDoneRange i hi := by
    have hd := h.evDoneRange i hi
    rw [frameEvent_evDone]
    split <;> simp [hd, bitsOf_slotsHolding_of_le s _ hi]
  evHomedRange i hi := by
    have hd := h.evHomedRange i hi
    rw [frameEvent_evHomed]
    split <;> simp [hd, bitsOf_slotsHolding_of_le s _ hi]

theorem warnClear (h : s.Invariant) :
    State.Invariant { s with warnCount := 0, lastWarnOpcode := 0, lastWarnSrc := 0 } where
  __ := h
  warnEmpty _ := ⟨rfl, rfl⟩

theorem frameWarn (h : s.Invariant) (f : Frame) : (s.frameWarn f).Invariant where
  __ := h
  warnEmpty hz := absurd hz (warnNext_ne_zero _)

/-! ### The staged payload and WRITE -/

theorem txbClear (h : s.Invariant) : State.Invariant { s with txLen := 0 } where
  __ := h
  txWritten i hi := absurd hi (Nat.not_lt_zero i)

/-- A push writes the next byte of the staged payload (R214). -/
theorem txbPush (h : s.Invariant) (b : Byte) (hl : s.txLen.toNat < maxPayload) :
    State.Invariant { s with txPay := Memory.write s.txPay s.txLen.toNat b, txLen := s.txLen + 1 } where
  __ := h
  txPayWf := Memory.wf_write b h.txPayWf hl
  txWritten i hi := by
    have hn : (s.txLen + 1).toNat = s.txLen.toNat + 1 := by
      rw [BitVec.toNat_add, show (1 : BitVec 8).toNat = 1 from rfl]
      simp only [maxPayload] at hl
      omega
    dsimp only at hi ⊢
    rcases Nat.lt_or_ge i s.txLen.toNat with hlt | hge
    · rw [Memory.read_write_other _ _ (by omega)]
      exact h.txWritten i hlt
    · rw [show i = s.txLen.toNat by omega, Memory.read_write_same]
      rfl

/-- A WRITE that fits keeps the counter and the queue within their bounds (R180, R183, R184). -/
theorem enqueue (h : s.Invariant) {f : Frame} (hl : s.linkOpen = true) (hn : (s.writeBytes f).length ≤ s.txFree) :
    (s.enqueue f).Invariant where
  __ := h
  kaBound := by
    have hb := h.kaBound
    rw [enqueue_kaCount, enqueue_cfg, kaNext_toNat h.cfgValid]
    split <;> omega
  txBound := by
    have hb := h.txBound
    simp only [State.txFree] at hn
    rw [enqueue_txQ, enqueue_cfg, List.length_append]
    omega
  closedEmpty hc := absurd hc (by simp [hl])
  txWritten i hi := absurd hi (Nat.not_lt_zero i)

/-! ### READ and the result registers -/

theorem acceptRead (h : s.Invariant) (eopc : Opcode) (esrc : Byte) (any : Bool) (hl : s.linkOpen = true)
    (hp : s.poisoned = false) : (s.acceptRead eopc esrc any).Invariant where
  __ := h
  busyOpen _ := ⟨hl, hp⟩

theorem popFrame (h : s.Invariant) (f : Frame) : (s.popFrame f).Invariant where
  __ := h
  rxBound := by
    have hb := h.rxBound
    rw [popFrame_rxFifo, popFrame_cfg, List.length_drop]
    omega
  closedEmpty hc := by
    obtain ⟨hr, ht⟩ := h.closedEmpty hc
    exact ⟨by rw [popFrame_rxFifo, hr, List.drop_nil], ht⟩

/-- Loading a frame writes every byte of its payload (R134). -/
theorem loadResult (h : s.Invariant) {f : Frame} (hf : payloadFits f.hdr.p1 f.hdr.dst f.pay = true) :
    (s.loadResult f).Invariant where
  __ := h
  resFlag := rfl
  resLength := rfl
  resEmpty hv := by cases hv
  resPayWf := by
    refine Memory.wf_writeAll h.resPayWf ?_
    have := f.hdr.payLen.isLt
    rw [List.length_take]
    simp only [maxPayload]
    omega
  resWritten i hi := by
    rw [loadResult_resLen, payLen_eq hf] at hi
    rw [loadResult_resPay, read_loaded _ hf, if_pos hi, List.getElem?_eq_getElem hi]
    rfl

theorem frameMatch (h : s.Invariant) {f : Frame} (hf : payloadFits f.hdr.p1 f.hdr.dst f.pay = true) :
    (s.frameMatch f).Invariant :=
  { h.loadResult hf with busyOpen := fun hb => by cases hb }

theorem takesFrame (h : s.Invariant) {f : Frame} {t : State} (hf : payloadFits f.hdr.p1 f.hdr.dst f.pay = true)
    (ht : TakesFrame s f t) : t.Invariant := by
  cases ht with
  | matched => exact (h.popFrame f).frameMatch hf
  | unsolicited => exact (h.popFrame f).frameEvent f
  | anomaly => exact (h.popFrame f).frameWarn f

/-! ### The wire and the host -/

theorem received (h : s.Invariant) (b : Byte) (hl : s.linkOpen = true) (hn : s.rxFifo.length < s.cfg.rxDepth) :
    State.Invariant { s with rxFifo := s.rxFifo ++ [b] } where
  __ := h
  rxBound := by simpa using hn
  closedEmpty hc := absurd hc (by simp [hl])

/-- A byte on the line leaves the queue shorter, and the openings before it (R201; log 15). -/
theorem sent (h : s.Invariant) {b : Byte} {rest : List Byte} (hq : s.txQ = b :: rest) :
    State.Invariant { s with line := s.line ++ [b], txQ := rest } where
  __ := h
  txBound := by
    have hb := h.txBound
    rw [hq, List.length_cons] at hb
    exact (Nat.le_succ _).trans hb
  closedEmpty hc := by
    have ht := (h.closedEmpty hc).2
    rw [hq] at ht
    cases ht
  opensRise := by
    have hr := h.opensRise
    rw [List.pairwise_append] at hr ⊢
    obtain ⟨ho, -, hle⟩ := hr
    refine ⟨ho, List.pairwise_singleton _ _, fun x hx y hy => ?_⟩
    have hx := hle x hx _ (List.mem_singleton_self _)
    rw [List.mem_singleton.1 hy, List.length_append]
    omega

/-! ### Every command, every step -/

theorem effect {w : CmdWord} {i : Instr} {t : State} (h : s.Invariant) (hd : decodeCommand w = .ok i)
    (ht : Effect s i t) : t.Invariant := by
  cases ht with
  | error _ he => exact h.endsWithError he
  | hold => exact h
  | reset => exact (h.dropRead.applyReset).finish _ _
  | openLink => exact (h.openLink _).finish _ _
  | closeLink _ hb => exact (h.closeLink hb).finish _ _
  | @kaSet slot addr _ ha => exact (h.setSlot slot.toNat (k := ⟨true, addr⟩) ha (by simp)).finish _ _
  | @kaClr slot => exact (h.setSlot slot.toNat (k := ⟨false, 0x00⟩) rfl (fun _ => rfl)).finish _ _
  | txbClear => exact h.txbClear.finish _ _
  | txbPush hl => exact (h.txbPush _ hl).finish _ _
  | write hl _ _ _ _ _ hn => exact (h.enqueue hl hn).finish _ _
  | read hl hp => exact (h.acceptRead _ _ _ hl hp).endCommand
  | abort hf => exact (h.abortRead hf).finish _ _
  | decodeFrame _ _ _ _ hc => exact ((h.popFrame _).loadResult (frameOf_complete hc).1).finish _ _
  | evClear => exact (h.evClear _ _).finish _ _
  | warnClear => exact h.warnClear.finish _ _
  | frame hn => rw [(commandCode_of_decode hd).2] at hn; cases hn
  | nop | lookup | encodeHeader | abortIdle | rxbGet | decodeStatus | regRead => exact h.finish _ _

theorem stepEnd {t : State} (h : s.Invariant) (ht : StepEnd s t) : t.Invariant := by
  have hu := h.tick
  cases ht with
  | still => exact hu
  | issued => exact { hu with }
  | illegal _ _ he => exact hu.endsWithError he
  | executed _ _ hd he => exact hu.effect hd he
  | frame _ _ hc hf => exact hu.takesFrame (frameOf_complete hc).1 hf
  | received _ hl hn => simpa using hu.received _ (by simpa using hl) (by simpa using hn)
  | sent _ hq => simpa using hu.sent (by simpa using hq)
  | resetInput => exact hu.applyReset.endCommand

end State.Invariant

/-- Settles O25: each way a step can end keeps the invariant, by the lemma about its update. -/
theorem stepKeepsInvariant : Obligations.StepKeepsInvariant :=
  fun _ _ hs h => hs.stepEnd (stepEnd_of_step h)

end Sys2Proof.Machine

/-! ## What clears a fault, and how bytes and the counter move

For each group of fields, once, what a command can do to it; then what a step can. -/

namespace Sys2Proof.Machine

section

variable {s t : State} {i : Instr} {c : Byte}

/-! ### The two error flags -/

/-- Of the commands, only RESET clears a contract fault (R34, R243). -/
theorem Effect.reset_of_fault_cleared (h : Effect s i t) (hc : commandCode i = some c) (hs : s.fault = true)
    (ht : t.fault = false) : i = .reset := by
  cases h with
  | reset => rfl
  | error _ he => obtain ⟨e, -, rfl⟩ := he; simp [hs] at ht
  | frame hn => rw [hn] at hc; cases hc
  | _ => simp [hs] at ht

/-- Of the commands, only RESET and OPEN clear a poisoned link (R33, R244). -/
theorem Effect.reopens_of_poison_cleared (h : Effect s i t) (hc : commandCode i = some c) (hs : s.poisoned = true)
    (ht : t.poisoned = false) : i = .reset ∨ ∃ b, i = .openLink b := by
  cases h with
  | reset => exact .inl rfl
  | openLink => exact .inr ⟨_, rfl⟩
  | error _ he => obtain ⟨e, -, rfl⟩ := he; simp [hs] at ht
  | frame hn => rw [hn] at hc; cases hc
  | _ => simp [hs] at ht

theorem EndsWithError.flags (h : EndsWithError c s t) :
    (s.fault = true → t.fault = true) ∧ (s.poisoned = true → t.poisoned = true) := by
  obtain ⟨e, -, rfl⟩ := h
  exact ⟨fun hf => by simp [hf], fun hp => by simp [hp]⟩

theorem TakesFrame.flags {f : Frame} (h : TakesFrame s f t) : t.fault = s.fault ∧ t.poisoned = s.poisoned := by
  cases h <;> exact ⟨rfl, rfl⟩

/-! ### The line and the queues -/

/-- What a command does to the line and its queue: nothing, a WRITE adds bytes at the tail, or the queue is
discarded. -/
theorem Effect.txQ_cases (h : Effect s i t) (hc : commandCode i = some c) :
    t.line = s.line ∧ (t.txQ = s.txQ ∨ (c = cmdWrite ∧ ∃ added, t.txQ = s.txQ ++ added) ∨
      (Flushes i ∧ t.txQ = [])) := by
  cases h with
  | error _ he => obtain ⟨e, -, rfl⟩ := he; exact ⟨rfl, .inl rfl⟩
  | reset => exact ⟨by simp, .inr (.inr ⟨.reset, rfl⟩)⟩
  | closeLink => exact ⟨rfl, .inr (.inr ⟨.closeLink, rfl⟩)⟩
  | openLink => exact ⟨rfl, .inr (.inr ⟨.openLink _, rfl⟩)⟩
  | write => exact ⟨rfl, .inr (.inl ⟨(Option.some.inj hc).symm, _, rfl⟩)⟩
  | frame hn => rw [hn] at hc; cases hc
  | _ => exact ⟨rfl, .inl rfl⟩

/-- What a command does to the receive FIFO: nothing, DECODE_FRAME takes the frame at its head, or it is discarded. -/
theorem Effect.rxFifo_cases (h : Effect s i t) (hc : commandCode i = some c) :
    t.rxFifo = s.rxFifo ∨
    (i = .decodeFrame ∧ complete s.rxFifo = true ∧ t.rxFifo = s.rxFifo.drop (frameLen s.rxFifo)) ∨
    (Flushes i ∧ t.rxFifo = []) := by
  cases h with
  | error _ he => obtain ⟨e, -, rfl⟩ := he; exact .inl rfl
  | reset => exact .inr (.inr ⟨.reset, rfl⟩)
  | closeLink => exact .inr (.inr ⟨.closeLink, rfl⟩)
  | openLink => exact .inr (.inr ⟨.openLink _, rfl⟩)
  | decodeFrame _ _ _ _ hq =>
    refine .inr (.inl ⟨rfl, hq, ?_⟩)
    rw [← (frameOf_complete hq).2]
    rfl
  | frame hn => rw [hn] at hc; cases hc
  | _ => exact .inl rfl

theorem EndsWithError.queues (h : EndsWithError c s t) : t.line = s.line ∧ t.txQ = s.txQ ∧ t.rxFifo = s.rxFifo := by
  obtain ⟨e, -, rfl⟩ := h
  exact ⟨rfl, rfl, rfl⟩

/-- A frame step takes bytes from the receive FIFO alone (R191). -/
theorem TakesFrame.queues {f : Frame} (h : TakesFrame s f t) :
    t.line = s.line ∧ t.txQ = s.txQ ∧ t.rxFifo = s.rxFifo.drop f.bytes.length := by
  cases h <;> exact ⟨rfl, rfl, rfl⟩

/-! ### The keep-alive counter -/

theorem okWrites_append {l : List Response} (h : t.responses = s.responses ++ l) :
    t.okWrites = s.okWrites + l.countP fun r => r.cmd == cmdWrite && r.err == .ok := by
  rw [State.okWrites, h, List.countP_append]
  rfl

/-- An error is no successful WRITE. -/
theorem okWrites_raise {e : ErrorCode} (h : e ≠ .ok) : (s.raise c e).okWrites = s.okWrites := by
  rw [okWrites_append (raise_responses s c e)]
  simp [h]

/-- Another command's success is no successful WRITE. -/
theorem okWrites_finish_of_ne {d : BitVec 64} (h : c ≠ cmdWrite) : (s.finish c d).okWrites = s.okWrites := by
  rw [okWrites_append (finish_responses s c d)]
  simp [h]

theorem okWrites_finish_write (d : BitVec 64) : (s.finish cmdWrite d).okWrites = s.okWrites + 1 := by
  rw [okWrites_append (finish_responses s _ d)]
  simp

theorem okWrites_dropRead : s.dropRead.okWrites = s.okWrites := by
  unfold State.dropRead
  split
  · rw [okWrites_append (respond_responses s _ _ _)]
    rfl
  · rfl

theorem okWrites_abortRead : s.abortRead.okWrites = s.okWrites := by
  rw [okWrites_append (abortRead_responses s)]
  rfl

/-- The counter moves by a successful WRITE, or with an OPEN or a reset, and by nothing else (R35, R180). -/
def CounterMoves (s t : State) : Prop :=
  (t.okWrites = s.okWrites + 1 ∧ t.kaCount = kaNext s.burstDue s.kaCount) ∨
  (t.okWrites = s.okWrites ∧ (t.kaCount = s.kaCount ∨ t.epoch ≠ s.epoch ∨ t.opens ≠ s.opens))

theorem CounterMoves.unmoved (hw : t.okWrites = s.okWrites) (hk : t.kaCount = s.kaCount) : CounterMoves s t :=
  .inr ⟨hw, .inl hk⟩

theorem EndsWithError.counterMoves (h : EndsWithError c s t) : CounterMoves s t := by
  obtain ⟨e, he, rfl⟩ := h
  exact .unmoved (okWrites_raise he.notOk) rfl

theorem TakesFrame.counterMoves {f : Frame} (h : TakesFrame s f t) : CounterMoves s t := by
  cases h with
  | matched => exact .unmoved (okWrites_append (frameMatch_responses (s.popFrame f) f)) rfl
  | unsolicited | anomaly => exact .unmoved rfl rfl

theorem Effect.counterMoves (h : Effect s i t) (hc : commandCode i = some c) : CounterMoves s t := by
  cases h with
  | error _ he => exact he.counterMoves
  | hold | read => exact .unmoved rfl rfl
  | write => exact .inl ⟨okWrites_finish_write _, rfl⟩
  | openLink =>
    exact .inr ⟨okWrites_finish_of_ne (by decide), .inr (.inr (by simp))⟩
  | reset =>
    refine .inr ⟨?_, .inr (.inl (by simp))⟩
    rw [okWrites_finish_of_ne (by decide)]
    exact okWrites_dropRead
  | abort => exact .unmoved ((okWrites_finish_of_ne (by decide)).trans okWrites_abortRead) rfl
  | frame hn => rw [hn] at hc; cases hc
  | _ => exact .unmoved (okWrites_finish_of_ne (by decide)) rfl

theorem counterMoves_of_step (h : step s = .next t) : CounterMoves s t := by
  have hu : ∀ {v : State}, CounterMoves s.tick v → CounterMoves s v := by
    simp only [CounterMoves, State.okWrites, State.burstDue, tick_responses, tick_kaCount, tick_cfg, tick_epoch,
      tick_opens, imp_self, implies_true]
  have ht : s.tick.okWrites = s.okWrites := by simp only [State.okWrites, tick_responses]
  cases stepEnd_of_step h with
  | still | issued | received | sent => exact .unmoved ht (by simp)
  | illegal _ _ hx => exact hu hx.counterMoves
  | executed _ _ hd hx => exact hu (hx.counterMoves (commandCode_of_decode hd).2)
  | frame _ _ _ hx => exact hu hx.counterMoves
  | resetInput => exact .inr ⟨ht, .inr (.inl (by simp))⟩

/-- What holds along a run of R183: with `k` = `KA_THRESH` + 1, each burst ends `k` WRITEs, and the rest are counted. -/
structure Scheduled (s : State) (n b r : Nat) (t : State) : Prop where
  cfg : t.cfg = s.cfg
  count : t.kaCount.toNat = r
  bound : r ≤ s.cfg.kaThresh + 1
  writes : n = b * (s.cfg.kaThresh + 1) + r
  restPos : 1 ≤ n → 1 ≤ r

/-- The count after a successful WRITE on the way. -/
theorem Scheduled.next_count {n b r : Nat} {u : State} (h : Scheduled s n b r t) (hv : s.cfg.Valid)
    (hs : step t = .next u) (hw : u.okWrites = t.okWrites + 1) :
    u.cfg = s.cfg ∧ u.kaCount.toNat = if s.cfg.kaThresh < r then 1 else r + 1 := by
  refine ⟨(step_line hs).1.trans h.cfg, ?_⟩
  rcases counterMoves_of_step hs with ⟨-, hk⟩ | ⟨hn, -⟩
  · rw [hk, kaNext_toNat (h.cfg ▸ hv), h.cfg, h.count]
  · omega

/-- By induction on the run: a plain WRITE leaves the threshold unreached, a burst comes exactly beyond it. -/
theorem scheduled_of_run {n b r : Nat} (hv : s.cfg.Valid) (h0 : s.kaCount = 0) (run : LinkRun s n b r t) :
    Scheduled s n b r t := by
  induction run with
  | start => exact ⟨rfl, by rw [h0]; rfl, Nat.zero_le _, by simp, id⟩
  | quiet _ hs hw hr ho ih =>
    refine { ih with cfg := (step_line hs).1.trans ih.cfg, count := ?_ }
    rcases counterMoves_of_step hs with ⟨hw', -⟩ | ⟨-, hk | hr' | ho'⟩
    · omega
    · rw [hk, ih.count]
    · exact absurd hr hr'
    · exact absurd ho ho'
  | write _ hs hw hlt ih =>
    obtain ⟨hcfg, hk⟩ := ih.next_count hv hs hw
    have hc := ih.count
    have hn := ih.writes
    have hsome := ih.restPos
    split at hk
    · omega
    · exact ⟨hcfg, hk, by omega, by omega, by omega⟩
  | @burst n b r _ _ _ hs hw hle ih =>
    obtain ⟨hcfg, hk⟩ := ih.next_count hv hs hw
    have hc := ih.count
    have hb := ih.bound
    have hn := ih.writes
    split at hk
    · refine ⟨hcfg, hk, by omega, ?_, fun _ => Nat.le_refl 1⟩
      rw [Nat.succ_mul]
      omega
    · omega

end

/-! ### The statements -/

/-- Settles O20: every way a step can end keeps `fault`, but for the reset input and the word of RESET. -/
theorem contractFaultClearedOnlyByReset : Obligations.ContractFaultClearedOnlyByReset := by
  intro s t h hs ht
  cases stepEnd_of_step h with
  | resetInput he => exact .inl he
  | executed he hp hd hx =>
    have hi := hx.reset_of_fault_cleared (commandCode_of_decode hd).2 (by simpa using hs) ht
    subst hi
    exact .inr ⟨he, hp.trans (congrArg some (word_of_reset hd))⟩
  | illegal _ _ hx => simp [hx.flags.1 (by simpa using hs)] at ht
  | frame _ _ _ hx => simp [hx.flags.1, hs] at ht
  | still | issued | received | sent => simp [hs] at ht

/-- Settles O21: every way a step can end keeps `poisoned`, but for the reset input and the words of RESET and OPEN. -/
theorem poisonClearedOnlyByReopening : Obligations.PoisonClearedOnlyByReopening := by
  intro s t h hs ht
  cases stepEnd_of_step h with
  | resetInput he => exact .inl he
  | executed he hp hd hx =>
    refine .inr ⟨he, ?_⟩
    rw [hp]
    rcases hx.reopens_of_poison_cleared (commandCode_of_decode hd).2 (by simpa using hs) ht with rfl | ⟨b, rfl⟩
    · exact .inl (congrArg some (word_of_reset hd))
    · obtain ⟨a, ha⟩ := word_of_openLink hd
      exact .inr ⟨a, congrArg some ha⟩
  | illegal _ _ hx => simp [hx.flags.2 (by simpa using hs)] at ht
  | frame _ _ _ hx => simp [hx.flags.2, hs] at ht
  | still | issued | received | sent => simp [hs] at ht

/-- Settles O27: only wire-TX touches the line, and only WRITE and the discarding words the queue. -/
theorem lineOrder : Obligations.LineOrder := by
  intro s t h
  have unchanged (hl : t.line = s.line) (hq : t.txQ = s.txQ) :
      ∃ added, t.line ++ t.txQ = s.line ++ s.txQ ++ added ∧
        (added = [] ∨ (s.nextEvent = .coreCommand ∧ ∃ w, s.port = some w ∧ w.extractLsb' 40 8 = 0x0A)) :=
    ⟨[], by rw [hl, hq, List.append_nil], .inl rfl⟩
  cases stepEnd_of_step h with
  | still | issued | received => exact ⟨.inl (by simp), .inr (unchanged (by simp) (by simp))⟩
  | illegal _ _ hx =>
    obtain ⟨hl, hq, -⟩ := hx.queues
    exact ⟨.inl (by simpa using hl), .inr (unchanged (by simpa using hl) (by simpa using hq))⟩
  | frame _ _ _ hx =>
    obtain ⟨hl, hq, -⟩ := hx.queues
    exact ⟨.inl (by simpa using hl), .inr (unchanged (by simpa using hl) (by simpa using hq))⟩
  | @executed w i _ he hp hd hx =>
    obtain ⟨hl, hq⟩ := hx.txQ_cases (commandCode_of_decode hd).2
    rw [tick_line] at hl
    rw [tick_txQ] at hq
    refine ⟨.inl hl, ?_⟩
    rcases hq with hq | ⟨hw, added, hq⟩ | ⟨hi, hq⟩
    · exact .inr (unchanged hl hq)
    · exact .inr ⟨added, by rw [hl, hq, List.append_assoc], .inr ⟨he, w, hp, hw⟩⟩
    · exact .inl ⟨flushNext_of_decode he hp hd hi, hq, hl⟩
  | @sent b rest he hq =>
    exact ⟨.inr ⟨b, he, hq, rfl⟩, .inr ⟨[], by simp [hq], .inl rfl⟩⟩
  | resetInput he => exact ⟨.inl (by simp), .inl ⟨.inl he, rfl, by simp⟩⟩

/-- Settles O28: bytes enter by wire-RX, and leave by a frame step, DECODE_FRAME or a discarding word. -/
theorem receiveOrder : Obligations.ReceiveOrder := by
  intro s t h
  cases stepEnd_of_step h with
  | still | issued | sent => exact .inl (by simp)
  | illegal _ _ hx =>
    obtain ⟨-, -, hr⟩ := hx.queues
    exact .inl (by rw [hr, tick_rxFifo])
  | received he hl hn => exact .inr (.inl ⟨_, he, hl, hn, rfl⟩)
  | frame he hb hc hx =>
    obtain ⟨-, -, hr⟩ := hx.queues
    rw [tick_rxFifo, (frameOf_complete hc).2] at hr
    obtain ⟨h6, hlen⟩ := (complete_iff _).1 hc
    exact .inr (.inr (.inl ⟨.inl ⟨he, hb⟩, h6, hlen, hr⟩))
  | executed he hp hd hx =>
    have hr := hx.rxFifo_cases (commandCode_of_decode hd).2
    rw [tick_rxFifo] at hr
    rcases hr with hr | ⟨rfl, hc, hr⟩ | ⟨hi, hr⟩
    · exact .inl hr
    · obtain ⟨h6, hlen⟩ := (complete_iff _).1 hc
      exact .inr (.inr (.inl ⟨.inr ⟨he, hp.trans (congrArg some (word_of_decodeFrame hd))⟩, h6, hlen, hr⟩))
    · exact .inr (.inr (.inr ⟨flushNext_of_decode he hp hd hi, hr⟩))
  | resetInput he => exact .inr (.inr (.inr ⟨.inl he, rfl⟩))

/-- Settles O29: `scheduled_of_run` gives n = b (KA_THRESH + 1) + r, and r - 1 is the remainder of n - 1. -/
theorem keepAliveSchedule : Obligations.KeepAliveSchedule := by
  intro s t n b r hv h0 run
  obtain ⟨-, hcount, hbound, hwrites, hsome⟩ := scheduled_of_run hv h0 run
  have hdeadline : s.cfg.kaThresh + 1 < s.cfg.kaDeadline := hv.1
  refine ⟨?_, hcount, hsome, hbound, by omega⟩
  rcases Nat.eq_zero_or_pos n with rfl | hpos
  · have hb : b * (s.cfg.kaThresh + 1) = 0 := by omega
    simpa using hb
  · have hr := hsome hpos
    symm
    rw [show n - 1 = (r - 1) + b * (s.cfg.kaThresh + 1) by omega, Nat.add_mul_div_right _ _ (Nat.succ_pos _),
      Nat.div_eq_of_lt (by omega), Nat.zero_add]

end Sys2Proof.Machine

/-! ## Registers, slots, the staged payload, and the frames a READ passes over -/

namespace Sys2Proof.Machine

/-! ### The common checks of a checked command -/

/-- A command whose meaning runs the common checks first, under a code without an exemption (R246). -/
theorem commonChecks_of_checked {i : Instr} {cmd : Byte} {body : State → Host.Outcome State Fault Refusal}
    (hx : ∀ s, exec i s = checked cmd s (body s)) (h1 : cmd ≠ cmdReset) (h2 : cmd ≠ cmdRegRead) (h3 : cmd ≠ cmdAbort) :
    CommonChecks i cmd := fun s =>
  ⟨fun hf => (hx s).trans (checked_faulted hf h1 h2), fun hf hb => (hx s).trans (checked_busy hf hb h1 h2 h3)⟩

/-! ### Slots and the staged payload -/

theorem exec_kaSet_idle {s : State} (hi : s.Idle) (slot addr : Byte) :
    exec (.kaSet slot addr) s = .next (
      if s.cfg.nKa ≤ slot.toNat then s.contractError 0x04 .badSlot
      else if addr.getLsbD 7 then s.contractError 0x04 .illegalCommand
      else State.answered { s with slots := s.slots.set slot.toNat ⟨true, addr⟩ } 0x04 .ok 0) := by
  refine (checked_idle hi cmdKaSet _).trans ?_
  split
  · exact congrArg _ (raise_contract s _ rfl)
  · rw [payloadBit_eq]
    split
    · exact congrArg _ (raise_contract s _ rfl)
    · rfl

theorem exec_kaClr_idle {s : State} (hi : s.Idle) (slot : Byte) :
    exec (.kaClr slot) s = .next (
      if s.cfg.nKa ≤ slot.toNat then s.contractError 0x05 .badSlot
      else State.answered { s with slots := s.slots.set slot.toNat ⟨false, 0⟩ } 0x05 .ok 0) := by
  refine (checked_idle hi cmdKaClr _).trans ?_
  split
  · exact congrArg _ (raise_contract s _ rfl)
  · rfl

theorem exec_txbPush_idle {s : State} (hi : s.Idle) (b : Byte) :
    exec (.txbPush b) s = .next (
      if s.txLen.toNat = 255 then s.contractError 0x09 .txOverflow
      else State.answered
        { s with txPay := Memory.write s.txPay s.txLen.toNat b, txLen := s.txLen + 1 } 0x09 .ok 0) := by
  refine (checked_idle hi cmdTxbPush _).trans ?_
  rw [maxPayload]
  split
  · exact congrArg _ (raise_contract s _ rfl)
  · rfl

/-- A slot file with one slot written, slot by slot (R37). -/
theorem getElem?_setSlot (l : List KaSlot) (i j : Nat) (k : KaSlot) :
    (l.set i k)[j]? = if j = i ∧ j < l.length then some k else l[j]? := by
  rw [List.getElem?_set]
  by_cases hj : j = i
  · subst hj
    by_cases hl : j < l.length
    · simp [hl]
    · simp [hl]
  · simp [hj, Ne.symm hj]

/-- Settles O35, from the three branches of `exec_kaSet_idle`. -/
theorem kaSetWritesItsSlot : Obligations.KaSetWritesItsSlot := by
  refine ⟨fun slot addr s hi hs ha => ⟨_, ?_, List.length_set .., fun j => getElem?_setSlot _ _ j _⟩,
    fun slot addr s hi hs => ?_, fun slot addr s hi hs ha => ?_,
    fun slot addr => commonChecks_of_checked (fun _ => rfl) (by decide) (by decide) (by decide)⟩
  · rw [exec_kaSet_idle hi, if_neg (Nat.not_le.2 hs), ha]
    rfl
  · rw [exec_kaSet_idle hi, if_pos hs]
  · rw [exec_kaSet_idle hi, if_neg (Nat.not_le.2 hs), if_pos ha]

/-- Settles O36, from the two branches of `exec_kaClr_idle`. -/
theorem kaClrEmptiesItsSlot : Obligations.KaClrEmptiesItsSlot := by
  refine ⟨fun slot s hi hs => ⟨_, ?_, List.length_set .., fun j => getElem?_setSlot _ _ j _⟩, fun slot s hi hs => ?_,
    fun slot => commonChecks_of_checked (fun _ => rfl) (by decide) (by decide) (by decide)⟩
  · rw [exec_kaClr_idle hi, if_neg (Nat.not_le.2 hs)]
  · rw [exec_kaClr_idle hi, if_pos hs]

/-- Settles O37, from the two branches of `exec_txbPush_idle` and the read after a write. -/
theorem txbPushAppendsOneByte : Obligations.TxbPushAppendsOneByte := by
  refine ⟨fun b s hi hl => ⟨Memory.write s.txPay s.txLen.toNat b, ?_, fun j => ?_⟩, fun b s hi hl => ?_,
    fun b => commonChecks_of_checked (fun _ => rfl) (by decide) (by decide) (by decide)⟩
  · rw [exec_txbPush_idle hi, if_neg hl.ne]
  · split
    · rw [‹j = _›, Memory.read_write_same]
    · exact Memory.read_write_other _ _ ‹_›
  · rw [exec_txbPush_idle hi, hl]
    rfl

/-- Settles O14: `powerOn` writes the table of R30 down. -/
theorem resetValues : Obligations.ResetValues :=
  ⟨rfl, fun _ => by simp [State.powerOn, emptySlots]⟩

/-! ### REG_READ -/

/-- REG_READ of an implemented number answers its value in every state (R217). -/
theorem exec_regRead_of_some {s : State} {n : Byte} {v : BitVec 32} (h : s.regValue n = some v) :
    exec (.regRead n) s = .next (s.answered 0x10 .ok (v.setWidth 64)) := by
  refine (checked_exempt (.inr rfl) s _).trans ?_
  rw [h]
  rfl

/-- REG_READ of an unimplemented number is a contract fault in every state (R50, R217). -/
theorem exec_regRead_of_none {s : State} {n : Byte} (h : s.regValue n = none) :
    exec (.regRead n) s = .next (s.contractError 0x10 .illegalCommand) := by
  refine (checked_exempt (.inr rfl) s _).trans ?_
  rw [h]
  exact congrArg _ (raise_contract s _ rfl)

/-- The numbers from 0x10 on are the slots', and no others (R50, R64). -/
theorem regValue_of_le {s : State} {n : Byte} (h : 0x10 ≤ n.toNat) :
    s.regValue n = if n.toNat < 0x10 + s.cfg.nKa then some (s.kaSlotReg (n.toNat - 0x10)) else none := by
  have hk : ∀ k : Byte, k.toNat < 16 → n ≠ k := by rintro k hk rfl; omega
  unfold State.regValue
  rw [if_neg (hk 0 (by decide)), if_neg (hk 1 (by decide)), if_neg (hk 2 (by decide)), if_neg (hk 3 (by decide)),
    if_neg (hk 4 (by decide)), if_neg (hk 5 (by decide)), if_neg (hk 6 (by decide)), if_neg (hk 7 (by decide)),
    if_neg (hk 8 (by decide)), if_neg (hk 9 (by decide)), if_neg (hk 10 (by decide)), if_neg (hk 11 (by decide)),
    if_neg (hk 12 (by decide)), if_neg (hk 13 (by decide)), if_neg (hk 14 (by decide)), if_neg (hk 15 (by decide))]

/-- A register of one field of at most 32 bits answers the field, zero-extended. -/
theorem exec_regRead_lowField {s : State} {n : Byte} {w : Nat} {v : BitVec w} (hw : w ≤ 32)
    (h : s.regValue n = some (lowField v)) : exec (.regRead n) s = .next (s.answered 0x10 .ok (v.setWidth 64)) := by
  have hv : v.toNat < 2 ^ 32 := v.isLt.trans_le (Nat.pow_le_pow_right (by decide) hw)
  have hz : (lowField v).setWidth 64 = v.setWidth 64 := by
    apply BitVec.eq_of_toNat_eq
    simp only [lowField, BitVec.toNat_setWidth, Nat.mod_eq_of_lt hv]
  rw [exec_regRead_of_some h, hz]

/-- Settles O41: the register map, one number after another. -/
theorem regReadOtherRegisters : Obligations.RegReadOtherRegisters := by
  intro s
  have level (l : List Byte) : (BitVec.ofNat 16 l.length).setWidth 64 = BitVec.ofNat 64 (l.length % 65536) := by
    apply BitVec.eq_of_toNat_eq
    simp
  refine ⟨exec_regRead_lowField (by decide) rfl, exec_regRead_lowField (by decide) rfl, ?_, ?_,
    exec_regRead_lowField (by decide) rfl, exec_regRead_lowField (by decide) rfl,
    exec_regRead_lowField (by decide) rfl, exec_regRead_lowField (by decide) rfl,
    exec_regRead_lowField (by decide) rfl, fun n hn => exec_regRead_of_none ?_⟩
  · rw [← level]
    exact exec_regRead_lowField (by decide) rfl
  · rw [← level]
    exact exec_regRead_lowField (by decide) rfl
  · rw [regValue_of_le (by omega), if_neg (by omega)]

theorem not_isEmpty (l : List Byte) : (!l.isEmpty) = decide (0 < l.length) := by cases l <;> simp

/-- The fields of `STATUS` (R51). -/
theorem statusReg_fields (s : State) :
    s.statusReg.extractLsb' 0 1 = BitVec.ofBool s.linkOpen ∧ s.statusReg.extractLsb' 1 1 = BitVec.ofBool s.poisoned ∧
    s.statusReg.extractLsb' 2 1 = BitVec.ofBool s.fault ∧ s.statusReg.extractLsb' 3 1 = BitVec.ofBool s.busy ∧
    s.statusReg.extractLsb' 4 1 = BitVec.ofBool s.resValid ∧
    s.statusReg.extractLsb' 5 1 = BitVec.ofBool (decide (0 < s.txQ.length)) ∧
    s.statusReg.extractLsb' 6 1 = BitVec.ofBool (decide (0 < s.rxFifo.length)) ∧ s.statusReg.extractLsb' 7 1 = 0 ∧
    s.statusReg.extractLsb' 8 4 = s.lastErr ∧ s.statusReg.extractLsb' 12 20 = 0 := by
  simp only [State.statusReg, not_isEmpty]
  have h0 := Bool.toNat_le s.linkOpen
  have h1 := Bool.toNat_le s.poisoned
  have h2 := Bool.toNat_le s.fault
  have h3 := Bool.toNat_le s.busy
  have h4 := Bool.toNat_le s.resValid
  have h5 := Bool.toNat_le (decide (0 < s.txQ.length))
  have h6 := Bool.toNat_le (decide (0 < s.rxFifo.length))
  refine ⟨?_, ?_, ?_, ?_, ?_, ?_, ?_, ?_, ?_, ?_⟩ <;> apply BitVec.eq_of_toNat_eq <;>
    simp only [BitVec.extractLsb'_toNat, BitVec.toNat_ofNat, BitVec.toNat_ofBool, Nat.shiftRight_eq_div_pow,
      BitVec.ofNat_eq_ofNat] <;> omega

/-- Settles O40: REG_READ is exempt from the common checks, and `STATUS` has the fields of R51. -/
theorem regReadStatus : Obligations.RegReadStatus :=
  fun s => ⟨s.statusReg, exec_regRead_of_some rfl, statusReg_fields s⟩

theorem resHdrLo_fields (s : State) :
    s.resHdrLo.extractLsb' 0 8 = s.resHdr.opcLo ∧ s.resHdrLo.extractLsb' 8 8 = s.resHdr.opcHi ∧
    s.resHdrLo.extractLsb' 16 8 = s.resHdr.p1 ∧ s.resHdrLo.extractLsb' 24 8 = s.resHdr.p2 := by
  refine ⟨?_, ?_, ?_, ?_⟩ <;> apply BitVec.eq_of_toNat_eq <;>
    simp only [State.resHdrLo, le32, BitVec.extractLsb'_toNat, BitVec.toNat_ofNat, Nat.shiftRight_eq_div_pow] <;> omega

theorem resHdrHi_fields (s : State) :
    s.resHdrHi.extractLsb' 0 8 = s.resHdr.dst ∧ s.resHdrHi.extractLsb' 8 8 = s.resHdr.src ∧
    s.resHdrHi.extractLsb' 16 1 = BitVec.ofBool s.resHasPayload ∧ s.resHdrHi.extractLsb' 17 15 = 0 := by
  have h0 := Bool.toNat_le s.resHasPayload
  refine ⟨?_, ?_, ?_, ?_⟩ <;> apply BitVec.eq_of_toNat_eq <;>
    simp only [State.resHdrHi, BitVec.extractLsb'_toNat, BitVec.toNat_ofNat, BitVec.toNat_ofBool,
      Nat.shiftRight_eq_div_pow, BitVec.ofNat_eq_ofNat] <;> omega

theorem expReg_fields (s : State) :
    s.expReg.extractLsb' 0 16 = s.expOpcode ∧ s.expReg.extractLsb' 16 8 = s.expSrc ∧
    s.expReg.extractLsb' 24 1 = BitVec.ofBool s.expAny ∧ s.expReg.extractLsb' 25 7 = 0 := by
  have h0 := Bool.toNat_le s.expAny
  refine ⟨?_, ?_, ?_, ?_⟩ <;> apply BitVec.eq_of_toNat_eq <;>
    simp only [State.expReg, BitVec.extractLsb'_toNat, BitVec.toNat_ofNat, BitVec.toNat_ofBool,
      Nat.shiftRight_eq_div_pow, BitVec.ofNat_eq_ofNat] <;> omega

theorem lastWarnReg_fields (s : State) :
    s.lastWarnReg.extractLsb' 0 16 = s.lastWarnOpcode ∧ s.lastWarnReg.extractLsb' 16 8 = s.lastWarnSrc ∧
    s.lastWarnReg.extractLsb' 24 8 = 0 := by
  refine ⟨?_, ?_, ?_⟩ <;> apply BitVec.eq_of_toNat_eq <;>
    simp only [State.lastWarnReg, BitVec.extractLsb'_toNat, BitVec.toNat_ofNat, Nat.shiftRight_eq_div_pow,
      BitVec.ofNat_eq_ofNat] <;> omega

theorem lastErrReg_fields (s : State) :
    s.lastErrReg.extractLsb' 0 4 = s.lastErr ∧ s.lastErrReg.extractLsb' 4 4 = 0 ∧
    s.lastErrReg.extractLsb' 8 8 = s.lastErrCmd ∧ s.lastErrReg.extractLsb' 16 16 = 0 := by
  refine ⟨?_, ?_, ?_, ?_⟩ <;> apply BitVec.eq_of_toNat_eq <;>
    simp only [State.lastErrReg, BitVec.extractLsb'_toNat, BitVec.toNat_ofNat, Nat.shiftRight_eq_div_pow,
      BitVec.ofNat_eq_ofNat] <;> omega

/-- Under R8 the threshold and the slot count fit their fields of `PARAMS` (R63). -/
theorem paramsReg_fields {c : Config} (hv : c.Valid) :
    ((paramsReg c).extractLsb' 0 8).toNat = c.kaThresh ∧ ((paramsReg c).extractLsb' 8 4).toNat = c.nKa ∧
    (paramsReg c).extractLsb' 12 4 = 0 ∧ ((paramsReg c).extractLsb' 16 16).toNat = c.cmdTable.length % 65536 := by
  obtain ⟨-, hthresh, -, hslots, -⟩ := hv
  refine ⟨?_, ?_, BitVec.eq_of_toNat_eq ?_, ?_⟩ <;>
    simp only [paramsReg, BitVec.extractLsb'_toNat, BitVec.toNat_ofNat, Nat.shiftRight_eq_div_pow,
      BitVec.ofNat_eq_ofNat] <;> omega

theorem kaSlotReg_fields (s : State) (j : Nat) :
    (s.kaSlotReg j).extractLsb' 0 8 = (s.slot j).addr ∧
    (s.kaSlotReg j).extractLsb' 8 1 = BitVec.ofBool (s.slot j).valid ∧ (s.kaSlotReg j).extractLsb' 9 23 = 0 := by
  have h0 := Bool.toNat_le (s.slot j).valid
  refine ⟨?_, ?_, ?_⟩ <;> apply BitVec.eq_of_toNat_eq <;>
    simp only [State.kaSlotReg, BitVec.extractLsb'_toNat, BitVec.toNat_ofNat, BitVec.toNat_ofBool,
      Nat.shiftRight_eq_div_pow, BitVec.ofNat_eq_ofNat] <;> omega

/-- Under R8 the slots' registers lie at the numbers from 0x10 on (R50, R64). -/
theorem regValue_kaSlot {s : State} {j : Nat} (hv : s.cfg.Valid) (hj : j < s.cfg.nKa) :
    s.regValue (BitVec.ofNat 8 (0x10 + j)) = some (s.kaSlotReg j) := by
  obtain ⟨-, -, -, hslots, -⟩ := hv
  have hn : (BitVec.ofNat 8 (0x10 + j)).toNat = 0x10 + j := Nat.mod_eq_of_lt (by omega)
  rw [regValue_of_le (by omega), hn, if_pos (by omega), Nat.add_sub_cancel_left]

/-- Settles O42, from the fields of each packed register. -/
theorem regReadPackedRegisters : Obligations.RegReadPackedRegisters := by
  intro s hv
  refine ⟨⟨_, exec_regRead_of_some rfl, resHdrLo_fields s⟩, ⟨_, exec_regRead_of_some rfl, resHdrHi_fields s⟩,
    ⟨_, exec_regRead_of_some rfl, expReg_fields s⟩, ⟨_, exec_regRead_of_some rfl, lastWarnReg_fields s⟩,
    ⟨_, exec_regRead_of_some rfl, lastErrReg_fields s⟩, ⟨_, exec_regRead_of_some rfl, paramsReg_fields hv⟩,
    fun j k hj hk => ⟨_, exec_regRead_of_some (regValue_kaSlot hv hj), ?_⟩⟩
  have hs : s.slot j = k := by rw [State.slot, List.getD_eq_getElem?_getD, hk, Option.getD_some]
  exact hs ▸ kaSlotReg_fields s j

/-! ### The frames a READ passes over -/

/-- With no READ pending a frame changes nothing (R285). -/
theorem readFrame_idle {f : Frame} {s : State} (hb : s.busy = false) : readFrame f s = .next s := by
  simp [readFrame, hb, hold]

theorem readFrame_unsolicited {f : Frame} {s : State} (hb : s.busy = true) (hm : ¬ s.isMatch f = true)
    (hu : s.isUnsolicited f = true) : readFrame f s = .next ((s.popFrame f).frameEvent f) := by
  rw [readFrame, if_pos hb, if_neg hm, if_pos hu]

theorem readFrame_anomaly {f : Frame} {s : State} (hb : s.busy = true) (hm : ¬ s.isMatch f = true)
    (hu : ¬ s.isUnsolicited f = true) : readFrame f s = .next ((s.popFrame f).frameWarn f) := by
  rw [readFrame, if_pos hb, if_neg hm, if_neg hu]

/-- The opcode of a frame, from its first two bytes (R101). -/
theorem le16_bytes (f : Frame) : le16 (f.bytes.getD 0 0) (f.bytes.getD 1 0) = f.hdr.opcode := rfl

theorem src_bytes (f : Frame) : f.bytes.getD 5 0 = f.hdr.src := rfl

/-- An event bitmap to which the slots of a source are added under a condition (R193). -/
theorem getLsbD_addSlots (s : State) (src : Byte) (p : Prop) [Decidable p] (e : BitVec 8) {j : Nat} (hj : j < 8) :
    (if p then e ||| bitsOf (s.slotsHolding src) else e).getLsbD j = true ↔
      e.getLsbD j = true ∨ (p ∧ j < s.cfg.nKa ∧ s.slots[j]? = some ⟨true, src⟩) := by
  split
  · rename_i hp
    rw [BitVec.getLsbD_or, Bool.or_eq_true, bitsOf_getLsbD _ hj, mem_slotsHolding]
    simp [hp]
  · rename_i hp
    simp [hp]

/-- The saturating counter in natural numbers (R194). -/
theorem warnNext_eq (n : BitVec 16) : warnNext n = BitVec.ofNat 16 (min (n.toNat + 1) 0xFFFF) := by
  have hlt := n.isLt
  apply BitVec.eq_of_toNat_eq
  unfold warnNext
  split
  · subst n
    rfl
  · have hne : n.toNat ≠ 0xFFFF := fun h => ‹¬ n = 0xFFFF› (BitVec.eq_of_toNat_eq h)
    rw [BitVec.toNat_add, BitVec.toNat_ofNat, show (1 : BitVec 16).toNat = 1 from rfl]
    omega

/-- Settles O54: the frame is the filter's second case, and each bitmap gains the slots of its source. -/
theorem unsolicitedFrameSetsEventBits : Obligations.UnsolicitedFrameSetsEventBits := by
  intro i q s hw hq hb hm hop hslot hsrc
  obtain ⟨f, rfl, -, hx⟩ := exec_of_frame hw hq
  simp only [le16_bytes, src_bytes] at hm hop hslot hsrc ⊢
  refine ⟨_, _, ?_, fun j hj => getLsbD_addSlots s f.hdr.src _ _ hj, fun j hj => getLsbD_addSlots s f.hdr.src _ _ hj⟩
  exact (hx s).trans <|
    readFrame_unsolicited hb (mt (isMatch_iff s f).1 hm) ((isUnsolicited_iff s f).2 ⟨hop, hslot, hsrc⟩)

/-- Settles O55: the frame is the filter's last case, and with no READ pending none. -/
theorem otherFrameIsRecordedAsWarning : Obligations.OtherFrameIsRecordedAsWarning := by
  intro i q s hw hq
  obtain ⟨f, rfl, -, hx⟩ := exec_of_frame hw hq
  refine ⟨fun hb hm hu => ?_, fun hb => (hx s).trans (readFrame_idle hb)⟩
  rw [le16_bytes, src_bytes] at hm hu
  rw [hx, readFrame_anomaly hb (mt (isMatch_iff s f).1 hm) (mt (isUnsolicited_iff s f).1 hu), le16_bytes, src_bytes,
    ← warnNext_eq]
  rfl

end Sys2Proof.Machine

/-! ## Commands that change nothing more when repeated (spec/20_memory.md R85) -/

namespace Sys2Proof.Machine

/-! ### A run, and the same run right after it -/

/-- Run again right after itself, it changes nothing but the response history. -/
def Idempotent (run : State → Host.Outcome State Fault Refusal) : Prop :=
  ∀ s t u, run s = .next t → run t = .next u → { u with responses := t.responses } = t

/-- With the port free, a response is all that an answer changes (R31, R112). -/
theorem answered_keeps {t : State} (hp : t.port = none) (cmd : Byte) (e : ErrorCode) (d : BitVec 64) :
    { t.answered cmd e d with responses := t.responses } = t := by
  simp only [State.answered, ← hp]

/-- Away from the idle block every error of the common checks leaves a contract fault standing (R243, R246). -/
theorem checked_faults {cmd : Byte} {s t : State} {body : Host.Outcome State Fault Refusal} (h1 : cmd ≠ cmdReset)
    (h2 : cmd ≠ cmdRegRead) (h3 : cmd ≠ cmdAbort) (hi : ¬ s.Idle) (ht : checked cmd s body = .next t) :
    t.fault = true ∧ t.port = none := by
  by_cases hf : s.fault = true
  · rw [checked_faulted hf h1 h2] at ht
    cases ht
    exact ⟨hf, rfl⟩
  · have hf : s.fault = false := Bool.eq_false_of_not_eq_true hf
    have hb : s.busy = true := Bool.eq_true_of_not_eq_false fun hb => hi ⟨hf, hb⟩
    rw [checked_busy hf hb h1 h2 h3] at ht
    cases ht
    exact ⟨rfl, rfl⟩

/-! ### A body that refuses with a contract fault or acts -/

/-- On an idle block `body` ends with a contract error, or with `OK` and the effect `act`; and after an `OK` the block is
idle and the same body ends with `OK` and no effect. -/
def Repeats (cmd : Byte) (act : State → State) (body : State → Host.Outcome State Fault Refusal) : Prop :=
  ∀ s, s.Idle → (∃ e, e.isContract = true ∧ body s = failWith cmd s e) ∨
    ((act s).Idle ∧ (∃ d, body s = succeed cmd (act s) d) ∧
      ∀ d, ∃ d', body ((act s).finish cmd d) = succeed cmd ((act s).finish cmd d) d')

section
variable {cmd : Byte} {act : State → State} {body : State → Host.Outcome State Fault Refusal} {e : ErrorCode}

/-- An effect that an `OK` leaves with nothing to do. -/
theorem Repeats.of_ok {data : State → BitVec 64} (hidle : ∀ s, s.Idle → (act s).Idle)
    (hact : ∀ s d, act ((act s).finish cmd d) = (act s).finish cmd d) :
    Repeats cmd act fun s => succeed cmd (act s) (data s) :=
  fun s hi => .inr ⟨hidle s hi, ⟨_, rfl⟩, fun d => ⟨_, congrArg (succeed cmd · _) (hact s d)⟩⟩

/-- A refusal in front, whose condition the effect does not bring about. -/
theorem Repeats.refuse {bad : State → Prop} [DecidablePred bad] (he : e.isContract = true)
    (hbad : ∀ s d, bad ((act s).finish cmd d) → bad s) (h : Repeats cmd act body) :
    Repeats cmd act fun s => if bad s then failWith cmd s e else body s := by
  intro s hi
  by_cases hb : bad s
  · exact .inl ⟨e, he, if_pos hb⟩
  · rcases h s hi with ⟨e', he', hs⟩ | ⟨hidle, ⟨d, hs⟩, again⟩
    · exact .inl ⟨e', he', (if_neg hb).trans hs⟩
    · refine .inr ⟨hidle, ⟨d, (if_neg hb).trans hs⟩, fun d => ?_⟩
      obtain ⟨d', hd⟩ := again d
      exact ⟨d', (if_neg (mt (hbad s d) hb)).trans hd⟩

/-- After an error the fault stands and the repetition is answered `FAULTED`; after an `OK` the body repeats. -/
theorem Repeats.idempotent (h : Repeats cmd act body) (h1 : cmd ≠ cmdReset) (h2 : cmd ≠ cmdRegRead)
    (h3 : cmd ≠ cmdAbort) : Idempotent fun s => checked cmd s (body s) := by
  intro s t u ht hu
  have faulted (hf : t.fault = true) (hp : t.port = none) : { u with responses := t.responses } = t := by
    cases (checked_faulted hf h1 h2).symm.trans hu
    exact answered_keeps hp _ _ _
  by_cases hi : s.Idle
  · replace ht := (checked_idle hi cmd _).symm.trans ht
    rcases h s hi with ⟨e, he, hs⟩ | ⟨hidle, ⟨d, hs⟩, again⟩
    · cases hs.symm.trans ht
      exact faulted (by simp [he]) rfl
    · cases hs.symm.trans ht
      obtain ⟨d', hd⟩ := again d
      cases hd.symm.trans ((checked_idle (s := (act s).finish cmd d) hidle cmd _).symm.trans hu)
      exact answered_keeps (t := (act s).finish cmd d) rfl _ _ _
  · obtain ⟨hf, hp⟩ := checked_faults h1 h2 h3 hi ht
    exact faulted hf hp

end

/-! ### The twelve commands -/

theorem execNop_idempotent : Idempotent execNop :=
  Repeats.idempotent (act := fun s => s) (.of_ok (fun _ hi => hi) fun _ _ => rfl) (by decide) (by decide) (by decide)

/-- Both refusals read the operands and the parameters, and a slot written twice is written once (R212). -/
theorem execKaSet_idempotent (slot addr : Byte) : Idempotent (execKaSet slot addr) :=
  Repeats.idempotent (act := fun s => { s with slots := s.slots.set slot.toNat ⟨true, addr⟩ })
    (.refuse rfl (fun _ _ hb => hb) <| .refuse rfl (fun _ _ hb => hb) <|
      .of_ok (fun _ hi => hi) fun s _ => by simp [State.finish, State.respond, State.endCommand])
    (by decide) (by decide) (by decide)

theorem execKaClr_idempotent (slot : Byte) : Idempotent (execKaClr slot) :=
  Repeats.idempotent (act := fun s => { s with slots := s.slots.set slot.toNat ⟨false, 0x00⟩ })
    (.refuse rfl (fun _ _ hb => hb) <|
      .of_ok (fun _ hi => hi) fun s _ => by simp [State.finish, State.respond, State.endCommand])
    (by decide) (by decide) (by decide)

/-- The table is a parameter, so that the repetition finds the same entry (R161, R163). -/
theorem execLookup_idempotent (idx : BitVec 16) : Idempotent (execLookup idx) := by
  refine Repeats.idempotent (act := fun s => s) (fun s hi => ?_) (by decide) (by decide) (by decide)
  cases ho : lookupOpcode s.cfg idx.toNat with
  | none => exact .inl ⟨.unknownCommand, rfl, rfl⟩
  | some opc => exact .inr ⟨hi, ⟨_, rfl⟩, fun d => ⟨opc.setWidth 64, by simp [ho]⟩⟩

/-- The opcode is checked against a parameter (R131, R162). -/
theorem execEncodeHeader_idempotent (opc : Opcode) (p1 p2 dst : Byte) : Idempotent (execEncodeHeader opc p1 p2 dst) := by
  refine Repeats.idempotent (act := fun s => s) (fun s hi => ?_) (by decide) (by decide) (by decide)
  by_cases ho : s.cfg.opcodeValid opc = true
  · exact .inr ⟨hi, ⟨_, if_pos ho⟩, fun d => ⟨_, if_pos ho⟩⟩
  · exact .inl ⟨.invalidOpcode, rfl, if_neg ho⟩

theorem execTxbClear_idempotent : Idempotent execTxbClear :=
  Repeats.idempotent (act := fun s => { s with txLen := 0 }) (.of_ok (fun _ hi => hi) fun _ _ => rfl)
    (by decide) (by decide) (by decide)

theorem execRxbGet_idempotent (idx : BitVec 16) : Idempotent (execRxbGet idx) :=
  Repeats.idempotent (act := fun s => s)
    (.refuse rfl (fun _ _ hb => hb) <| .of_ok (fun _ hi => hi) fun _ _ => rfl) (by decide) (by decide) (by decide)

theorem execDecodeStatus_idempotent (off len : Byte) : Idempotent (execDecodeStatus off len) :=
  Repeats.idempotent (act := fun s => s)
    (.refuse rfl (fun _ _ hb => hb) <| .refuse rfl (fun _ _ hb => hb) <|
      .of_ok (fun _ hi => hi) fun _ _ => rfl)
    (by decide) (by decide) (by decide)

/-- Clearing the bits of a mask twice is clearing them once (R218). -/
theorem clearBits_twice (c : Bool) (ev mask : Byte) :
    (if c then (if c then ev &&& ~~~mask else ev) &&& ~~~mask else if c then ev &&& ~~~mask else ev) =
      if c then ev &&& ~~~mask else ev := by
  cases c
  · rfl
  · simp [BitVec.and_assoc]

theorem execEvClear_idempotent (sel : BitVec 2) (mask : Byte) : Idempotent (execEvClear sel mask) :=
  Repeats.idempotent
    (act := fun s =>
      { s with
        evDone := if sel.getLsbD 0 then s.evDone &&& ~~~mask else s.evDone
        evHomed := if sel.getLsbD 1 then s.evHomed &&& ~~~mask else s.evHomed })
    (.refuse rfl (fun _ _ hb => hb) <| .of_ok (fun _ hi => hi) fun s _ => by
      simp only [State.finish, State.respond, State.endCommand, clearBits_twice])
    (by decide) (by decide) (by decide)

theorem execWarnClear_idempotent : Idempotent execWarnClear :=
  Repeats.idempotent (act := fun s => { s with warnCount := 0, lastWarnOpcode := 0, lastWarnSrc := 0 })
    (.of_ok (fun _ hi => hi) fun _ _ => rfl) (by decide) (by decide) (by decide)

/-- Which registers are implemented depends on the parameters alone (R50, R64). -/
theorem regValue_isSome_of_cfg {s t : State} (hc : t.cfg = s.cfg) (n : Byte) :
    (t.regValue n).isSome = (s.regValue n).isSome := by
  simp only [State.regValue, apply_ite Option.isSome, Option.isSome_some, hc]

/-- REG_READ is exempt from the common checks, so that it ends the same way each time (R217, R246). -/
theorem execRegRead_idempotent (b : Byte) : Idempotent (execRegRead b) := by
  intro s t u ht hu
  cases hs : s.regValue b with
  | some v =>
    cases (exec_regRead_of_some hs).symm.trans ht
    cases (exec_regRead_of_some (s := s.answered 0x10 .ok (v.setWidth 64)) hs).symm.trans hu
    rfl
  | none =>
    cases (exec_regRead_of_none hs).symm.trans ht
    have hagain : (s.contractError 0x10 .illegalCommand).regValue b = none := by
      have hsome := regValue_isSome_of_cfg (s := s) (t := s.contractError 0x10 .illegalCommand) rfl b
      simpa [hs] using hsome
    cases (exec_regRead_of_none hagain).symm.trans hu
    rfl

/-- An illegal word leaves a contract fault standing (R115, R243). -/
theorem illegalWord_faults {cmd : Byte} {s t : State} (h : illegalWord cmd s = .next t) :
    t.fault = true ∧ t.port = none := by
  cases (illegalWord_eq cmd s).symm.trans h
  split
  · exact ⟨‹_›, rfl⟩
  · split <;> exact ⟨rfl, rfl⟩

theorem execReservedCmd_idempotent (code : Byte) (operands : BitVec 40) : Idempotent (execReservedCmd code operands) := by
  intro s t u ht hu
  obtain ⟨hf, hp⟩ := illegalWord_faults ht
  have hu := (illegalWord_eq code t).symm.trans hu
  rw [if_pos hf] at hu
  cases hu
  exact answered_keeps hp _ _ _

/-- Settles O59: the twelve commands one by one; the other eight are excluded by their codes, and a wire frame has
none. -/
theorem repeatedCommandChangesNothingMore : Obligations.RepeatedCommandChangesNothingMore := by
  intro i cmd s t u hc hn ht hu
  cases i with
  | nop => exact execNop_idempotent s t u ht hu
  | kaSet slot addr => exact execKaSet_idempotent slot addr s t u ht hu
  | kaClr slot => exact execKaClr_idempotent slot s t u ht hu
  | lookup idx => exact execLookup_idempotent idx s t u ht hu
  | encodeHeader opc p1 p2 dst => exact execEncodeHeader_idempotent opc p1 p2 dst s t u ht hu
  | txbClear => exact execTxbClear_idempotent s t u ht hu
  | rxbGet idx => exact execRxbGet_idempotent idx s t u ht hu
  | decodeStatus off len => exact execDecodeStatus_idempotent off len s t u ht hu
  | regRead b => exact execRegRead_idempotent b s t u ht hu
  | evClear sel mask => exact execEvClear_idempotent sel mask s t u ht hu
  | warnClear => exact execWarnClear_idempotent s t u ht hu
  | reservedCmd code operands => exact execReservedCmd_idempotent code operands s t u ht hu
  | reset | openLink | closeLink | txbPush | write | read | abort | decodeFrame =>
    cases hc
    exact absurd (by decide) hn
  | _ => cases hc

end Sys2Proof.Machine

/-! # The encoding family (spec/30_encoding.md): words, frames, and what each command answers

First the command words: the table of R114 as rows, and per operand format of R113 what the encoder and the decoder make
of each other. -/

namespace Sys2Proof

/-! ## Reserved bits as a mask -/

/-- The bits a format marks reserved (R113). -/
def reservedMask : Format → CmdWord
  | .n => 0x00FFFFFFFFFF
  | .h => 0x000000000000
  | .m => 0x00000000FEFF
  | .b => 0x00FFFFFFFF00
  | .s => 0x00FFFFFF0000
  | .s0 => 0x00FFFFFF00FF
  | .i => 0x00FFFFFF0000
  | .d => 0x00FFFFFF0000
  | .e => 0x00FFFFFFFC00

/-- A field is zero, bit by bit. -/
theorem extractLsb'_eq_zero_iff_bits {w : Nat} (x : BitVec w) (k n : Nat) :
    x.extractLsb' k n = 0 ↔ ∀ i < n, x.getLsbD (k + i) = false := by
  simp [BitVec.eq_of_getLsbD_eq_iff]

/-- A field is zero exactly when the word misses the field's mask. -/
theorem extractLsb'_eq_zero_iff {w : Nat} (x : BitVec w) (k n : Nat) :
    x.extractLsb' k n = 0 ↔ x &&& ((BitVec.allOnes n).setWidth w <<< k) = 0 := by
  rw [extractLsb'_eq_zero_iff_bits]
  constructor
  · intro h
    ext i hi
    by_cases hk : k ≤ i
    · have hb := h (i - k)
      rw [show k + (i - k) = i by omega, BitVec.getLsbD_eq_getElem hi] at hb
      by_cases hn : i - k < n <;> simp [hb, hn]
    · simp [hk]
  · intro h i hi
    by_cases hw : k + i < w
    · have hb := congrArg (fun y : BitVec w => y.getLsbD (k + i)) h
      simpa [hw, hi, Nat.lt_of_le_of_lt (Nat.le_add_left i k) hw] using hb
    · exact BitVec.getLsbD_of_ge x (k + i) (by omega)

/-- The decoder's test of the reserved bits, as one mask (R113, R115). -/
theorem reservedClear_iff (f : Format) (w : CmdWord) : reservedClear f w = true ↔ w &&& reservedMask f = 0 := by
  have both (k n k' n' : Nat) : (w.extractLsb' k n == 0 && w.extractLsb' k' n' == 0) = true ↔
      w &&& ((BitVec.allOnes n).setWidth 48 <<< k ||| (BitVec.allOnes n').setWidth 48 <<< k') = 0 := by
    rw [Bool.and_eq_true, beq_iff_eq, beq_iff_eq, extractLsb'_eq_zero_iff, extractLsb'_eq_zero_iff,
      BitVec.and_or_distrib_left]
    exact BitVec.or_eq_zero_iff.symm
  cases f with
  | n | b | s | i | d | e => exact beq_iff_eq.trans (extractLsb'_eq_zero_iff w _ _)
  | h => simp [reservedClear, reservedMask]
  | m | s0 => exact both _ _ _ _

/-! ## The table of command words -/

/-- The rows of R114: a code, its format, and the instruction it reads from a word. -/
inductive CommandRow : Byte → Format → (CmdWord → Instr) → Prop where
  | nop : CommandRow 0x00 .n fun _ => .nop
  | reset : CommandRow 0x01 .n fun _ => .reset
  | openLink : CommandRow 0x02 .b fun w => .openLink (fieldLow w)
  | closeLink : CommandRow 0x03 .n fun _ => .closeLink
  | kaSet : CommandRow 0x04 .s fun w => .kaSet (fieldMid w) (fieldLow w)
  | kaClr : CommandRow 0x05 .s0 fun w => .kaClr (fieldMid w)
  | lookup : CommandRow 0x06 .i fun w => .lookup (w.extractLsb' 0 16)
  | encodeHeader : CommandRow 0x07 .h fun w => .encodeHeader (fieldOpcode w) (fieldHigh w) (fieldMid w) (fieldLow w)
  | txbClear : CommandRow 0x08 .n fun _ => .txbClear
  | txbPush : CommandRow 0x09 .b fun w => .txbPush (fieldLow w)
  | write : CommandRow 0x0A .h fun w => .write (fieldOpcode w) (fieldHigh w) (fieldMid w) (fieldLow w)
  | read : CommandRow 0x0B .m fun w => .read (fieldOpcode w) (fieldHigh w) (w.getLsbD 8)
  | abort : CommandRow 0x0C .n fun _ => .abort
  | decodeFrame : CommandRow 0x0D .n fun _ => .decodeFrame
  | rxbGet : CommandRow 0x0E .i fun w => .rxbGet (w.extractLsb' 0 16)
  | decodeStatus : CommandRow 0x0F .d fun w => .decodeStatus (fieldMid w) (fieldLow w)
  | regRead : CommandRow 0x10 .b fun w => .regRead (fieldLow w)
  | evClear : CommandRow 0x11 .e fun w => .evClear (w.extractLsb' 8 2) (fieldLow w)
  | warnClear : CommandRow 0x12 .n fun _ => .warnClear

/-- A row has the format the decoder checks. -/
theorem CommandRow.formatOf {c : Byte} {f : Format} {read : CmdWord → Instr} (h : CommandRow c f read) :
    formatOf c = some f := by cases h <;> rfl

/-- A row reads the instruction the decoder reads. -/
theorem CommandRow.commandInstr {c : Byte} {f : Format} {read : CmdWord → Instr} (h : CommandRow c f read) {w : CmdWord}
    (hw : cmdOf w = c) : commandInstr w = read w := by
  cases h <;> simp only [Sys2Proof.commandInstr, hw] <;> rfl

/-- Every code below the reserved ones has its row (R114). -/
theorem commandRow_of_lt {c : Byte} (h : c.toNat < 0x13) : ∃ f read, CommandRow c f read := by
  have all (n : Fin 19) : ∃ f read, CommandRow (BitVec.ofNat 8 n) f read := by
    fin_cases n
    exacts [⟨_, _, .nop⟩, ⟨_, _, .reset⟩, ⟨_, _, .openLink⟩, ⟨_, _, .closeLink⟩, ⟨_, _, .kaSet⟩, ⟨_, _, .kaClr⟩,
      ⟨_, _, .lookup⟩, ⟨_, _, .encodeHeader⟩, ⟨_, _, .txbClear⟩, ⟨_, _, .txbPush⟩, ⟨_, _, .write⟩, ⟨_, _, .read⟩,
      ⟨_, _, .abort⟩, ⟨_, _, .decodeFrame⟩, ⟨_, _, .rxbGet⟩, ⟨_, _, .decodeStatus⟩, ⟨_, _, .regRead⟩,
      ⟨_, _, .evClear⟩, ⟨_, _, .warnClear⟩]
  simpa using all ⟨c.toNat, h⟩

/-! ## Operand formats, read back and rebuilt -/

section
variable {w : CmdWord}

/-- Two adjacent fields are one. -/
theorem extract_append {k l m n : Nat} (h : l = k + n) :
    w.extractLsb' l m ++ w.extractLsb' k n = w.extractLsb' k (m + n) :=
  BitVec.extractLsb'_append_extractLsb'_eq_extractLsb' h

/-- A word of format `B` with its reserved bits clear has the operands the encoder builds from its field (R113);
likewise for the formats below. -/
theorem formatB_rebuild (h : reservedClear .b w = true) : formatB (fieldLow w) = w.extractLsb' 0 40 := by
  simp only [reservedClear, beq_iff_eq] at h
  show (0 : BitVec 32) ++ w.extractLsb' 0 8 = _
  rw [← h, extract_append]
  rfl

theorem formatS_rebuild (h : w.extractLsb' 16 24 = 0) : formatS (fieldMid w) (fieldLow w) = w.extractLsb' 0 40 := by
  show (0 : BitVec 24) ++ w.extractLsb' 8 8 ++ w.extractLsb' 0 8 = _
  rw [← h, extract_append, extract_append] <;> rfl

theorem formatI_rebuild (h : reservedClear .i w = true) : formatI (w.extractLsb' 0 16) = w.extractLsb' 0 40 := by
  simp only [reservedClear, beq_iff_eq] at h
  show (0 : BitVec 24) ++ w.extractLsb' 0 16 = _
  rw [← h, extract_append]
  rfl

theorem formatH_rebuild : formatH (fieldOpcode w) (fieldHigh w) (fieldMid w) (fieldLow w) = w.extractLsb' 0 40 := by
  show w.extractLsb' 24 16 ++ w.extractLsb' 16 8 ++ w.extractLsb' 8 8 ++ w.extractLsb' 0 8 = _
  rw [extract_append, extract_append, extract_append] <;> rfl

theorem formatM_rebuild (h : reservedClear .m w = true) :
    formatM (fieldOpcode w) (fieldHigh w) (w.getLsbD 8) = w.extractLsb' 0 40 := by
  simp only [reservedClear, Bool.and_eq_true, beq_iff_eq] at h
  obtain ⟨h9, h0⟩ := h
  have h8 : BitVec.ofBool (w.getLsbD 8) = w.extractLsb' 8 1 := by
    ext i hi
    simp [show i = 0 by omega]
  show w.extractLsb' 24 16 ++ w.extractLsb' 16 8 ++ (0 : BitVec 7) ++ BitVec.ofBool (w.getLsbD 8) ++ (0 : BitVec 8) = _
  rw [← h9, ← h0, h8, extract_append, extract_append, extract_append, extract_append] <;> rfl

theorem formatE_rebuild (h : reservedClear .e w = true) :
    formatE (w.extractLsb' 8 2) (fieldLow w) = w.extractLsb' 0 40 := by
  simp only [reservedClear, beq_iff_eq] at h
  show (0 : BitVec 30) ++ w.extractLsb' 8 2 ++ w.extractLsb' 0 8 = _
  rw [← h, extract_append, extract_append] <;> rfl

end

/-- A word of a row with its reserved bits clear is what the encoder gives for its instruction (R113, R114). -/
theorem CommandRow.encode {c : Byte} {f : Format} {read : CmdWord → Instr} (h : CommandRow c f read) {w : CmdWord}
    (hw : cmdOf w = c) (hr : reservedClear f w = true) : (read w).WellFormed = true ∧ encode (read w) = .command w := by
  have whole {o : BitVec 40} (ho : o = w.extractLsb' 0 40) : Encoded.command (mkWord c o) = .command w := by
    rw [ho, ← hw, mkWord_self]
  cases h with
  | nop | reset | closeLink | txbClear | abort | decodeFrame | warnClear =>
    exact ⟨rfl, whole (beq_iff_eq.1 hr).symm⟩
  | openLink | txbPush | regRead => exact ⟨rfl, whole (formatB_rebuild hr)⟩
  | kaSet | decodeStatus => exact ⟨rfl, whole (formatS_rebuild (beq_iff_eq.1 hr))⟩
  | kaClr =>
    simp only [reservedClear, Bool.and_eq_true, beq_iff_eq] at hr
    obtain ⟨h16, h0⟩ := hr
    exact ⟨rfl, whole ((congrArg (formatS (fieldMid w)) h0.symm).trans (formatS_rebuild h16))⟩
  | lookup | rxbGet => exact ⟨rfl, whole (formatI_rebuild hr)⟩
  | encodeHeader | write => exact ⟨rfl, whole formatH_rebuild⟩
  | read => exact ⟨rfl, whole (formatM_rebuild hr)⟩
  | evClear => exact ⟨rfl, whole (formatE_rebuild hr)⟩

/-! ### The fields of an encoded word -/

section
variable {c : Byte}

/-- A field of an encoded word, bit by bit. -/
theorem field_eq_of_bits {o : BitVec 40} {k n : Nat} {v : BitVec n} (hk : k + n ≤ 40)
    (h : ∀ i < n, o.getLsbD (k + i) = v.getLsbD i) : (mkWord c o).extractLsb' k n = v := by
  rw [field_mkWord c o hk]
  apply BitVec.eq_of_getLsbD_eq
  intro i hi
  rw [BitVec.getLsbD_extractLsb', h i hi, decide_eq_true hi, Bool.true_and]

/-- The encoder clears the reserved bits of format `B`, and the decoder reads the field back (R113); likewise for the
formats below. -/
theorem fields_formatB (b : Byte) :
    reservedClear .b (mkWord c (formatB b)) = true ∧ fieldLow (mkWord c (formatB b)) = b := by
  refine ⟨beq_iff_eq.2 (field_eq_of_bits (by decide) fun i _ => ?_), field_eq_of_bits (by decide) fun i _ => ?_⟩
  · rw [formatB_getLsbD, BitVec.getLsbD_of_ge _ _ (by omega)]
    exact BitVec.getLsbD_zero.symm
  · rw [formatB_getLsbD, Nat.zero_add]

theorem fields_formatS (mid low : Byte) :
    (mkWord c (formatS mid low)).extractLsb' 16 24 = 0 ∧ fieldMid (mkWord c (formatS mid low)) = mid ∧
      fieldLow (mkWord c (formatS mid low)) = low := by
  refine ⟨field_eq_of_bits (by decide) fun i _ => ?_, field_eq_of_bits (by decide) fun i _ => ?_,
    field_eq_of_bits (by decide) fun i _ => ?_⟩ <;> rw [formatS_getLsbD]
  · rw [if_neg (by omega), BitVec.getLsbD_of_ge _ _ (by omega)]
    exact BitVec.getLsbD_zero.symm
  · rw [if_neg (by omega), Nat.add_sub_cancel_left]
  · rw [if_pos (by omega), Nat.zero_add]

theorem fields_formatI (idx : BitVec 16) :
    reservedClear .i (mkWord c (formatI idx)) = true ∧ (mkWord c (formatI idx)).extractLsb' 0 16 = idx := by
  refine ⟨beq_iff_eq.2 (field_eq_of_bits (by decide) fun i _ => ?_), field_eq_of_bits (by decide) fun i _ => ?_⟩
  · rw [formatI_getLsbD, BitVec.getLsbD_of_ge _ _ (by omega)]
    exact BitVec.getLsbD_zero.symm
  · rw [formatI_getLsbD, Nat.zero_add]

theorem fields_formatH (opc : Opcode) (p1 p2 dst : Byte) :
    fieldOpcode (mkWord c (formatH opc p1 p2 dst)) = opc ∧ fieldHigh (mkWord c (formatH opc p1 p2 dst)) = p1 ∧
    fieldMid (mkWord c (formatH opc p1 p2 dst)) = p2 ∧ fieldLow (mkWord c (formatH opc p1 p2 dst)) = dst := by
  refine ⟨field_eq_of_bits (by decide) fun i _ => ?_, field_eq_of_bits (by decide) fun i _ => ?_,
    field_eq_of_bits (by decide) fun i _ => ?_, field_eq_of_bits (by decide) fun i _ => ?_⟩ <;> rw [formatH_getLsbD]
  · rw [if_neg (by omega), if_neg (by omega), if_neg (by omega), Nat.add_sub_cancel_left]
  · rw [if_neg (by omega), if_neg (by omega), if_pos (by omega), Nat.add_sub_cancel_left]
  · rw [if_neg (by omega), if_pos (by omega), Nat.add_sub_cancel_left]
  · rw [if_pos (by omega), Nat.zero_add]

theorem fields_formatM (eopc : Opcode) (esrc : Byte) (any : Bool) :
    ((mkWord c (formatM eopc esrc any)).extractLsb' 9 7 = 0 ∧ (mkWord c (formatM eopc esrc any)).extractLsb' 0 8 = 0) ∧
    fieldOpcode (mkWord c (formatM eopc esrc any)) = eopc ∧ fieldHigh (mkWord c (formatM eopc esrc any)) = esrc ∧
    (mkWord c (formatM eopc esrc any)).getLsbD 8 = any := by
  refine ⟨⟨field_eq_of_bits (by decide) fun i _ => ?_, field_eq_of_bits (by decide) fun i _ => ?_⟩,
    field_eq_of_bits (by decide) fun i _ => ?_, field_eq_of_bits (by decide) fun i _ => ?_, ?_⟩
  · rw [formatM_getLsbD, if_pos (by omega), decide_eq_false (by omega)]
    exact BitVec.getLsbD_zero.symm
  · rw [formatM_getLsbD, if_pos (by omega), decide_eq_false (by omega)]
    exact BitVec.getLsbD_zero.symm
  · rw [formatM_getLsbD, if_neg (by omega), if_neg (by omega), Nat.add_sub_cancel_left]
  · rw [formatM_getLsbD, if_neg (by omega), if_pos (by omega), Nat.add_sub_cancel_left]
  · rw [mkWord_getLsbD, if_pos (by decide), formatM_getLsbD]
    rfl

theorem fields_formatE (sel : BitVec 2) (mask : Byte) :
    reservedClear .e (mkWord c (formatE sel mask)) = true ∧ (mkWord c (formatE sel mask)).extractLsb' 8 2 = sel ∧
      fieldLow (mkWord c (formatE sel mask)) = mask := by
  refine ⟨beq_iff_eq.2 (field_eq_of_bits (by decide) fun i _ => ?_), field_eq_of_bits (by decide) fun i _ => ?_,
    field_eq_of_bits (by decide) fun i _ => ?_⟩ <;> rw [formatE_getLsbD]
  · rw [if_neg (by omega), BitVec.getLsbD_of_ge _ _ (by omega)]
    exact BitVec.getLsbD_zero.symm
  · rw [if_neg (by omega), Nat.add_sub_cancel_left]
  · rw [if_pos (by omega), Nat.zero_add]

end

/-! ### Decoding an encoded word -/

section
variable {c : Byte} {f : Format}

/-- An encoded word whose reserved bits are clear decodes to what its row reads; below, for each format. -/
theorem CommandRow.decode {read : CmdWord → Instr} (h : CommandRow c f read) {o : BitVec 40}
    (hr : reservedClear f (mkWord c o) = true) : decodeCommand (mkWord c o) = .ok (read (mkWord c o)) := by
  have hf : Sys2Proof.formatOf (cmdOf (mkWord c o)) = some f := by rw [cmdOf_mkWord, h.formatOf]
  rw [decodeCommand_ok hf hr, h.commandInstr (cmdOf_mkWord c o)]

theorem CommandRow.decode_n {i : Instr} (h : CommandRow c .n fun _ => i) : decodeCommand (mkWord c 0#40) = .ok i :=
  h.decode (beq_iff_eq.2 (field_mkWord c 0#40 (by decide)))

theorem CommandRow.decode_b {g : Byte → Instr} (h : CommandRow c .b fun w => g (fieldLow w)) (b : Byte) :
    decodeCommand (mkWord c (formatB b)) = .ok (g b) := by
  obtain ⟨hr, hb⟩ := fields_formatB (c := c) b
  rw [h.decode hr, hb]

theorem CommandRow.decode_s {g : Byte → Byte → Instr} (h : CommandRow c f fun w => g (fieldMid w) (fieldLow w))
    (hf : f = .s ∨ f = .d) (mid low : Byte) : decodeCommand (mkWord c (formatS mid low)) = .ok (g mid low) := by
  obtain ⟨hr, hm, hl⟩ := fields_formatS (c := c) mid low
  rw [h.decode (by rcases hf with rfl | rfl <;> exact beq_iff_eq.2 hr), hm, hl]

theorem CommandRow.decode_s0 {g : Byte → Instr} (h : CommandRow c .s0 fun w => g (fieldMid w)) (mid : Byte) :
    decodeCommand (mkWord c (formatS mid 0x00)) = .ok (g mid) := by
  obtain ⟨hr, hm, hl⟩ := fields_formatS (c := c) mid 0x00
  rw [h.decode (Bool.and_eq_true_iff.2 ⟨beq_iff_eq.2 hr, beq_iff_eq.2 hl⟩), hm]

theorem CommandRow.decode_i {g : BitVec 16 → Instr} (h : CommandRow c .i fun w => g (w.extractLsb' 0 16))
    (idx : BitVec 16) : decodeCommand (mkWord c (formatI idx)) = .ok (g idx) := by
  obtain ⟨hr, hi⟩ := fields_formatI (c := c) idx
  rw [h.decode hr, hi]

theorem CommandRow.decode_h {g : Opcode → Byte → Byte → Byte → Instr}
    (h : CommandRow c .h fun w => g (fieldOpcode w) (fieldHigh w) (fieldMid w) (fieldLow w)) (opc : Opcode)
    (p1 p2 dst : Byte) : decodeCommand (mkWord c (formatH opc p1 p2 dst)) = .ok (g opc p1 p2 dst) := by
  obtain ⟨ho, h1, h2, hd⟩ := fields_formatH (c := c) opc p1 p2 dst
  rw [h.decode rfl, ho, h1, h2, hd]

theorem CommandRow.decode_m {g : Opcode → Byte → Bool → Instr}
    (h : CommandRow c .m fun w => g (fieldOpcode w) (fieldHigh w) (w.getLsbD 8)) (eopc : Opcode) (esrc : Byte)
    (any : Bool) : decodeCommand (mkWord c (formatM eopc esrc any)) = .ok (g eopc esrc any) := by
  obtain ⟨⟨h9, h0⟩, ho, hs, ha⟩ := fields_formatM (c := c) eopc esrc any
  rw [h.decode (Bool.and_eq_true_iff.2 ⟨beq_iff_eq.2 h9, beq_iff_eq.2 h0⟩), ho, hs, ha]

theorem CommandRow.decode_e {g : BitVec 2 → Byte → Instr}
    (h : CommandRow c .e fun w => g (w.extractLsb' 8 2) (fieldLow w)) (sel : BitVec 2) (mask : Byte) :
    decodeCommand (mkWord c (formatE sel mask)) = .ok (g sel mask) := by
  obtain ⟨hr, hs, hm⟩ := fields_formatE (c := c) sel mask
  rw [h.decode hr, hs, hm]

/-- A reserved code decodes, whatever its operand bits (R115; log 6). -/
theorem decodeCommand_reserved {w : CmdWord} (h : 0x13 ≤ (cmdOf w).toNat) :
    decodeCommand w = .ok (.reservedCmd (cmdOf w) (w.extractLsb' 0 40)) := by
  simp only [decodeCommand, formatOf_reserved h, commandInstr_reserved h]

/-- When the decoder rejects a word (R115; log 6). -/
theorem decodeCommand_error_iff (w : CmdWord) :
    (∃ e, decodeCommand w = .error e) ↔ ∃ f, formatOf (cmdOf w) = some f ∧ w &&& reservedMask f ≠ 0 := by
  cases hf : formatOf (cmdOf w) with
  | none => simp [decodeCommand, hf]
  | some f =>
    have hm := reservedClear_iff f w
    cases hr : reservedClear f w with
    | true => simp [decodeCommand, hf, hr, hm.1 hr]
    | false => simpa [decodeCommand, hf, hr] using hm

end

/-! ## Frames -/

/-- What the decoder takes from a byte sequence: the complete frame at its head (R105, R132). -/
theorem decodeFrame_ok_iff (q : List Byte) (i : Instr) (rest : List Byte) :
    decodeFrame q = .ok (i, rest) ↔ complete q = true ∧ frameInstr (frameOf q) = i ∧ q.drop (frameLen q) = rest := by
  cases hc : complete q with
  | false =>
    obtain ⟨e, he⟩ := Machine.decodeFrame_incomplete hc
    simp [he]
  | true =>
    have hr : hdrReady q = true := (Bool.and_eq_true_iff.1 hc).1
    simp [decodeFrame, hr, hc]

/-- The bytes of one frame decode to its instruction. -/
theorem decode_bytes {f : Frame} (h : payloadFits f.hdr.p1 f.hdr.dst f.pay = true) :
    decode (.frame f.bytes) = .ok (frameInstr f) := by
  obtain ⟨hc, hl, hf⟩ := frame_reads_back f [] h
  rw [List.append_nil] at hc hl hf
  have hd := (decodeFrame_ok_iff f.bytes _ _).2 ⟨hc, rfl, rfl⟩
  rw [hl, hf, List.drop_length] at hd
  simp only [decode, hd]

/-- A frame with no message ID's opcode is read by its form (R103). -/
theorem frameInstr_plain {f : Frame} (h : isMessageOpcode f.hdr.opcode = false) :
    frameInstr f = if f.hdr.hasPayload then .frameLong f.hdr.opcode f.hdr.p1 f.hdr.p2 f.hdr.dst f.hdr.src f.pay
      else .frameShort f.hdr.opcode f.hdr.p1 f.hdr.p2 f.hdr.dst f.hdr.src := by
  have hm : messageOf f.hdr.opcode = none := by simpa [isMessageOpcode_eq] using h
  simp only [frameInstr, hm]

/-- Settles O1: a command word by its row and format, a frame by its bytes read back. -/
theorem decodeOfEncode : Obligations.DecodeOfEncode := by
  intro i hw
  cases i with
  | nop => exact CommandRow.nop.decode_n
  | reset => exact CommandRow.reset.decode_n
  | openLink b => exact CommandRow.openLink.decode_b b
  | closeLink => exact CommandRow.closeLink.decode_n
  | kaSet slot addr => exact CommandRow.kaSet.decode_s (.inl rfl) slot addr
  | kaClr slot => exact CommandRow.kaClr.decode_s0 slot
  | lookup idx => exact CommandRow.lookup.decode_i idx
  | encodeHeader opc p1 p2 dst => exact CommandRow.encodeHeader.decode_h opc p1 p2 dst
  | txbClear => exact CommandRow.txbClear.decode_n
  | txbPush b => exact CommandRow.txbPush.decode_b b
  | write opc p1 p2 dst => exact CommandRow.write.decode_h opc p1 p2 dst
  | read eopc esrc any => exact CommandRow.read.decode_m eopc esrc any
  | abort => exact CommandRow.abort.decode_n
  | decodeFrame => exact CommandRow.decodeFrame.decode_n
  | rxbGet idx => exact CommandRow.rxbGet.decode_i idx
  | decodeStatus off len => exact CommandRow.decodeStatus.decode_s (.inr rfl) off len
  | regRead b => exact CommandRow.regRead.decode_b b
  | evClear sel mask => exact CommandRow.evClear.decode_e sel mask
  | warnClear => exact CommandRow.warnClear.decode_n
  | reservedCmd code operands =>
    have hc := cmdOf_mkWord code operands
    have hd := decodeCommand_reserved (w := mkWord code operands) (by simpa [hc, Instr.WellFormed] using hw)
    rwa [hc, field_mkWord code operands (by decide), BitVec.extractLsb'_eq_self] at hd
  | frameShort opc p1 p2 dst src =>
    simp only [Instr.WellFormed, payloadBit_eq, Bool.and_eq_true, Bool.not_eq_true'] at hw
    obtain ⟨hd, ho⟩ := hw
    have hp : payloadFits p1 dst [] = true := by simp only [payloadFits, payloadBit_eq, hd]; rfl
    refine (decode_bytes (f := ⟨mkHeader opc p1 p2 dst src, []⟩) hp).trans ?_
    rw [frameInstr_plain (by simpa using ho), mkHeader_hasPayload, mkHeader_opcode, hd]
    rfl
  | frameLong opc p1 p2 dst src pay =>
    simp only [Instr.WellFormed, payloadBit_eq, Bool.and_eq_true, Bool.not_eq_true'] at hw
    obtain ⟨⟨hd, ho⟩, hp⟩ := hw
    refine (decode_bytes (f := ⟨mkHeader opc p1 p2 dst src, pay⟩) hp).trans ?_
    rw [frameInstr_plain (by simpa using ho), mkHeader_hasPayload, mkHeader_opcode, hd]
    rfl
  | moveAbsolute | moveHome | moveCompleted | getStatus | setVelParams | reqStatus | ackStatus | moveHomed
  | reqEncCounter | getEncCounter | reqVelParams | getVelParams | setChanEnable | reqChanEnable | getChanEnable =>
    refine (decode_bytes (f := messageFrame _ _ _ _ _ _) hw).trans ?_
    simp only [frameInstr, messageFrame, mkHeader_opcode, messageOf_opcode]
    rfl

/-- Settles O2: a code of the table by its row, a reserved code by the word taken apart. -/
theorem commandWordHasOneMeaning : Obligations.CommandWordHasOneMeaning := by
  intro w i hd
  rcases Nat.lt_or_ge (cmdOf w).toNat 0x13 with hc | hc
  · obtain ⟨f, read, h⟩ := commandRow_of_lt hc
    obtain ⟨rfl, -⟩ := Machine.commandCode_of_decode hd
    rw [h.commandInstr rfl]
    exact h.encode rfl (Machine.reservedClear_of_decode hd h.formatOf)
  · rw [decodeCommand_reserved hc] at hd
    cases hd
    exact ⟨decide_eq_true hc, congrArg _ (mkWord_self w)⟩

/-- Settles O3: the sequence is its first frame's bytes and the rest, and the frame's instruction encodes to them. -/
theorem frameBytesHaveOneMeaning : Obligations.FrameBytesHaveOneMeaning := by
  intro q i rest hd
  obtain ⟨hc, rfl, rfl⟩ := (decodeFrame_ok_iff q i rest).1 hd
  obtain ⟨hsplit, hfits⟩ := complete_split hc
  obtain ⟨hw, he⟩ := Machine.frameInstr_encodes hfits
  exact ⟨hw, _, he, hsplit.symm⟩

/-- Settles O4: the tail is not read, and what decodes is what is complete. -/
theorem frameLengthFromFirstSixBytes : Obligations.FrameLengthFromFirstSixBytes := by
  refine ⟨fun h tail hl => ?_, fun q => ?_⟩
  · rw [frameLen, List.getD_append _ _ _ _ (by omega), List.getD_append _ _ _ _ (by omega)]
    rfl
  · rw [← Machine.complete_iff]
    constructor
    · rintro ⟨i, rest, hd⟩
      exact ((decodeFrame_ok_iff q i rest).1 hd).1
    · exact fun hc => ⟨_, _, (decodeFrame_ok_iff q _ _).2 ⟨hc, rfl, rfl⟩⟩

/-- R113's reserved bits of every code of the table, written out. -/
def reservedTable : List (Byte × CmdWord) :=
  [(0x00, 0x00FFFFFFFFFF), (0x01, 0x00FFFFFFFFFF), (0x02, 0x00FFFFFFFF00), (0x03, 0x00FFFFFFFFFF),
   (0x04, 0x00FFFFFF0000), (0x05, 0x00FFFFFF00FF), (0x06, 0x00FFFFFF0000), (0x07, 0x000000000000),
   (0x08, 0x00FFFFFFFFFF), (0x09, 0x00FFFFFFFF00), (0x0A, 0x000000000000), (0x0B, 0x00000000FEFF),
   (0x0C, 0x00FFFFFFFFFF), (0x0D, 0x00FFFFFFFFFF), (0x0E, 0x00FFFFFF0000), (0x0F, 0x00FFFFFF0000),
   (0x10, 0x00FFFFFFFF00), (0x11, 0x00FFFFFFFC00), (0x12, 0x00FFFFFFFFFF)]

/-- A code has a format exactly when it has an entry, which is the format's mask (R113, R114). -/
theorem mem_reservedTable (c : Byte) (m : CmdWord) :
    (c, m) ∈ reservedTable ↔ ∃ f, formatOf c = some f ∧ m = reservedMask f := by
  constructor
  · intro h
    have all : ∀ r ∈ reservedTable, (formatOf r.1).map reservedMask = some r.2 := List.all_iff_forall_prop.1 rfl
    simpa [eq_comm] using all _ h
  · rintro ⟨f, hf, rfl⟩
    have hc : c.toNat < 0x13 := by
      by_contra hc
      rw [formatOf_reserved (by omega)] at hf
      cases hf
    obtain ⟨g, read, h⟩ := commandRow_of_lt hc
    cases hf.symm.trans h.formatOf
    cases h <;> decide

/-- Settles O5: the decoder rejects by the mask of the code's format, and the table lists these masks. -/
theorem reservedBitsAreRejected : Obligations.ReservedBitsAreRejected := by
  intro w
  refine ⟨?_, decodeCommand_reserved⟩
  rw [decodeCommand_error_iff]
  show _ ↔ ∃ r ∈ reservedTable, cmdOf w = r.1 ∧ w &&& r.2 ≠ 0
  constructor
  · rintro ⟨f, hf, hm⟩
    exact ⟨_, (mem_reservedTable _ _).2 ⟨f, hf, rfl⟩, rfl, hm⟩
  · rintro ⟨⟨c, m⟩, hr, rfl, hm⟩
    obtain ⟨f, hf, rfl⟩ := (mem_reservedTable _ _).1 hr
    exact ⟨f, hf, hm⟩

/-- Settles O6: the decoder evaluates each word. -/
theorem sampleWordsDecode : Obligations.SampleWordsDecode := ⟨rfl, rfl, rfl, rfl, rfl, rfl⟩

end Sys2Proof

/-! ## Responses and the commands they answer (spec/30_encoding.md R110, R112) -/

namespace Sys2Proof.Machine

section
variable {s t : State} {i : Instr} {c : Byte}

/-- The responses from `s` to `t` answer commands of `s`, one each, and hold no data beside an error (R112). -/
def AnswersDue (s t : State) : Prop :=
  ∃ added, t.responses = s.responses ++ added ∧ added.length + t.unanswered = s.unanswered ∧
    ∀ r ∈ added, r.err ≠ .ok → r.data = 0

/-- No response, and as many commands due as before. -/
theorem AnswersDue.of_none (hr : t.responses = s.responses) (hu : t.unanswered = s.unanswered) : AnswersDue s t :=
  ⟨[], by rw [hr, List.append_nil], by rw [hu]; exact Nat.zero_add _, by simp⟩

/-- One response, for one command that was due. -/
theorem AnswersDue.of_one {r : Response} (hr : t.responses = s.responses ++ [r]) (hd : r.err ≠ .ok → r.data = 0)
    (hu : 1 + t.unanswered = s.unanswered) : AnswersDue s t :=
  ⟨[r], hr, hu, by simpa using hd⟩

/-- The command on the port is answered and ends (R31). -/
theorem unanswered_of_ended (hp : s.port.isSome = true) (ht : t.port = none) (hb : t.busy = s.busy) :
    1 + t.unanswered = s.unanswered := by
  simp [State.unanswered, hp, ht, hb, Nat.add_comm]

theorem EndsWithError.answersDue (h : EndsWithError c s t) (hp : s.port.isSome = true) : AnswersDue s t := by
  obtain ⟨e, -, rfl⟩ := h
  exact .of_one (raise_responses s c e) (fun _ => rfl) (unanswered_of_ended hp rfl rfl)

/-- A command answers itself; RESET and ABORT answer a pending READ before, a READ is accepted and pends, and a WRITE
may hold (R184, R190, R195, R220). -/
theorem Effect.answersDue (h : Effect s i t) (hc : commandCode i = some c) (hp : s.port.isSome = true) :
    AnswersDue s t := by
  cases h with
  | error _ he => exact he.answersDue hp
  | frame hn => rw [hn] at hc; cases hc
  | hold => exact .of_none rfl rfl
  | read _ _ _ hb => exact .of_none rfl (by simp [State.unanswered, hb, hp])
  | reset =>
    cases hb : s.busy with
    | false =>
      exact .of_one (r := ⟨cmdReset, .ok, 0⟩) (by simp [State.dropRead, hb]) (fun hn => absurd rfl hn)
        (unanswered_of_ended hp rfl hb.symm)
    | true =>
      exact ⟨[⟨cmdRead, .aborted, 0⟩, ⟨cmdReset, .ok, 0⟩], by simp [State.dropRead, hb],
        by simp [State.unanswered, hb, hp], by simp⟩
  | abort _ hb =>
    exact ⟨[⟨cmdRead, s.abortError, 0⟩, ⟨cmdAbort, .ok, 0⟩], by simp, by simp [State.unanswered, hb, hp], by simp⟩
  | _ => exact .of_one (finish_responses _ _ _) (fun hn => absurd rfl hn) (unanswered_of_ended hp rfl rfl)

/-- A frame answers the pending READ or nothing (R192, R248). -/
theorem TakesFrame.answersDue {f : Frame} (h : TakesFrame s f t) (hb : s.busy = true) : AnswersDue s t := by
  cases h with
  | matched =>
    exact .of_one (frameMatch_responses _ f) (fun hn => absurd rfl hn) (by simp [State.unanswered, hb])
  | unsolicited | anomaly => exact .of_none rfl rfl

@[simp] theorem tick_unanswered (s : State) : s.tick.unanswered = s.unanswered := by simp [State.unanswered]

/-- Every step answers commands due, but for a word issued on a free port, and the reset input, which abandons commands
(R110, R271). -/
theorem StepEnd.answersDue (h : StepEnd s t) (hreset : s.nextEvent ≠ .resetInput)
    (hissue : ¬ ((∃ w, s.nextEvent = .hostIssue w) ∧ s.port = none)) : AnswersDue s t := by
  have hu {v : State} (hv : AnswersDue s.tick v) : AnswersDue s v := by
    simpa only [AnswersDue, tick_responses, tick_unanswered] using hv
  cases h with
  | still | received | sent => exact hu (.of_none rfl rfl)
  | issued he hp => exact absurd ⟨⟨_, he⟩, hp⟩ hissue
  | illegal _ hp hx => exact hu (hx.answersDue (by simp [hp]))
  | executed _ hp hd hx => exact hu (hx.answersDue (commandCode_of_decode hd).2 (by simp [hp]))
  | frame _ hb _ hx => exact hu (hx.answersDue (by simpa using hb))
  | resetInput he => exact absurd he hreset

/-! ### The two moves that respond to nothing -/

theorem hostIssue_free (hp : s.port = none) (w : CmdWord) : s.hostIssue w = { s with port := some w } := by
  simp [State.hostIssue, hp]

theorem hostIssue_taken {v : CmdWord} (hp : s.port = some v) (w : CmdWord) : s.hostIssue w = s := by
  simp [State.hostIssue, hp]

/-- A word issued on a free port stands on it (R110). -/
theorem step_hostIssue_free {w : CmdWord} (h : step s = .next t) (he : s.nextEvent = .hostIssue w)
    (hp : s.port = none) : t = { s.tick with port := some w } := by
  obtain ⟨-, h⟩ := step_next h
  rw [he] at h
  cases h
  exact hostIssue_free (by simpa using hp) w

/-- The reset input abandons commands with no response (R271). -/
theorem step_resetInput (h : step s = .next t) (he : s.nextEvent = .resetInput) : t.responses = s.responses := by
  obtain ⟨-, h⟩ := step_next h
  rw [he] at h
  cases h
  simp

end

/-! ### The statements -/

/-- Settles O22: a word issued on a free port is one command more to answer; every other step answers commands due. -/
theorem oneResponsePerCommand : Obligations.OneResponsePerCommand := by
  intro s t h hreset
  by_cases hissue : (∃ w, s.nextEvent = .hostIssue w) ∧ s.port = none
  · rw [if_pos hissue]
    obtain ⟨⟨w, he⟩, hp⟩ := hissue
    rw [step_hostIssue_free h he hp]
    simp only [State.unanswered, tick_responses, tick_busy, hp]
    rfl
  · obtain ⟨added, hr, hu, -⟩ := (stepEnd_of_step h).answersDue hreset hissue
    rw [if_neg hissue, hr, List.length_append]
    omega

/-- Settles O23: responses that answer commands due hold no data beside an error, and other steps give none. -/
theorem errorResponsesHoldNoData : Obligations.ErrorResponsesHoldNoData := by
  intro s t h hs
  by_cases hreset : s.nextEvent = .resetInput
  · rwa [step_resetInput h hreset]
  by_cases hissue : (∃ w, s.nextEvent = .hostIssue w) ∧ s.port = none
  · obtain ⟨⟨w, he⟩, hp⟩ := hissue
    simpa [step_hostIssue_free h he hp] using hs
  · obtain ⟨added, hr, -, hd⟩ := (stepEnd_of_step h).answersDue hreset hissue
    rw [hr]
    exact List.forall_mem_append.2 ⟨hs, hd⟩

/-- Settles O12: the port is free and takes the word, or it is taken and keeps its own. -/
theorem hostFillsAFreePort : Obligations.HostFillsAFreePort := by
  intro s w later hv hs
  refine ⟨fun hp => ?_, fun v hp => ?_⟩
  · exact (step_scheduled hv hs).trans <|
      congrArg Host.Outcome.next (hostIssue_free (s := { s with schedule := later }) hp w)
  · exact (step_scheduled hv hs).trans <|
      congrArg Host.Outcome.next (hostIssue_taken (s := { s with schedule := later }) hp w)

/-- Settles O8: the core's turn on a word that does not decode is the illegal word's, with its three errors in order. -/
theorem stepRaisesIllegalWord : Obligations.StepRaisesIllegalWord := by
  intro s w later e hv hs hp hd
  exact ((step_scheduled hv hs).trans (coreCommand_illegal hp hd)).trans (illegalWord_eq _ _)

/-- Settles O57: a reserved code is the illegal word's meaning, whatever its operand bits. -/
theorem reservedCodeIsIllegal : Obligations.ReservedCodeIsIllegal := by
  intro code operands
  have hx (s : State) := illegalWord_eq code s
  refine ⟨fun s ⟨hf, hb⟩ => (hx s).trans ?_, fun s => ⟨fun hf => (hx s).trans ?_, fun hf hb => (hx s).trans ?_⟩⟩
  · rw [hf, hb]
    rfl
  · rw [if_pos hf]
  · rw [hf, hb]
    rfl

end Sys2Proof.Machine

/-! ## What the commands that build, read and take encodings answer -/

namespace Sys2Proof.Machine

section
variable {s : State}

/-! ### RXB_GET, LOOKUP and ENCODE_HEADER -/

/-- RXB_GET on an idle block (R216). -/
theorem exec_rxbGet_idle (hi : s.Idle) (idx : BitVec 16) :
    exec (.rxbGet idx) s = .next (
      if s.resValid = false ∨ s.resLen.toNat ≤ idx.toNat then s.contractError 0x0E .badIndex
      else s.answered 0x0E .ok ((s.resByte idx.toNat).setWidth 64)) := by
  refine (checked_idle hi cmdRxbGet _).trans ?_
  simp only [Bool.or_eq_true, Bool.not_eq_true', decide_eq_true_eq]
  split
  · exact congrArg _ (raise_contract s _ rfl)
  · rfl

/-- A byte that was written reads as written (R39; log 9). -/
theorem resByte_of_read {i : Nat} {v : Byte} (h : Memory.read s.resPay i = some v) : s.resByte i = v := by
  simp [State.resByte, readByte, h]

/-- LOOKUP of an index inside the table answers its opcode (R161). -/
theorem exec_lookup_of_some (hi : s.Idle) {idx : BitVec 16} {opc : Opcode}
    (h : lookupOpcode s.cfg idx.toNat = some opc) :
    exec (.lookup idx) s = .next (s.answered 0x06 .ok (opc.setWidth 64)) := by
  refine (checked_idle hi cmdLookup _).trans ?_
  rw [h]
  rfl

/-- LOOKUP of an index beyond the table is a contract fault (R161). -/
theorem exec_lookup_of_none (hi : s.Idle) {idx : BitVec 16} (h : lookupOpcode s.cfg idx.toNat = none) :
    exec (.lookup idx) s = .next (s.contractError 0x06 .unknownCommand) := by
  refine (checked_idle hi cmdLookup _).trans ?_
  rw [h]
  exact congrArg _ (raise_contract s _ rfl)

/-- The opcodes of the table (R162). -/
theorem opcodeValid_iff (c : Config) (opc : Opcode) : c.opcodeValid opc = true ↔ ∃ e ∈ c.cmdTable, e.opcode = opc := by
  simp [Config.opcodeValid, Config.opcodes]

/-- ENCODE_HEADER on an idle block (R131). -/
theorem exec_encodeHeader_idle (hi : s.Idle) (opc : Opcode) (p1 p2 dst : Byte) :
    exec (.encodeHeader opc p1 p2 dst) s = .next (
      if ∃ e ∈ s.cfg.cmdTable, e.opcode = opc then
        s.answered 0x07 .ok (headerLe48 (mkHeader opc p1 p2 dst s.hostAddr))
      else s.contractError 0x07 .invalidOpcode) := by
  refine (checked_idle hi cmdEncodeHeader _).trans ?_
  simp only [opcodeValid_iff]
  split
  · rfl
  · exact congrArg _ (raise_contract s _ rfl)

/-- The fields of `DATA` of ENCODE_HEADER (R116). -/
theorem headerLe48_fields (h : Header) :
    (headerLe48 h).extractLsb' 0 8 = h.opcLo ∧ (headerLe48 h).extractLsb' 8 8 = h.opcHi ∧
    (headerLe48 h).extractLsb' 16 8 = h.p1 ∧ (headerLe48 h).extractLsb' 24 8 = h.p2 ∧
    (headerLe48 h).extractLsb' 32 8 = h.dst ∧ (headerLe48 h).extractLsb' 40 8 = h.src ∧
    (headerLe48 h).extractLsb' 48 16 = 0 := by
  refine ⟨?_, ?_, ?_, ?_, ?_, ?_, ?_⟩ <;> apply BitVec.eq_of_toNat_eq <;>
    simp only [headerLe48, headerNat, BitVec.extractLsb'_toNat, BitVec.toNat_ofNat, Nat.shiftRight_eq_div_pow,
      BitVec.ofNat_eq_ofNat] <;> omega

/-! ### DECODE_STATUS -/

/-- DECODE_STATUS on an idle block (R141). -/
theorem exec_decodeStatus_idle (hi : s.Idle) (off len : Byte) :
    exec (.decodeStatus off len) s = .next (
      if len ≠ 4 ∨ s.resValid = false ∨ s.resLen.toNat < off.toNat + 4 then s.contractError 0x0F .malformedPacket
      else s.answered 0x0F .ok (statusData s.cfg.statusBits (s.statusWord off.toNat))) := by
  have hlen : len.toNat ≠ statusLen ↔ len ≠ 4 := not_congr (BitVec.toNat_inj (y := 4))
  have hheld : (!s.resValid || decide (s.resLen.toNat < off.toNat + statusLen)) = true ↔
      s.resValid = false ∨ s.resLen.toNat < off.toNat + 4 := by
    rw [Bool.or_eq_true, Bool.not_eq_true', decide_eq_true_eq]
    rfl
  refine (checked_idle hi cmdDecodeStatus _).trans ?_
  by_cases h4 : len ≠ 4
  · rw [if_pos (hlen.2 h4), if_pos (.inl h4)]
    exact congrArg _ (raise_contract s _ rfl)
  rw [if_neg (mt hlen.1 h4)]
  by_cases hr : s.resValid = false ∨ s.resLen.toNat < off.toNat + 4
  · rw [if_pos (hheld.2 hr), if_pos (.inr hr)]
    exact congrArg _ (raise_contract s _ rfl)
  · rw [if_neg (mt hheld.1 hr), if_neg (not_or.2 ⟨h4, hr⟩)]
    rfl

/-- A list of bits as a number, bit by bit. -/
theorem testBit_bitsToNat (l : List Bool) (i : Nat) : (bitsToNat l).testBit i = l.getD i false := by
  induction l generalizing i with
  | nil => simp [bitsToNat]
  | cons b l ih =>
    cases i with
    | zero => cases b <;> simp [bitsToNat]
    | succ i =>
      have hb := Bool.toNat_le b
      rw [bitsToNat, Nat.testBit_succ, show (b.toNat + 2 * bitsToNat l) / 2 = bitsToNat l by omega, ih]
      rfl

/-- Flag `i` is the bit of the word at position `i` of `STATUS_BITS` (R140, R143). -/
theorem getLsbD_pack (b : StatusBits) (w : BitVec 32) {j : Nat} (hj : j < 13) :
    (axisStatus b w).pack.getLsbD j = w.getLsbD (b.positions.getD j 0) := by
  have hl : (axisStatus b w).toList = b.positions.map w.getLsbD := rfl
  have hlen : j < b.positions.length := hj
  rw [AxisStatus.pack, BitVec.getLsbD_ofNat, testBit_bitsToNat, hl, decide_eq_true hj, Bool.true_and]
  simp [List.getD_eq_getElem?_getD, hlen]

/-- The fields of `DATA` of DECODE_STATUS (R116). -/
theorem statusData_fields (b : StatusBits) (w : BitVec 32) :
    (statusData b w).extractLsb' 0 13 = (axisStatus b w).pack ∧ (statusData b w).extractLsb' 13 19 = 0 ∧
    (statusData b w).extractLsb' 32 32 = w := by
  refine ⟨?_, ?_, ?_⟩ <;> apply BitVec.eq_of_toNat_eq <;>
    simp only [statusData, BitVec.extractLsb'_toNat, BitVec.toNat_ofNat, Nat.shiftRight_eq_div_pow,
      BitVec.ofNat_eq_ofNat] <;> omega

/-- The bytes of a little-endian word (R10). -/
theorem le32_fields (b0 b1 b2 b3 : Byte) :
    (le32 b0 b1 b2 b3).extractLsb' 0 8 = b0 ∧ (le32 b0 b1 b2 b3).extractLsb' 8 8 = b1 ∧
    (le32 b0 b1 b2 b3).extractLsb' 16 8 = b2 ∧ (le32 b0 b1 b2 b3).extractLsb' 24 8 = b3 := by
  refine ⟨?_, ?_, ?_, ?_⟩ <;> apply BitVec.eq_of_toNat_eq <;>
    simp only [le32, BitVec.extractLsb'_toNat, BitVec.toNat_ofNat, Nat.shiftRight_eq_div_pow] <;> omega

/-- A field of a field. -/
theorem extract_extract {w : Nat} (x : BitVec w) {k l m n : Nat} (h : l + m ≤ n) :
    (x.extractLsb' k n).extractLsb' l m = x.extractLsb' (k + l) m := by
  apply BitVec.eq_of_getLsbD_eq
  intro i hi
  simp [hi, Nat.add_assoc, show l + i < n by omega]

/-! ### Frames taken into the result registers: DECODE_FRAME and the matching frame of a READ -/

/-- The result registers after a frame, read off its bytes (R134). -/
theorem loadResult_bytes {f : Frame} (h : payloadFits f.hdr.p1 f.hdr.dst f.pay = true) :
    s.loadResult f =
      { s with
        resHdr := headerOf f.bytes
        resHasPayload := (f.bytes.getD 4 0).getLsbD 7
        resLen := BitVec.ofNat 8 (f.bytes.length - 6)
        resPay := Memory.writeAll s.resPay 0 (f.pay.take f.hdr.payLen.toNat)
        resValid := true } := by
  have hl : BitVec.ofNat 8 (f.bytes.length - 6) = f.hdr.payLen := by
    rw [bytes_length, Nat.add_sub_cancel_left, ← payLen_eq h, BitVec.ofNat_toNat, BitVec.setWidth_eq]
  rw [hl]
  rfl

/-- What `res_pay` and `DATA` read after a frame, byte by byte of the frame (R116, R134). -/
theorem loaded_reads {f : Frame} (mem : Memory) (h : payloadFits f.hdr.p1 f.hdr.dst f.pay = true) :
    (∀ j, Memory.read (Memory.writeAll mem 0 (f.pay.take f.hdr.payLen.toNat)) j =
      if j < f.bytes.length - 6 then f.bytes[6 + j]? else Memory.read mem j) ∧
    (∀ j, j < 6 → f.bytes[j]? = some ((frameData f.hdr).extractLsb' (8 * j) 8)) ∧
    ((frameData f.hdr).extractLsb' 48 8).toNat = f.bytes.length - 6 ∧
    (frameData f.hdr).extractLsb' 56 1 = BitVec.ofBool ((f.bytes.getD 4 0).getLsbD 7) ∧
    (frameData f.hdr).extractLsb' 57 7 = 0 := by
  obtain ⟨h0, h1, h2, h3, h4, h5, hlen, hpay, hzero⟩ := frameData_fields f.hdr
  have hl : f.bytes.length - 6 = f.pay.length := by rw [bytes_length, Nat.add_sub_cancel_left]
  refine ⟨fun j => ?_, fun j hj => ?_, ?_, hpay, hzero⟩
  · rw [read_loaded mem h, hl, Frame.bytes, List.getElem?_append_right (Nat.le_add_right 6 j)]
    simp [Header.bytes]
  · interval_cases j
    exacts [congrArg some h0.symm, congrArg some h1.symm, congrArg some h2.symm, congrArg some h3.symm,
      congrArg some h4.symm, congrArg some h5.symm]
  · rw [hlen, payLen_eq h, hl]

/-- DECODE_FRAME on an idle, open, unpoisoned block with a complete frame at the head of the FIFO (R133). -/
theorem exec_decodeFrame_complete (hi : s.Idle) (hl : s.linkOpen = true) (hp : s.poisoned = false)
    (hc : complete s.rxFifo = true) :
    exec .decodeFrame s = .next (State.answered
      ((s.popFrame (frameOf s.rxFifo)).loadResult (frameOf s.rxFifo)) 0x0D .ok (frameData (frameOf s.rxFifo).hdr)) := by
  have hr : hdrReady s.rxFifo = true := (Bool.and_eq_true_iff.1 hc).1
  refine (checked_idle hi cmdDecodeFrame _).trans ?_
  simp only [hl, hp, hr, hc]
  rfl

/-- A matching frame ends the READ (R192). -/
theorem readFrame_match {f : Frame} (hb : s.busy = true) (hm : s.isMatch f = true) :
    readFrame f s = .next ((s.popFrame f).frameMatch f) := by
  rw [readFrame, if_pos hb, if_pos hm]

/-! ### WRITE -/

/-- The keep-alive packets a WRITE issued now would send first (R180, R181). -/
def State.duePackets (s : State) : List Frame := if s.burstDue then s.burstPackets else []

/-- A burst is due beyond the threshold, one packet for each valid slot (R180, R181). -/
theorem duePackets_eq (s : State) :
    s.duePackets = if s.cfg.kaThresh < s.kaCount.toNat then
      ((s.slots.take s.cfg.nKa).filter KaSlot.valid).map fun k => keepAlivePacket s.cfg s.hostAddr k.addr
    else [] := by
  simp only [State.duePackets, State.burstDue, decide_eq_true_eq]
  rfl

/-- The bytes a WRITE sends first are those of its due packets. -/
theorem dueBurst_eq (s : State) : s.dueBurst = s.duePackets.flatMap Frame.bytes := by
  unfold State.dueBurst State.duePackets State.kaBurst
  split <;> rfl

/-- Every due packet is addressed to a slot (R182). -/
theorem mem_duePackets {f : Frame} (hf : f ∈ s.duePackets) :
    ∃ k ∈ s.slots, f = keepAlivePacket s.cfg s.hostAddr k.addr := by
  rw [duePackets_eq] at hf
  split at hf
  · obtain ⟨k, hk, rfl⟩ := List.mem_map.1 hf
    exact ⟨k, List.mem_of_mem_take (List.mem_of_mem_filter hk), rfl⟩
  · cases hf

/-- Each packet is six bytes (R182). -/
theorem dueBurst_length (s : State) : s.dueBurst.length = 6 * s.duePackets.length := by
  have six : ∀ f ∈ s.duePackets, f.bytes.length = 6 := fun f hf => by
    obtain ⟨k, -, rfl⟩ := mem_duePackets hf
    rfl
  rw [dueBurst_eq, List.length_flatMap, List.map_congr_left six]
  simp [Nat.mul_comm]

theorem duePackets_length_le (s : State) : s.duePackets.length ≤ s.cfg.nKa := by
  rw [duePackets_eq]
  split
  · rw [List.length_map]
    exact (List.length_filter_le _ _).trans (List.length_take_le _ _)
  · exact Nat.zero_le _

/-- A WRITE that passes the checks holds without room, and else queues its bytes (R180, R184). -/
theorem exec_write_accepted {opc : Opcode} {p1 p2 dst : Byte} (hi : s.Idle) (hl : s.linkOpen = true)
    (hp : s.poisoned = false) (ho : s.cfg.opcodeValid opc = true) (ht : s.txLen = if dst.getLsbD 7 then p1 else 0) :
    exec (.write opc p1 p2 dst) s = .next (
      if s.txFree < (s.writeBytes (s.userFrame opc p1 p2 dst)).length then s
      else (s.enqueue (s.userFrame opc p1 p2 dst)).answered 0x0A .ok
        (writeData (s.dueBurst.length / hdrLen) (s.writeBytes (s.userFrame opc p1 p2 dst)).length)) := by
  have hlen : (dst.getLsbD payloadBit && s.txLen != p1) = false ∧
      (!dst.getLsbD payloadBit && s.txLen != 0) = false := by
    rw [payloadBit_eq, ht]
    cases dst.getLsbD 7 <;> simp
  refine (checked_idle hi cmdWrite _).trans ?_
  simp only [hl, hp, ho, hlen, Bool.not_true, Bool.false_eq_true, if_false]
  split <;> rfl

/-- Under R8 the two counts of a WRITE fit their fields of `DATA` (R116). -/
theorem writeData_eq {packets bytes : Nat} (hp : packets < 256) (hb : bytes < 65536) :
    writeData packets bytes = BitVec.ofNat 64 (packets + 65536 * bytes) := by
  rw [writeData, show 2 ^ 8 = 256 from rfl, show 2 ^ 16 = 65536 from rfl, Nat.mod_eq_of_lt hp, Nat.mod_eq_of_lt hb]

theorem txPayload_length (s : State) : s.txPayload.length = s.txLen.toNat := by simp [State.txPayload]

/-- Six bytes for each due packet, six for the header, and the payload (R100, R180). -/
theorem writeBytes_length (s : State) (opc : Opcode) (p1 p2 dst : Byte) :
    (s.writeBytes (s.userFrame opc p1 p2 dst)).length = 6 * s.duePackets.length + (6 + s.txLen.toNat) := by
  rw [State.writeBytes, List.length_append, dueBurst_length, bytes_length, State.userFrame, txPayload_length]

/-- The frame of an accepted WRITE has the payload its header announces (R180). -/
theorem userFrame_fits {opc : Opcode} {p1 p2 dst : Byte} (ht : s.txLen = if dst.getLsbD 7 then p1 else 0) :
    payloadFits (s.userFrame opc p1 p2 dst).hdr.p1 (s.userFrame opc p1 p2 dst).hdr.dst
      (s.userFrame opc p1 p2 dst).pay = true := by
  show (s.txPayload.length == if dst.getLsbD 7 then p1.toNat else 0) = true
  rw [txPayload_length, ht, beq_iff_eq]
  split <;> rfl

/-- A keep-alive packet is a short frame: a slot holds a base address (R37, R182). -/
theorem duePackets_fit (h : s.Invariant) : ∀ f ∈ s.duePackets, payloadFits f.hdr.p1 f.hdr.dst f.pay = true := by
  intro f hf
  obtain ⟨k, hk, rfl⟩ := mem_duePackets hf
  show (0 == if k.addr.getLsbD 7 then s.cfg.kaP1.toNat else 0) = true
  rw [h.slotBase k hk]
  rfl

/-- What a WRITE queues parses back into its frames, with nothing left over (R100, R132). -/
theorem framesIn_writeBytes {f : Frame} (h : s.Invariant) (hf : payloadFits f.hdr.p1 f.hdr.dst f.pay = true) :
    framesIn (s.writeBytes f).length (s.writeBytes f) = s.duePackets ++ [f] := by
  have hlast := framesIn_cons (f := f) [] hf
  rw [List.append_nil] at hlast
  rw [State.writeBytes, dueBurst_eq, framesIn_append _ (duePackets_fit h), hlast]
  rfl

end

/-! ### The statements -/

/-- Settles O39, from the two branches of `exec_rxbGet_idle`. -/
theorem rxbGetReadsOneByte : Obligations.RxbGetReadsOneByte := by
  refine ⟨fun idx s hi hv hl => ⟨?_, fun v => resByte_of_read⟩, fun idx s hi hbad => ?_,
    fun idx => commonChecks_of_checked (fun _ => rfl) (by decide) (by decide) (by decide)⟩
  · rw [exec_rxbGet_idle hi, if_neg (by simp [hv, hl])]
  · rw [exec_rxbGet_idle hi, if_pos hbad]

/-- Settles O45: an index finds an entry of the table or none. -/
theorem lookupFailsClosed : Obligations.LookupFailsClosed := by
  refine ⟨fun idx s entry hi he => exec_lookup_of_some hi ?_, fun idx s hi hl => exec_lookup_of_none hi ?_,
    fun idx => commonChecks_of_checked (fun _ => rfl) (by decide) (by decide) (by decide)⟩
  · rw [lookupOpcode, he]
    rfl
  · rw [lookupOpcode, List.getElem?_eq_none hl]
    rfl

/-- Settles O46, from the two branches of `exec_encodeHeader_idle` and the bytes of `headerLe48`. -/
theorem encodeHeaderIsPure : Obligations.EncodeHeaderIsPure := by
  refine ⟨fun opc p1 p2 dst s hi ho => ⟨_, ?_, headerLe48_fields (mkHeader opc p1 p2 dst s.hostAddr)⟩,
    fun opc p1 p2 dst s hi ho => ?_,
    fun opc p1 p2 dst => commonChecks_of_checked (fun _ => rfl) (by decide) (by decide) (by decide)⟩
  · rw [exec_encodeHeader_idle hi, if_pos ho]
  · rw [exec_encodeHeader_idle hi, if_neg fun ⟨e, he, heq⟩ => ho e he heq]

/-- Settles O49, from the two branches of `exec_decodeStatus_idle` and the fields of `statusData`. -/
theorem decodeStatusProjectsTheFlags : Obligations.DecodeStatusProjectsTheFlags := by
  refine ⟨fun off s hi hv hl => ?_, fun off len s hi hbad => ?_,
    fun off len => commonChecks_of_checked (fun _ => rfl) (by decide) (by decide) (by decide)⟩
  · obtain ⟨hflags, hzero, hword⟩ := statusData_fields s.cfg.statusBits (s.statusWord off.toNat)
    refine ⟨_, by rw [exec_decodeStatus_idle hi, if_neg (by simp [hv, hl])], fun j hj => ?_, fun j hj => ?_, hzero⟩
    · obtain ⟨h0, h1, h2, h3⟩ := le32_fields (s.resByte off.toNat) (s.resByte (off.toNat + 1))
        (s.resByte (off.toNat + 2)) (s.resByte (off.toNat + 3))
      rw [← extract_extract _ (show 8 * j + 8 ≤ 32 by omega), hword]
      interval_cases j
      exacts [h0, h1, h2, h3]
    · rw [hword, ← getLsbD_pack _ _ hj, ← hflags, BitVec.getLsbD_extractLsb', decide_eq_true hj, Bool.true_and,
        Nat.zero_add]
  · rw [exec_decodeStatus_idle hi, if_pos hbad]

/-- Settles O47: the FIFO is the bytes of a frame and the rest; the frame is loaded and its bytes are removed. -/
theorem decodeFrameTakesOneFrame : Obligations.DecodeFrameTakesOneFrame := by
  intro q rest s hi hl hp h6 hq hfifo
  obtain ⟨hsplit, hfits⟩ := complete_split ((complete_iff q).2 ⟨h6, hq.ge⟩)
  rw [← hq, List.drop_length, List.append_nil] at hsplit
  generalize frameOf q = f at hsplit hfits
  subst hsplit
  obtain ⟨hc, -, hf⟩ := frame_reads_back f rest hfits
  rw [← hfifo] at hc hf
  refine ⟨_, _, ?_, loaded_reads s.resPay hfits⟩
  rw [exec_decodeFrame_complete hi hl hp hc, hf, loadResult_bytes hfits]
  simp [State.popFrame, hfifo]

/-- Settles O53: the frame is the filter's first case, and is loaded as DECODE_FRAME loads one. -/
theorem frameMatchEndsTheRead : Obligations.FrameMatchEndsTheRead := by
  intro i q s hw hq hb hop hsrc
  obtain ⟨f, rfl, hfits, hx⟩ := exec_of_frame hw hq
  refine ⟨_, _, ?_, loaded_reads s.resPay hfits⟩
  rw [hx, readFrame_match hb ((isMatch_iff s f).2 ⟨hop, hsrc⟩), State.frameMatch, loadResult_bytes hfits]
  rfl

/-- Settles O50: the due packets are those of the statement, and the room decides what `exec_write_accepted` does. -/
theorem writeQueuesBurstThenFrame : Obligations.WriteQueuesBurstThenFrame := by
  intro opc p1 p2 dst s hv hi hl hp ho ht
  have hx := exec_write_accepted (p1 := p1) (p2 := p2) hi hl hp ((opcodeValid_iff _ _).2 ho) ht
  have hlen := writeBytes_length s opc p1 p2 dst
  refine ⟨s.duePackets.map Frame.bytes, s.writeBytes (s.userFrame opc p1 p2 dst), ?_, ?_, fun hfit => ?_,
    fun hfull => ?_⟩
  · rw [duePackets_eq]
    split
    · exact List.map_map
    · rfl
  · rw [State.writeBytes, dueBurst_eq, List.append_assoc]
    rfl
  · obtain ⟨-, -, -, hslots, -⟩ := hv
    have hpackets := duePackets_length_le s
    have hdata : writeData (s.dueBurst.length / hdrLen) (s.writeBytes (s.userFrame opc p1 p2 dst)).length =
        BitVec.ofNat 64 (s.duePackets.length + 65536 * (s.writeBytes (s.userFrame opc p1 p2 dst)).length) := by
      have := s.txLen.isLt
      rw [dueBurst_length, hdrLen, Nat.mul_div_cancel_left _ (by decide)]
      exact writeData_eq (by omega) (by omega)
    rw [hx, if_neg (by unfold State.txFree; omega), hdata, List.length_map]
    simp only [State.enqueue, kaNext, State.burstDue, decide_eq_true_eq]
  · rw [hx, if_pos (by unfold State.txFree; omega)]

/-- Settles O60: a WRITE that answers OK has queued the due packets and the user's frame, each a whole frame. -/
theorem queuedBytesAreWholeFrames : Obligations.QueuedBytesAreWholeFrames := by
  intro opc p1 p2 dst s t d hinv hx hr
  rcases execWrite_cases hx with ⟨e, he, rfl⟩ | ⟨-, -, -, -, ht, ⟨-, rfl⟩ | ⟨-, rfl⟩⟩
  · rw [raise_responses] at hr
    have hok : e = .ok := congrArg Response.err (List.singleton_inj.1 (List.append_cancel_left hr))
    exact absurd hok he.notOk
  · simp at hr
  · have hframes := framesIn_writeBytes hinv (userFrame_fits (opc := opc) (p2 := p2) ht)
    refine ⟨s.writeBytes (s.userFrame opc p1 p2 dst), rfl, ?_, ?_⟩
    · rw [hframes, duePackets_eq, List.take_of_length_le hinv.slotCount.le]
      rfl
    · rw [hframes, ← List.flatMap_def, List.flatMap_append, ← dueBurst_eq, List.flatMap_singleton]
      rfl

end Sys2Proof.Machine

/-! # The codec family (spec/40_codec.md): what DECODE_FRAME refuses, and how ENCODE_HEADER's bytes read back -/

namespace Sys2Proof.Machine

section
variable {s : State}

/-! ### DECODE_FRAME's refusals, in the order of R133 -/

theorem exec_decodeFrame_closed (hi : s.Idle) (hl : s.linkOpen = false) :
    exec .decodeFrame s = .next (s.stateError 0x0D .notOpen) := by
  refine (checked_idle hi cmdDecodeFrame _).trans ?_
  rw [hl, Bool.not_false, if_pos rfl]
  exact congrArg _ (raise_notOpen s _)

theorem exec_decodeFrame_poisoned (hi : s.Idle) (hl : s.linkOpen = true) (hp : s.poisoned = true) :
    exec .decodeFrame s = .next (s.stateError 0x0D .poisoned) := by
  refine (checked_idle hi cmdDecodeFrame _).trans ?_
  rw [hl, hp, if_neg (by decide), if_pos rfl]
  exact congrArg _ (raise_errPoisoned s _)

/-- A header that is missing and a payload that is missing meet different checks, with the same answer. -/
theorem exec_decodeFrame_incomplete (hi : s.Idle) (hl : s.linkOpen = true) (hp : s.poisoned = false)
    (hc : complete s.rxFifo = false) : exec .decodeFrame s = .next (s.linkError 0x0D .incompleteFrame) := by
  refine (checked_idle hi cmdDecodeFrame _).trans ?_
  rw [hl, hp, hc, if_neg (by decide), if_neg (by decide), Bool.not_false, if_pos rfl, ite_self]
  exact congrArg _ (raise_link s _ rfl)

/-! ### A frame at the head of the FIFO, taken and held -/

/-- A frame with the payload its header announces is taken whole from the head of the FIFO (R132, R134). -/
theorem exec_decodeFrame_at_head {f : Frame} (rest : List Byte) (hi : s.Idle) (hl : s.linkOpen = true)
    (hp : s.poisoned = false) (hfits : payloadFits f.hdr.p1 f.hdr.dst f.pay = true) :
    exec .decodeFrame { s with rxFifo := f.bytes ++ rest } =
      .next (State.answered (State.loadResult { s with rxFifo := rest } f) 0x0D .ok (frameData f.hdr)) := by
  obtain ⟨hc, -, hf⟩ := frame_reads_back f rest hfits
  have hx := exec_decodeFrame_complete (s := { s with rxFifo := f.bytes ++ rest }) hi hl hp hc
  rw [hf] at hx
  rw [hx, State.popFrame, List.drop_left]

/-- The result registers hold a loaded frame's payload byte for byte (R39, R134). -/
theorem loadResult_resPayload {f : Frame} (h : payloadFits f.hdr.p1 f.hdr.dst f.pay = true) :
    (s.loadResult f).resPayload = f.pay := by
  have hlen := payLen_eq h
  apply List.ext_getElem
  · simpa [State.resPayload] using hlen
  · intro j hj hj'
    have hread : Memory.read (s.loadResult f).resPay j = some f.pay[j] := by
      rw [loadResult_resPay, read_loaded _ h, if_pos hj', List.getElem?_eq_getElem hj']
    simpa [State.resPayload] using resByte_of_read hread

/-! ### ENCODE_HEADER's answer as bytes -/

/-- The only `OK` answer of ENCODE_HEADER is its header's number (R131). -/
theorem encodeHeader_ok_data {opc : Opcode} {p1 p2 dst : Byte} {t : State} {d : BitVec 64}
    (hx : exec (.encodeHeader opc p1 p2 dst) s = .next t) (hr : t.responses = s.responses ++ [⟨0x07, .ok, d⟩]) :
    d = headerLe48 (mkHeader opc p1 p2 dst s.hostAddr) := by
  rcases execEncodeHeader_cases hx with ⟨e, he, rfl⟩ | ⟨-, -, rfl⟩
  · rw [raise_responses] at hr
    have hok : e = .ok := congrArg Response.err (List.singleton_inj.1 (List.append_cancel_left hr))
    exact absurd hok he.notOk
  · exact (congrArg Response.data (List.singleton_inj.1 (List.append_cancel_left hr))).symm

/-- Read in line order, the number of a header is its six bytes (R81, R116). -/
theorem headerLe48_bytes (h : Header) :
    (List.range 6).map (fun j => (headerLe48 h).extractLsb' (8 * j) 8) = h.bytes := by
  obtain ⟨h0, h1, h2, h3, h4, h5, -⟩ := headerLe48_fields h
  simp [List.range_succ, Header.bytes, h0, h1, h2, h3, h4, h5]

/-- A header that announces a payload is no frame by itself (R105, R132). -/
theorem complete_header_alone {h : Header} (hd : h.dst.getLsbD 7 = true) (hp : h.p1 ≠ 0) :
    complete h.bytes = false := by
  have hpos : 0 < h.p1.toNat := Nat.pos_of_ne_zero fun h0 => hp (BitVec.eq_of_toNat_eq h0)
  refine (complete_eq_false_iff _).2 (.inr ?_)
  simp [frameLen, Header.bytes, hd, hpos]

end

/-! ### The statements -/

/-- Settles O48: the refusals of R133, one lemma each. -/
theorem decodeFrameErrors : Obligations.DecodeFrameErrors :=
  ⟨fun _ => exec_decodeFrame_closed, fun _ => exec_decodeFrame_poisoned,
    fun s hi hl hp hshort => exec_decodeFrame_incomplete hi hl hp ((complete_eq_false_iff s.rxFifo).2 hshort),
    commonChecks_of_checked (fun _ => rfl) (by decide) (by decide) (by decide)⟩

/-- Settles O58: the answered bytes are those of the header, so with its payload they are a frame at the head of the
FIFO, and alone they are not complete. -/
theorem encodedHeaderReadsBack : Obligations.EncodedHeaderReadsBack := by
  intro opc p1 p2 dst pay rest s t d hi hl hp hx hr
  rw [encodeHeader_ok_data hx hr, headerLe48_bytes]
  refine ⟨fun hlen => ?_, fun hd hp1 => exec_decodeFrame_incomplete hi hl hp (complete_header_alone hd hp1)⟩
  have hfits : payloadFits p1 dst pay = true := beq_iff_eq.2 hlen
  exact ⟨_, exec_decodeFrame_at_head (f := ⟨mkHeader opc p1 p2 dst s.hostAddr, pay⟩) rest hi hl hp hfits, rfl,
    le16_opcBytes opc, rfl, rfl, rfl, rfl, loadResult_resPayload hfits, rfl⟩

end Sys2Proof.Machine

/-! # The command table family (spec/41_command_table.md): no step writes the table -/

namespace Sys2Proof.Machine

/-- The parameters are no step's to write, whichever agent takes it (R163). -/
theorem step_cfg {s t : State} (h : step s = .next t) : t.cfg = s.cfg := (step_line h).1

/-- Settles O24: LOOKUP's table and opcode validity are read from the configuration, which no step changes. -/
theorem parametersNeverChange : Obligations.ParametersNeverChange := by
  intro s t h
  have hcfg : t.cfg = s.cfg := step_cfg h
  exact ⟨hcfg, fun idx => congrArg (lookupOpcode · idx) hcfg, fun opc => congrArg (Config.opcodeValid · opc) hcfg⟩

end Sys2Proof.Machine

/-! # The transport family (spec/42_transport.md): the wire agents, the link's commands, the remote's deadline -/

namespace Sys2Proof.Machine

section
variable {s : State}

/-! ### The wire agents -/

/-- Wire-RX takes the byte exactly while the block signals ready-to-receive (R200, R202). -/
theorem wireRx_eq (s : State) (b : Byte) :
    s.wireRx b =
      if s.linkOpen = true ∧ s.rxFifo.length < s.cfg.rxDepth then { s with rxFifo := s.rxFifo ++ [b] } else s := by
  simp only [State.wireRx, State.readyToReceive, Bool.and_eq_true, decide_eq_true_eq]

/-- A closed link takes no byte (R172, R200). -/
theorem wireRx_closed (hl : s.linkOpen = false) (b : Byte) : s.wireRx b = s := by
  rw [wireRx_eq, hl, if_neg fun h => Bool.false_ne_true h.1]

/-- Under clear-to-send the head of the queue goes to the end of the line (R201). -/
theorem wireTx_sends {b : Byte} {rest : List Byte} (hq : s.txQ = b :: rest) :
    s.wireTx true = { s with line := s.line ++ [b], txQ := rest } := by
  rw [State.wireTx, hq]
  rfl

/-- Without clear-to-send, or with nothing queued, wire-TX waits (R201). -/
theorem wireTx_waits {c : Bool} (h : c = false ∨ s.txQ = []) : s.wireTx c = s := by
  rcases wireTx_cases s c with ⟨b, rest, rfl, hq, -⟩ | ⟨-, hw⟩
  · rcases h with hc | hq'
    · cases hc
    · rw [hq] at hq'
      cases hq'
  · exact hw

/-! ### OPEN and CLOSE -/

theorem exec_openLink_idle (hi : s.Idle) (b : Byte) :
    exec (.openLink b) s = .next ((s.openLink b).answered 0x02 .ok 0) := checked_idle hi cmdOpen _

theorem exec_closeLink_idle (hi : s.Idle) : exec .closeLink s = .next (s.closeLink.answered 0x03 .ok 0) :=
  checked_idle hi cmdClose _

/-- On a closed link with empty queues CLOSE finds nothing to end (R172). -/
theorem closeLink_of_closed (hl : s.linkOpen = false) (hr : s.rxFifo = []) (ht : s.txQ = []) : s.closeLink = s := by
  cases s
  cases hl
  cases hr
  cases ht
  rfl

/-! ### The two checks of the link (R180, R190, R245) -/

section
variable {cmd : Byte} {rest : Host.Outcome State Fault Refusal}

/-- A command that needs an open link, on a closed one. -/
theorem checked_closed (hi : s.Idle) (hl : s.linkOpen = false) :
    checked cmd s (if !s.linkOpen then failWith cmd s .notOpen else rest) = .next (s.stateError cmd .notOpen) := by
  rw [checked_idle hi, hl, Bool.not_false, if_pos rfl]
  exact congrArg _ (raise_notOpen s cmd)

/-- A command that needs an unpoisoned link, on a poisoned one. -/
theorem checked_poisoned (hi : s.Idle) (hl : s.linkOpen = true) (hp : s.poisoned = true) :
    checked cmd s (if !s.linkOpen then failWith cmd s .notOpen
      else if s.poisoned then failWith cmd s .poisoned else rest) = .next (s.stateError cmd .poisoned) := by
  rw [checked_idle hi, hl, hp, if_neg (by decide), if_pos rfl]
  exact congrArg _ (raise_errPoisoned s cmd)

/-- On an open, unpoisoned link the command goes on. -/
theorem checked_linkReady (hi : s.Idle) (hl : s.linkOpen = true) (hp : s.poisoned = false) :
    checked cmd s (if !s.linkOpen then failWith cmd s .notOpen
      else if s.poisoned then failWith cmd s .poisoned else rest) = rest := by
  rw [checked_idle hi, hl, hp, if_neg (by decide), if_neg (by decide)]

end

/-! ### WRITE's refusals on such a link, in the order of R180 -/

theorem exec_write_unknownOpcode {opc : Opcode} {p1 p2 dst : Byte} (hi : s.Idle) (hl : s.linkOpen = true)
    (hp : s.poisoned = false) (ho : s.cfg.opcodeValid opc = false) :
    exec (.write opc p1 p2 dst) s = .next (s.contractError 0x0A .invalidOpcode) := by
  refine (checked_linkReady hi hl hp).trans ?_
  rw [ho, Bool.not_false, if_pos rfl]
  exact congrArg _ (raise_contract s _ rfl)

/-- A long and a short destination meet different checks of the staged length, with the same answer. -/
theorem exec_write_lengthMismatch {opc : Opcode} {p1 p2 dst : Byte} (hi : s.Idle) (hl : s.linkOpen = true)
    (hp : s.poisoned = false) (ho : s.cfg.opcodeValid opc = true) (ht : s.txLen ≠ if dst.getLsbD 7 then p1 else 0) :
    exec (.write opc p1 p2 dst) s = .next (s.contractError 0x0A .txLengthMismatch) := by
  refine (checked_linkReady hi hl hp).trans ?_
  rw [ho, payloadBit_eq, if_neg (by decide)]
  refine Eq.trans ?_ (congrArg Host.Outcome.next (raise_contract s cmdWrite (e := .txLengthMismatch) rfl))
  cases hd : dst.getLsbD 7 with
  | true =>
    rw [hd, if_pos rfl] at ht
    exact if_pos (by simpa using ht)
  | false =>
    rw [hd, if_neg (by decide)] at ht
    exact (if_neg (by simp)).trans (if_pos (by simpa using ht))

/-! ### ABORT -/

/-- ABORT passes the common checks while a READ is pending, too (R246). -/
theorem exec_abort_unfaulted (hf : s.fault = false) :
    exec .abort s = .next ((if s.busy then s.abortRead else s).answered 0x0C .ok 0) := by
  have hpass : commonCheck true cmdAbort s = none := by simp [commonCheck_none_iff, hf]
  refine (checked_pass hpass).trans ?_
  split <;> rfl

/-- The error of an aborted READ is of the link class: it poisons and is recorded for READ (R195, R244). -/
theorem abortRead_eq (s : State) :
    s.abortRead =
      { s with
        busy := false
        poisoned := true
        lastErr := if s.rxFifo = [] then 5 else 4
        lastErrCmd := 0x0B
        responses := s.responses ++ [⟨0x0B, if s.rxFifo = [] then .aborted else .incompleteFrame, 0⟩] } := by
  have he : s.abortError = if s.rxFifo = [] then .aborted else .incompleteFrame := by
    simp only [State.abortError, List.isEmpty_iff]
  rw [State.abortRead, he]
  split <;> simp [State.record, State.respond, cmdRead, ErrorCode.recorded, ErrorCode.code, ErrorCode.isContract,
    ErrorCode.isLink]

end

/-! ### The statements -/

/-- Settles O11: each agent moves one byte when it is enabled, and else waits. -/
theorem wireAgentsMoveBytesInOrder : Obligations.WireAgentsMoveBytesInOrder := by
  intro s later hv
  refine ⟨fun b hs => ?_, fun c b rest hs hc hq => ?_, fun c hs hwait => ?_⟩
  · exact (step_scheduled hv hs).trans (congrArg _ (wireRx_eq { s with schedule := later } b))
  · subst hc
    exact (step_scheduled hv hs).trans (congrArg _ (wireTx_sends (s := { s with schedule := later }) hq))
  · exact (step_scheduled hv hs).trans (congrArg _ (wireTx_waits (s := { s with schedule := later }) hwait))

/-- Settles O33: the effect of OPEN is `State.openLink`, whatever the link was. -/
theorem openReestablishesTheLink : Obligations.OpenReestablishesTheLink :=
  ⟨fun b _ hi => exec_openLink_idle hi b,
    fun _ => commonChecks_of_checked (fun _ => rfl) (by decide) (by decide) (by decide)⟩

/-- Settles O34: the effect of CLOSE is `State.closeLink`, which a closed link with empty queues already is. -/
theorem closeKeepsAllButTheQueues : Obligations.CloseKeepsAllButTheQueues := by
  refine ⟨fun s hi => exec_closeLink_idle hi,
    commonChecks_of_checked (fun _ => rfl) (by decide) (by decide) (by decide),
    fun s hi hl hr ht => ?_, fun s b later hv hl hs => ?_⟩
  · rw [exec_closeLink_idle hi, closeLink_of_closed hl hr ht]
  · exact (step_scheduled hv hs).trans (congrArg _ (wireRx_closed (s := { s with schedule := later }) hl b))

/-- Settles O51: the two checks of the link, then the two of WRITE's operands. -/
theorem writeErrorsInOrder : Obligations.WriteErrorsInOrder := by
  intro opc p1 p2 dst
  refine ⟨fun _ => checked_closed, fun _ => checked_poisoned,
    fun s hi hl hp ho => exec_write_unknownOpcode hi hl hp ?_,
    fun s hi hl hp ho => exec_write_lengthMismatch hi hl hp ((opcodeValid_iff s.cfg opc).2 ho),
    commonChecks_of_checked (fun _ => rfl) (by decide) (by decide) (by decide)⟩
  rw [← Bool.not_eq_true, opcodeValid_iff]
  exact fun ⟨e, he, heq⟩ => ho e he heq

/-- Settles O52: past the two checks of the link READ is accepted, and leaves the port without a response. -/
theorem readIsAcceptedAndPends : Obligations.ReadIsAcceptedAndPends := fun _ _ _ =>
  ⟨fun _ hi hl hp => checked_linkReady hi hl hp, fun _ => checked_closed, fun _ => checked_poisoned,
    commonChecks_of_checked (fun _ => rfl) (by decide) (by decide) (by decide)⟩

/-- Settles O56: ABORT's own answer follows that of the READ it ends, if one is pending. -/
theorem abortEndsThePendingRead : Obligations.AbortEndsThePendingRead := by
  refine ⟨fun s hf hb => ?_, fun s ⟨hf, hb⟩ => ?_, fun s hf => checked_faulted hf (by decide) (by decide)⟩
  · rw [exec_abort_unfaulted hf, if_pos hb, abortRead_eq, State.answered, List.append_assoc]
    rfl
  · rw [exec_abort_unfaulted hf, hb, if_neg (by decide)]

end Sys2Proof.Machine

/-! ## The remote's deadline (spec/42_transport.md R183, spec/60_exceptions.md R262)

A permission once given stays, because a step only lengthens sessions. And none is given after an OPEN: the bytes queued
since then are whole frames, and at no point of them have more user frames passed since the last keep-alive packet to a
valid slot than the counter has counted. -/

namespace Sys2Proof.Machine

/-! ### A permission stays -/

section
variable {s t : State}

/-- A step lengthens the sessions on the line, or starts an empty one after them (R262). -/
theorem sentFrames_of_step (h : step s = .next t) :
    List.Forall₂ (· <+: ·) s.sentFrames t.sentFrames ∨ List.Forall₂ (· <+: ·) (s.sentFrames ++ [[]]) t.sentFrames := by
  obtain ⟨-, ⟨hl, ho⟩ | ⟨b, -, hl, ho⟩ | ⟨hl, ho⟩⟩ := step_line h
  · simp only [State.sentFrames, hl, ho]
    exact .inl (List.forall₂_refl _)
  · simp only [State.sentFrames, hl, ho]
    exact .inl (framesIn_forall₂ (lineSessions_prefix s.line [b] 0 s.opens))
  · have hopen := framesIn_forall₂ (lineSessions_open s.line 0 s.opens)
    rw [List.map_append] at hopen
    simp only [State.sentFrames, hl, ho]
    exact .inr hopen

/-- "From then on" (R262): no step takes the permission back. -/
theorem remoteMayDrop_of_step (h : step s = .next t) (hs : s.remoteMayDrop = true) : t.remoteMayDrop = true := by
  rw [State.remoteMayDrop] at hs ⊢
  rw [step_cfg h]
  rcases sentFrames_of_step h with hf | hf
  · exact deadlineEverPassed_mono (List.Subset.refl _) hf hs
  · exact deadlineEverPassed_mono (List.Subset.refl _) hf (deadlineEverPassed_later [] hs)

/-! ### How many user frames pass between keep-alive packets -/

/-- At no point of the frames have more than `m` user frames passed since the last keep-alive packet to `a` (R262). -/
def Spaced (c : Config) (a : Byte) (m : Nat) (fs : List Frame) : Prop :=
  ∀ gs, gs <+: fs → framesSince c a gs ≤ m

section
variable {c : Config} {a : Byte} {m : Nat} {fs gs : List Frame}

theorem spaced_nil : Spaced c a m [] := by
  intro gs hgs
  rw [List.prefix_nil.1 hgs]
  exact Nat.zero_le m

/-- Keep-alive packets raise the count at no point. -/
theorem Spaced.append_keepAlives (h : Spaced c a m fs) (hg : ∀ g ∈ gs, isKeepAlive c g = true) :
    Spaced c a m (fs ++ gs) := by
  intro l hl
  rcases List.prefix_or_prefix_of_prefix hl (List.prefix_append fs gs) with hl' | ⟨r, rfl⟩
  · exact h l hl'
  · have hr : r <+: gs := (List.prefix_append_right_inj fs).1 hl
    exact (framesSince_burst_le fun g hm => hg g (hr.subset hm)).trans (h fs List.prefix_rfl)

/-- One frame more adds one point. -/
theorem Spaced.append_frame {f : Frame} (h : Spaced c a m fs) (hf : framesSince c a (fs ++ [f]) ≤ m) :
    Spaced c a m (fs ++ [f]) := by
  intro l hl
  rcases List.prefix_concat_iff.1 hl with rfl | hl
  · exact hf
  · exact h l hl

theorem framesSince_frame_le (c : Config) (a : Byte) (fs : List Frame) (f : Frame) :
    framesSince c a (fs ++ [f]) ≤ framesSince c a fs + 1 := by
  rw [framesSince_append, List.foldl_cons, List.foldl_nil]
  split
  · exact Nat.zero_le _
  · split
    · exact Nat.le_succ _
    · exact Nat.le_refl _

/-- The deadline has not passed where every address of a user frame is below it (R262). -/
theorem deadlinePassed_eq_false {earlier now : List Frame}
    (h : ∀ f ∈ earlier ++ now, isKeepAlive c f = false → framesSince c (baseOf f.hdr.dst) now < c.kaDeadline) :
    deadlinePassed c earlier now = false := by
  rw [deadlinePassed, List.any_eq_false]
  intro f hf hp
  rw [Bool.and_eq_true, Bool.not_eq_true', decide_eq_true_eq] at hp
  obtain ⟨hu, hd⟩ := hp
  exact absurd (h f hf hu) (Nat.not_lt.2 hd)

end

/-! ### What a WRITE sends -/

/-- A slot holds a base address, so that its packet counts as a keep-alive to it (R37, R182). -/
theorem State.Invariant.packet_isKeepAliveTo (h : s.Invariant) {k : KaSlot} (hk : k ∈ s.slots) :
    isKeepAliveTo s.cfg k.addr (keepAlivePacket s.cfg s.hostAddr k.addr) = true :=
  keepAlivePacket_isKeepAliveTo (h.slotBase k hk)

theorem duePackets_isKeepAlive (h : s.Invariant) : ∀ g ∈ s.duePackets, isKeepAlive s.cfg g = true := by
  intro g hg
  obtain ⟨k, hk, rfl⟩ := mem_duePackets hg
  exact h.packet_isKeepAliveTo hk

/-- A burst that is due reaches every valid slot (R181). -/
theorem exists_duePacket_to (h : s.Invariant) (hdue : s.cfg.kaThresh < s.kaCount.toNat) {k : KaSlot}
    (hk : k ∈ s.slots) (hv : k.valid = true) : ∃ g ∈ s.duePackets, isKeepAliveTo s.cfg k.addr g = true := by
  refine ⟨keepAlivePacket s.cfg s.hostAddr k.addr, ?_, h.packet_isKeepAliveTo hk⟩
  rw [duePackets_eq, if_pos hdue, List.take_of_length_le h.slotCount.le]
  exact List.mem_map.2 ⟨k, List.mem_filter.2 ⟨hk, hv⟩, rfl⟩

/-- The counter counts what a WRITE sends to a valid slot: from zero after a burst, else one more (R180, R183). -/
theorem framesSince_write_le (h : s.Invariant) {k : KaSlot} (hk : k ∈ s.slots) (hv : k.valid = true)
    {fs : List Frame} (hc : framesSince s.cfg k.addr fs ≤ s.kaCount.toNat) (f : Frame) :
    framesSince s.cfg k.addr (fs ++ s.duePackets ++ [f]) ≤ (kaNext s.burstDue s.kaCount).toNat := by
  have hf := framesSince_frame_le s.cfg k.addr (fs ++ s.duePackets) f
  rw [kaNext_toNat h.cfgValid]
  split
  · have hzero : framesSince s.cfg k.addr (fs ++ s.duePackets) = 0 :=
      framesSince_burst_zero (duePackets_isKeepAlive h) (exists_duePacket_to h ‹_› hk hv)
    omega
  · have hle : framesSince s.cfg k.addr (fs ++ s.duePackets) ≤ framesSince s.cfg k.addr fs :=
      framesSince_burst_le (duePackets_isKeepAlive h)
    omega

/-! ### What a step does to the bytes on their way -/

/-- The line with the queue behind it stays; a WRITE on an open link adds its burst and its frame; CLOSE discards the
queue; or the link is opened or reset (R171, R172, R180, R270). -/
inductive SendMoves (s t : State) : Prop where
  | kept (hl : t.linkOpen = s.linkOpen) (hk : t.kaCount = s.kaCount) (hq : t.line ++ t.txQ = s.line ++ s.txQ)
  | wrote {f : Frame} (hl : s.linkOpen = true) (hf : payloadFits f.hdr.p1 f.hdr.dst f.pay = true)
      (hk : t.kaCount = kaNext s.burstDue s.kaCount) (hq : t.line ++ t.txQ = s.line ++ s.txQ ++ s.writeBytes f)
  | closed (hl : t.linkOpen = false) (hk : t.kaCount = s.kaCount) (hline : t.line = s.line) (hq : t.txQ = [])
  | restarted (h : t.epoch ≠ s.epoch ∨ t.opens ≠ s.opens)

theorem EndsWithError.sendMoves {c : Byte} (h : EndsWithError c s t) : SendMoves s t := by
  obtain ⟨e, -, rfl⟩ := h
  exact .kept rfl rfl rfl

theorem TakesFrame.sendMoves {f : Frame} (h : TakesFrame s f t) : SendMoves s t := by
  cases h <;> exact .kept (by simp) (by simp) (by simp)

theorem Effect.sendMoves {i : Instr} {c : Byte} (h : Effect s i t) (hc : commandCode i = some c) : SendMoves s t := by
  cases h with
  | error _ he => exact he.sendMoves
  | @write opc p1 p2 dst hl _ _ _ _ ht =>
    exact .wrote (f := s.userFrame opc p1 p2 dst) hl (userFrame_fits ht) rfl (by simp)
  | closeLink => exact .closed rfl rfl rfl rfl
  | openLink => exact .restarted (.inr (by simp))
  | reset => exact .restarted (.inl (by simp))
  | frame hn => rw [hn] at hc; cases hc
  | _ => exact .kept (by simp) (by simp) (by simp)

/-- Taking the event off the schedule moves no byte. -/
theorem SendMoves.of_tick (h : SendMoves s.tick t) : SendMoves s t := by
  rw [tick_eq] at h
  cases h with
  | kept hl hk hq => exact .kept hl hk hq
  | wrote hl hf hk hq => exact .wrote hl hf hk hq
  | closed hl hk hline hq => exact .closed hl hk hline hq
  | restarted h => exact .restarted h

theorem sendMoves_of_step (h : step s = .next t) : SendMoves s t := by
  cases stepEnd_of_step h with
  | still | issued | received => exact .kept (by simp) (by simp) (by simp)
  | sent _ hq => exact .kept (by simp) (by simp) (by simp [hq])
  | illegal _ _ hx => exact hx.sendMoves.of_tick
  | executed _ _ hd hx => exact (hx.sendMoves (commandCode_of_decode hd).2).of_tick
  | frame _ _ _ hx => exact hx.sendMoves.of_tick
  | resetInput => exact .restarted (.inl (by simp))

/-! ### Along a run -/

/-- `t` is reached from `s` without an OPEN, a reset or a change of a slot. -/
structure SameSession (s t : State) : Prop where
  inv : t.Invariant
  cfg : t.cfg = s.cfg
  slots : t.slots = s.slots
  opens : t.opens = s.opens
  line : s.line <+: t.line

theorem SameSession.step {u : State} (h : SameSession s t) (hs : step t = .next u) (ho : u.opens = t.opens)
    (hslots : u.slots = t.slots) : SameSession s u where
  inv := stepKeepsInvariant t u h.inv hs
  cfg := (step_cfg hs).trans h.cfg
  slots := hslots.trans h.slots
  opens := ho.trans h.opens
  line := by
    obtain ⟨-, ⟨hl, -⟩ | ⟨b, -, hl, -⟩ | ⟨hl, -⟩⟩ := step_line hs
    · exact hl ▸ h.line
    · exact hl ▸ List.prefix_append_of_prefix h.line
    · exact hl ▸ h.line

/-- What holds along a run from `s`, right after an OPEN, to `t`: `fs` are the frames queued since. A CLOSE may have cut
their bytes short. -/
structure Sending (s : State) (fs : List Frame) (t : State) : Prop extends SameSession s t where
  queued : t.line ++ t.txQ <+: s.line ++ fs.flatMap Frame.bytes
  whole : t.linkOpen = true → t.line ++ t.txQ = s.line ++ fs.flatMap Frame.bytes
  fit : ∀ f ∈ fs, payloadFits f.hdr.p1 f.hdr.dst f.pay = true
  spaced : ∀ k ∈ s.slots, k.valid = true → Spaced s.cfg k.addr (s.cfg.kaThresh + 1) fs
  count : ∀ k ∈ s.slots, k.valid = true → framesSince s.cfg k.addr fs ≤ t.kaCount.toNat

theorem Sending.start (h : s.Invariant) (hq : s.txQ = []) : Sending s [] s where
  inv := h
  cfg := rfl
  slots := rfl
  opens := rfl
  line := List.prefix_rfl
  queued := by rw [hq]; exact List.prefix_rfl
  whole _ := by rw [hq]; rfl
  fit := by simp
  spaced _ _ _ := spaced_nil
  count _ _ _ := Nat.zero_le _

/-- A WRITE queues its burst and its frame behind the frames before (R180, R181). -/
theorem Sending.wrote {fs : List Frame} {f : Frame} {u : State} (h : Sending s fs t) (hu : SameSession s u)
    (hl : t.linkOpen = true) (hf : payloadFits f.hdr.p1 f.hdr.dst f.pay = true)
    (hk : u.kaCount = kaNext t.burstDue t.kaCount) (hq : u.line ++ u.txQ = t.line ++ t.txQ ++ t.writeBytes f) :
    Sending s (fs ++ t.duePackets ++ [f]) u := by
  have bytes : u.line ++ u.txQ = s.line ++ (fs ++ t.duePackets ++ [f]).flatMap Frame.bytes := by
    rw [hq, h.whole hl, State.writeBytes, dueBurst_eq]
    simp only [List.flatMap_append, List.flatMap_singleton, List.append_assoc]
  have count : ∀ k ∈ s.slots, k.valid = true →
      framesSince s.cfg k.addr (fs ++ t.duePackets ++ [f]) ≤ u.kaCount.toNat := by
    intro k hm hv
    have hc := h.count k hm hv
    rw [← h.cfg] at hc ⊢
    exact hk ▸ framesSince_write_le h.inv (h.slots ▸ hm) hv hc f
  exact { hu with
    count
    queued := bytes ▸ List.prefix_rfl
    whole := fun _ => bytes
    fit := by
      simp only [List.forall_mem_append, List.forall_mem_singleton]
      exact ⟨⟨h.fit, duePackets_fit h.inv⟩, hf⟩
    spaced := fun k hm hv =>
      ((h.spaced k hm hv).append_keepAlives (h.cfg ▸ duePackets_isKeepAlive h.inv)).append_frame
        ((count k hm hv).trans (hu.cfg ▸ hu.inv.kaBound)) }

/-- One step on: only a WRITE adds frames, and only a CLOSE cuts their bytes short. -/
theorem Sending.step {fs : List Frame} {u : State} (h : Sending s fs t) (hs : step t = .next u)
    (hr : u.epoch = t.epoch) (ho : u.opens = t.opens) (hslots : u.slots = t.slots) : ∃ gs, Sending s gs u := by
  have hu : SameSession s u := h.toSameSession.step hs ho hslots
  cases sendMoves_of_step hs with
  | kept hl hk hq =>
    exact ⟨fs, { hu, h with
      queued := hq ▸ h.queued
      whole := fun hopen => hq.trans (h.whole (hl ▸ hopen))
      count := hk ▸ h.count }⟩
  | wrote hl hf hk hq => exact ⟨_, h.wrote hu hl hf hk hq⟩
  | closed hl hk hline hq =>
    exact ⟨fs, { hu, h with
      queued := by
        rw [hline, hq, List.append_nil]
        exact (List.prefix_append _ _).trans h.queued
      whole := fun hopen => absurd hopen (by simp [hl])
      count := hk ▸ h.count }⟩
  | restarted hx => exact absurd hx (by simp [hr, ho])

theorem sending_of_run (h : s.Invariant) (hq : s.txQ = []) (run : SlotRun s t) : ∃ fs, Sending s fs t := by
  induction run with
  | start => exact ⟨[], .start h hq⟩
  | next _ hs hr ho hslots ih =>
    obtain ⟨fs, hfs⟩ := ih
    exact hfs.step hs hr ho hslots

/-- The line has grown by bytes whose frames are the first of those queued. -/
theorem Sending.sent {fs : List Frame} (h : Sending s fs t) :
    ∃ sent, t.line = s.line ++ sent ∧ framesIn sent.length sent <+: fs := by
  obtain ⟨sent, hsent⟩ := h.line
  have hq := h.queued
  rw [← hsent, List.append_assoc, List.prefix_append_right_inj] at hq
  obtain ⟨more, hmore⟩ := (List.prefix_append sent t.txQ).trans hq
  have hframes := framesIn_append [] h.fit
  rw [List.append_nil] at hframes
  refine ⟨sent, hsent.symm, ?_⟩
  have hp := framesIn_prefix sent more
  rw [hmore, hframes] at hp
  simpa [framesIn] using hp

/-- On the way, no valid slot's address reaches the deadline (R8, R183). -/
theorem Sending.below_deadline {fs gs : List Frame} {k : KaSlot} (h : Sending s fs t) (hk : k ∈ s.slots)
    (hv : k.valid = true) (hg : gs <+: fs) : framesSince s.cfg k.addr gs < s.cfg.kaDeadline :=
  (h.spaced k hk hv gs hg).trans_lt (h.cfg ▸ h.inv.cfgValid.1)

/-! ### The sessions before the last OPEN, and the one after it -/

theorem sentFrames_of_last_open {before sent : List Byte} {earlier : List Nat} (hl : s.line = before ++ sent)
    (ho : s.opens = earlier ++ [before.length]) (hle : ∀ x ∈ earlier, x ≤ before.length) :
    s.sentFrames = (lineSessions before 0 earlier).map (fun q => framesIn q.length q) ++
      [framesIn sent.length sent] := by
  rw [State.sentFrames, hl, ho, lineSessions_append _ _ _ _ hle, List.take_left, List.drop_left, List.map_append]
  rfl

/-- The openings stand in order on the line (log 15). -/
theorem State.Invariant.opens_le (h : s.Invariant) {earlier : List Nat} {o : Nat} (ho : s.opens = earlier ++ [o]) :
    ∀ x ∈ earlier, x ≤ o := by
  have hr := h.opensRise
  rw [ho, List.append_assoc, List.pairwise_append] at hr
  obtain ⟨-, -, hle⟩ := hr
  exact fun x hx => hle x hx o (by simp)

/-- A user frame's base address is its destination without the payload flag (R103). -/
theorem baseOf_eq (dst : Byte) : baseOf dst = dst &&& 0x7F := rfl

/-- While every user frame goes to a valid slot's address, the session gives no permission (R183, R262). -/
theorem Sending.keeps_link {fs : List Frame} {earlier : List Nat} (h : Sending s fs t) (hs : s.Invariant)
    (ho : s.opens = earlier ++ [s.line.length]) (hno : s.remoteMayDrop = false)
    (haddr : ∀ f ∈ t.userFrames, ∃ k ∈ s.slots, k.valid = true ∧ k.addr = f.hdr.dst &&& 0x7F) :
    t.remoteMayDrop = false := by
  have hle := hs.opens_le ho
  obtain ⟨sent, hline, hfirst⟩ := h.sent
  have hbefore := sentFrames_of_last_open (sent := []) (List.append_nil _).symm ho hle
  have hafter := sentFrames_of_last_open hline (h.opens.trans ho) hle
  rw [State.remoteMayDrop, hbefore, deadlineEverPassed_append, Bool.or_eq_false_iff] at hno
  rw [State.remoteMayDrop, hafter, deadlineEverPassed_append, h.cfg, hno.1, Bool.false_or, List.any_eq_false]
  intro n _
  rw [Bool.not_eq_true]
  refine deadlinePassed_eq_false fun f hf hu => ?_
  have hmem : f ∈ t.userFrames := by
    rw [State.userFrames, hafter, List.mem_filter, h.cfg, hu, List.flatten_append, List.flatten_singleton]
    refine ⟨?_, rfl⟩
    exact (List.mem_append.1 hf).elim (fun hf => List.mem_append_left _ hf)
      fun hf => List.mem_append_right _ (List.mem_of_mem_take hf)
  obtain ⟨k, hk, hv, ha⟩ := haddr f hmem
  rw [baseOf_eq, ← ha]
  exact h.below_deadline hk hv ((List.take_prefix n _).trans hfirst)

end

/-- Settles O30: a step keeps the permission, and along the run the frames queued since the OPEN are spaced by the
counter. -/
theorem registeredAxesKeepTheLink : Obligations.RegisteredAxesKeepTheLink := by
  refine ⟨fun _ _ => remoteMayDrop_of_step, fun s t earlier hs ho hq _ hno run haddr => ?_⟩
  obtain ⟨fs, hfs⟩ := sending_of_run hs hq run
  exact hfs.keeps_link hs ho hno haddr

end Sys2Proof.Machine

/-! # The host-interface family (spec/43_host_interface.md): NOP, RESET and the commands that clear -/

namespace Sys2Proof.Machine

section
variable {s : State}

/-! ### Each command on an idle block -/

theorem exec_nop_idle (hi : s.Idle) : exec .nop s = .next (s.answered 0x00 .ok 0) := checked_idle hi cmdNop _

theorem exec_txbClear_idle (hi : s.Idle) :
    exec .txbClear s = .next (State.answered { s with txLen := 0 } 0x08 .ok 0) := checked_idle hi cmdTxbClear _

theorem exec_warnClear_idle (hi : s.Idle) :
    exec .warnClear s = .next (State.answered
      { s with warnCount := 0, lastWarnOpcode := 0, lastWarnSrc := 0 } 0x12 .ok 0) := checked_idle hi cmdWarnClear _

theorem exec_evClear_idle (hi : s.Idle) (sel : BitVec 2) (mask : Byte) :
    exec (.evClear sel mask) s = .next (
      if sel = 0 then s.contractError 0x11 .illegalCommand
      else State.answered
        { s with
          evDone := if sel.getLsbD 0 then s.evDone &&& ~~~mask else s.evDone
          evHomed := if sel.getLsbD 1 then s.evHomed &&& ~~~mask else s.evHomed } 0x11 .ok 0) := by
  refine (checked_idle hi cmdEvClear _).trans ?_
  split
  · exact congrArg _ (raise_contract s _ rfl)
  · rfl

/-- The bits of an event bitmap after a mask is cleared from it, or not (R218). -/
theorem getLsbD_clearBits (c : Bool) (ev mask : Byte) (j : Nat) :
    (if c then ev &&& ~~~mask else ev).getLsbD j = (ev.getLsbD j && !(c && mask.getLsbD j)) := by
  cases c with
  | false => simp
  | true =>
    rw [if_pos rfl, BitVec.getLsbD_and, BitVec.getLsbD_not, Bool.true_and]
    by_cases hj : j < 8
    · simp [hj]
    · simp [BitVec.getLsbD_of_ge ev j (Nat.not_lt.1 hj)]

/-! ### RESET -/

/-- A READ that a reset ends leaves its response and no error (R220). -/
theorem dropRead_eq (s : State) :
    s.dropRead =
      { s with responses := s.responses ++ if s.busy then [⟨0x0B, .aborted, 0⟩] else [] } := by
  unfold State.dropRead
  split
  · rfl
  · rw [List.append_nil]

/-- RESET passes the common checks in every state (R246). -/
theorem exec_reset (s : State) : exec .reset s = .next (s.dropRead.applyReset.answered 0x01 .ok 0) :=
  checked_exempt (.inl rfl) s _

end

/-! ### The statements -/

/-- Settles O31: past the common checks NOP only answers. -/
theorem nopDoesNothing : Obligations.NopDoesNothing :=
  ⟨fun _ => exec_nop_idle, commonChecks_of_checked (fun _ => rfl) (by decide) (by decide) (by decide)⟩

/-- Settles O32: the effect of RESET is `State.applyReset`, which keeps the histories, that of responses with the ended
READ's included. -/
theorem resetEndsReadAndResets : Obligations.ResetEndsReadAndResets := by
  intro s
  rw [exec_reset, dropRead_eq]
  rfl

/-- Settles O38: past the common checks TXB_CLEAR writes the length and answers. -/
theorem txbClearEmptiesThePayload : Obligations.TxbClearEmptiesThePayload :=
  ⟨fun _ => exec_txbClear_idle, commonChecks_of_checked (fun _ => rfl) (by decide) (by decide) (by decide)⟩

/-- Settles O43, from the two branches of `exec_evClear_idle` and the bits of a cleared bitmap. -/
theorem evClearClearsSelectedBits : Obligations.EvClearClearsSelectedBits := by
  refine ⟨fun sel mask s hi hsel => ⟨_, _, ?_, getLsbD_clearBits (sel.getLsbD 0) s.evDone mask,
      getLsbD_clearBits (sel.getLsbD 1) s.evHomed mask⟩, fun mask s hi => ?_,
    fun _ _ => commonChecks_of_checked (fun _ => rfl) (by decide) (by decide) (by decide)⟩
  · rw [exec_evClear_idle hi, if_neg hsel]
  · rw [exec_evClear_idle hi, if_pos rfl]

/-- Settles O44: past the common checks WARN_CLEAR writes the record and answers. -/
theorem warnClearEmptiesTheRecord : Obligations.WarnClearEmptiesTheRecord :=
  ⟨fun _ => exec_warnClear_idle, commonChecks_of_checked (fun _ => rfl) (by decide) (by decide) (by decide)⟩

end Sys2Proof.Machine

/-! # The exceptions family (spec/60_exceptions.md): the error codes, the common checks, what an error leaves behind -/

namespace Sys2Proof.Machine

/-! ### The classes of the errors, read off their codes (R240) -/

/-- The link class is the codes 4 and 5 (R244). -/
theorem isLink_iff_code (e : ErrorCode) : e.isLink = true ↔ e.code = 4 ∨ e.code = 5 := by
  cases e <;> decide

/-- The contract class is nine of the codes (R243). -/
theorem isContract_iff_code (e : ErrorCode) :
    e.isContract = true ↔ e.code ∈ ([1, 2, 3, 8, 9, 10, 11, 12, 13] : List (BitVec 4)) := by
  cases e <;> decide

/-- Code 15 is reserved and never produced (R240; U4). -/
theorem code_ne_fifteen (e : ErrorCode) : e.code ≠ 15 := by
  cases e <;> decide

section
variable {s t : State} {i : Instr} {c : Byte} {e : ErrorCode} {d : BitVec 64}

/-! ### The common checks of every command -/

/-- Of the commands, RESET, REG_READ and ABORT alone have an exemption from the common checks (R246, R247). -/
theorem commonChecks_of_command (hc : commandCode i = some c) (hreset : i ≠ .reset) (habort : i ≠ .abort)
    (hreg : ∀ b, i ≠ .regRead b) : CommonChecks i c := by
  cases i with
  | reset => exact absurd rfl hreset
  | abort => exact absurd rfl habort
  | regRead b => exact absurd rfl (hreg b)
  | reservedCmd _ operands =>
    cases hc
    exact (reservedCodeIsIllegal _ operands).2
  | nop | openLink | closeLink | kaSet | kaClr | lookup | encodeHeader | txbClear | txbPush | write | read
  | decodeFrame | rxbGet | decodeStatus | evClear | warnClear =>
    cases hc
    exact commonChecks_of_checked (fun _ => rfl) (by decide) (by decide) (by decide)
  | _ => cases hc

/-! ### A command whose response is an error -/

/-- What `State.raise` writes, with the classes read off the error's code (R241, R243, R244, R245, R249). -/
theorem raise_eq (s : State) (c : Byte) (he : e ≠ .ok) :
    s.raise c e = { s.answered c e 0 with
      lastErr := if e = .faulted then s.lastErr else e.code
      lastErrCmd := if e = .faulted then s.lastErrCmd else c
      fault := s.fault || decide (e.code ∈ ([1, 2, 3, 8, 9, 10, 11, 12, 13] : List (BitVec 4)))
      poisoned := s.poisoned || decide (e.code = 4 ∨ e.code = 5) } := by
  have hrec : e.recorded = true ↔ ¬ e = .faulted := by simp [ErrorCode.recorded, he]
  simp only [← isContract_iff_code, ← isLink_iff_code, Bool.decide_eq_true, State.raise, State.record, State.respond,
    State.endCommand, State.answered, hrec, ite_not]

/-- The last response of a command that ends with `OK` is no error. -/
theorem err_of_finish {u : State} {c' : Byte} {d' : BitVec 64} {l : List Response}
    (hr : (u.finish c' d').responses = l ++ [⟨c, e, d⟩]) : e = .ok := by
  rw [finish_responses] at hr
  cases (List.append_inj' hr rfl).2
  rfl

/-- Of the ways a command ends, only `State.raise` adds one response that is an error: the others end with `OK`, and a
held WRITE and an accepted READ add none (R184, R190). -/
theorem Effect.eq_raise_of_error (h : Effect s i t) (hc : commandCode i = some c) (he : e ≠ .ok)
    (hr : t.responses = s.responses ++ [⟨c, e, d⟩]) : d = 0 ∧ t = s.raise c e := by
  cases h with
  | error hc' ht =>
    obtain ⟨e', -, rfl⟩ := ht
    cases Option.some.inj (hc'.symm.trans hc)
    rw [raise_responses] at hr
    cases List.append_cancel_left hr
    exact ⟨rfl, rfl⟩
  | frame hn => rw [hn] at hc; cases hc
  | hold | read => simp at hr
  | _ => exact absurd (err_of_finish hr) he

end

/-! ### The statements -/

/-- Settles O16: the codes in the order of R240, and the classes read off them. -/
theorem errorCodesAndClasses : Obligations.ErrorCodesAndClasses :=
  ⟨rfl, fun e => ⟨code_ne_fifteen e, isLink_iff_code e, isContract_iff_code e⟩⟩

/-- Settles O17: ABORT is exempt from the check for a pending READ alone, so that a contract fault refuses it like the
commands without an exemption. -/
theorem contractFaultRefusesEveryCommand : Obligations.ContractFaultRefusesEveryCommand := by
  intro i cmd s hc hf hreset hreg
  by_cases habort : i = .abort
  · subst habort
    cases hc
    exact checked_faulted hf (by decide) (by decide)
  · exact (commonChecks_of_command hc hreset habort hreg s).1 hf

/-- Settles O18: the second of the common checks. -/
theorem pendingReadRefusesOtherCommands : Obligations.PendingReadRefusesOtherCommands :=
  fun _ _ s hc hf hb hreset habort hreg => (commonChecks_of_command hc hreset habort hreg s).2 hf hb

/-- Settles O19: the command ended with `State.raise`, whose writes `raise_eq` lists. -/
theorem errorsArePrecise : Obligations.ErrorsArePrecise := by
  intro i cmd s t e d hc hx he hr
  obtain ⟨hd, ht⟩ := (exec_effect hx).eq_raise_of_error hc he hr
  exact ⟨hd, ht.trans (raise_eq s cmd he)⟩

end Sys2Proof.Machine

/-! # The reset family (spec/70_reset_and_hazards.md): what a reset leaves in the state and in the register map -/

namespace Sys2Proof.Machine

section
variable (s : State)

/-! ### The registers after a reset: every field of each is 0 (R270) -/

@[simp] theorem lowField_zero (w : Nat) : lowField 0#w = 0 := BitVec.setWidth_zero 32 w

@[simp] theorem applyReset_statusReg : s.applyReset.statusReg = 0 := rfl

@[simp] theorem applyReset_resHdrLo : s.applyReset.resHdrLo = 0 := rfl

@[simp] theorem applyReset_resHdrHi : s.applyReset.resHdrHi = 0 := rfl

@[simp] theorem applyReset_expReg : s.applyReset.expReg = 0 := rfl

@[simp] theorem applyReset_lastWarnReg : s.applyReset.lastWarnReg = 0 := rfl

@[simp] theorem applyReset_lastErrReg : s.applyReset.lastErrReg = 0 := rfl

/-- After a reset every slot reads as an empty one, inside the slot file and beyond it. -/
@[simp] theorem applyReset_slot (j : Nat) : s.applyReset.slot j = ⟨false, 0⟩ := by
  rw [State.slot, applyReset_slots, emptySlots, List.getD_eq_getElem?_getD, List.getElem?_replicate]
  split <;> rfl

@[simp] theorem applyReset_kaSlotReg (j : Nat) : s.applyReset.kaSlotReg j = 0 := by
  rw [State.kaSlotReg, applyReset_slot]
  rfl

/-- Every entry of the map up to the last slot's, but that of `PARAMS`, is a register whose fields a reset clears. -/
theorem applyReset_regValue {n : Byte} (hn : n.toNat < 0x10 + s.cfg.nKa) (hp : n ≠ 0x0F) :
    s.applyReset.regValue n = some 0 := by
  unfold State.regValue
  rw [if_neg hp, applyReset_cfg, if_pos hn]
  simp

end

/-! ### The statements -/

/-- Settles O15: PARAMS shows the parameters, which a reset keeps; every other register shows fields that it clears. -/
theorem registersReadZeroAfterReset : Obligations.RegistersReadZeroAfterReset :=
  fun s hv => ⟨fun _ => applyReset_regValue s, _, rfl, paramsReg_fields hv⟩

/-- Settles O13: the step of a scheduled reset input is `State.resetInput`, the reset that frees the port. -/
theorem resetInputAbandonsAndResets : Obligations.ResetInputAbandonsAndResets :=
  fun _ _ hv hs => step_scheduled hv hs

/-- Settles O26: the power-on state meets the invariant under R8, which the default parameters meet. -/
theorem invariantAfterReset : Obligations.InvariantAfterReset :=
  ⟨State.Invariant.powerOn (by decide), fun _ => State.Invariant.powerOn⟩

end Sys2Proof.Machine
